-- ==== Sys2Proof/Word.lean ====
section
/-! DEFINITION. The words the block is made of: selector words and input bytes, and the fixed widths of its
registers (spec/10_state.md section 2, spec/30_encoding.md R77 and R83). -/

namespace Sys2Proof

/-- One byte: a selector word (the widest format of R77 has 6 bits; the bits above a format's width are 0) or an
input vector `iv` (R83). -/
abbrev Word := BitVec 8

/-- A character code: 8-bit ASCII (R75). -/
abbrev Char8 := BitVec 8

/-- A FIFO entry and the pending event: the shift bit in bit 8, the character in bits 7 to 0 (R52). -/
abbrev Event := BitVec 9

/-- A timestamp, an elapsed time or a dit-unit count: `TS_W` = 32 bits (R5, R120). -/
abbrev Millis := BitVec 32

/-- The packed symbol buffer, two bits a slot (R74). -/
abbrev SymWord := BitVec 12

end Sys2Proof
end

