-- ==== Sys2Proof/Config.lean ====
section
/-! DEFINITION. What an implementation of the block fixes (spec/00_scope.md R5) and the free values of the model.
The fixed parameters `N_DEB` = 16, `SYM_SLOTS` = 6, `FIFO_DEPTH` = 32, `TS_W` = 32 and `HOLD_W` = 16 are the widths of
the state's fields; `SAMPLE_PERIOD`, `DRAIN_PERIOD` and `MS_PERIOD` enter no rule (R214, R248). -/

namespace Sys2Proof

/-- One entry of the parameter `KEYMAP` (R160): the character it belongs to, its `valid` bit and its scan code. -/
structure KeyEntry where
  char : Char8
  valid : Bool
  code : BitVec 8
  deriving DecidableEq, Repr

/-- The static parameters of R5. They are constant for the life of the block (R5, R21): no operation writes them. -/
structure Config where
  /-- `DIT_MS`: the dit duration in milliseconds, 1 to 2^32 - 1. -/
  ditMs : Millis
  /-- `DIT_MAX_UNITS`: the largest dit-unit count classified as a Dit. -/
  ditMaxUnits : Millis
  /-- `BREAK_UNITS`: the smallest dit-unit count that is a break, 1 to 2^32 - 1. -/
  breakUnits : Millis
  /-- `HOLD_MS`: the press-to-release hold in `ms_tick` strobes. -/
  holdMs : BitVec 16
  /-- `SHIFT_MOD`: the modifier byte of a press report whose event has the shift bit (R189). -/
  shiftMod : BitVec 8
  /-- `KEYMAP` (R160): a character with no entry here is not valid and has code 0x00 (notes/assumptions/12.md). -/
  keymap : List KeyEntry
  deriving DecidableEq, Repr

/-- FREE VALUE: the input byte `iv` (R83) that the host drives in cycle `n` when the model's stimulus queue holds none.
R247: the host chooses any input vector in any cycle. No body: nothing can be proved of what it is
(notes/assumptions/1.md). -/
opaque Config.hostInput : Nat → Word

end Sys2Proof
end

