-- ==== Sys2Proof/Syntax.lean ====
section
/-! DEFINITION. The syntax of the block: the formats and operations of spec/30_encoding.md R77 and section 5, one
constructor of `Instr` per row of spec/opcode_table.json in the table's order, the symbols of R74 and the input vector
of R70 and R83. -/

namespace Sys2Proof

/-- The formats of R77: one selector word each. -/
inductive Format where
  | rst | deb | dec | sym | res | kmap | prod | drn | fifo | tb
  deriving DecidableEq, Repr

/-- The operations of the block, one per row of spec/opcode_table.json. The table gives no row an operand field: an
operation's operands are the registers, input bits and combinational values its rule names (R78). -/
inductive Instr where
  | cycReset | cycRun
  | debFrozen | debUnavail | debSet1 | debSet0 | debKeep
  | decOff | decMarkHold | decMarkEndDit | decMarkEndDah | decBeginGap | decBeginBreak | decBeginBreakEmpty
  | decIdleBreak | decIdleWait | decIdleEmpty
  | symAppend | symEvict
  | resMatch | resNomatch
  | kmapHit | kmapMiss
  | prodIdle | prodTickNoev | prodEnq | prodStall | prodPendPush | prodPendWait
  | drnIdleWait | drnIdleEmpty | drnPopPress | drnPopSkip | drnHoldCount | drnHoldWait | drnRelease
  | fifoNone | fifoPush | fifoPop | fifoPushPop
  | tbCount | tbIdle
  deriving DecidableEq, Repr

/-- The symbol alphabet of R27 and R74. -/
inductive Symbol where
  | empty | dit | dah | brk
  deriving DecidableEq, Repr

/-- The input ports of one cycle (R70), less the clock: one step is one rising edge of it (R8). -/
structure Inputs where
  rst : Bool
  sampleTick : Bool
  msTick : Bool
  drainTick : Bool
  keyIn : Bool
  keyValid : Bool
  shiftIn : Bool
  shiftValid : Bool
  deriving DecidableEq, Repr

end Sys2Proof
end

