-- ==== Sys2Proof/WellFormed.lean ====
section
/-! DEFINITION. What is well formed: a selector word that fits its format (R77, R82) and a configuration inside the
legal ranges of R5 and R6. The operations carry no operand, so each of them is well formed. -/

namespace Sys2Proof

/-- The width in bits of a format's selector word (R77). -/
def Format.width : Format → Nat
  | .rst => 1
  | .deb => 4
  | .dec => 6
  | .sym => 1
  | .res => 1
  | .kmap => 1
  | .prod => 4
  | .drn => 6
  | .fifo => 2
  | .tb => 1

/-- `w` is a selector word of format `f`: no bit above the format's width is set (R82: every selector word has the
fixed width given in R77). -/
def Format.fits (f : Format) (w : Word) : Bool :=
  decide (w.toNat < 2 ^ f.width)

/-- The configuration is inside the legal ranges of R5: `DIT_MS` ≥ 1 (R6) and `BREAK_UNITS` ≥ 1; every other value
of the remaining parameters is legal. -/
def Config.legal (c : Config) : Bool :=
  c.ditMs != 0 && c.breakUnits != 0

end Sys2Proof
end

