-- ==== Sys2Proof/Decode.lean ====
section
/-! DEFINITION. The operation map of spec/30_encoding.md section 5 as rows of mask and match, the decoder of a format's
selector word, the encoder, the reading of a bare table word, and the input byte of R83. -/

namespace Sys2Proof

/-- The format a row of the operation map belongs to (R77, section 5). -/
def formatOf : Instr → Format
  | .cycReset => .rst
  | .cycRun => .rst
  | .debFrozen => .deb
  | .debUnavail => .deb
  | .debSet1 => .deb
  | .debSet0 => .deb
  | .debKeep => .deb
  | .decOff => .dec
  | .decMarkHold => .dec
  | .decMarkEndDit => .dec
  | .decMarkEndDah => .dec
  | .decBeginGap => .dec
  | .decBeginBreak => .dec
  | .decBeginBreakEmpty => .dec
  | .decIdleBreak => .dec
  | .decIdleWait => .dec
  | .decIdleEmpty => .dec
  | .symAppend => .sym
  | .symEvict => .sym
  | .resMatch => .res
  | .resNomatch => .res
  | .kmapHit => .kmap
  | .kmapMiss => .kmap
  | .prodIdle => .prod
  | .prodTickNoev => .prod
  | .prodEnq => .prod
  | .prodStall => .prod
  | .prodPendPush => .prod
  | .prodPendWait => .prod
  | .drnIdleWait => .drn
  | .drnIdleEmpty => .drn
  | .drnPopPress => .drn
  | .drnPopSkip => .drn
  | .drnHoldCount => .drn
  | .drnHoldWait => .drn
  | .drnRelease => .drn
  | .fifoNone => .fifo
  | .fifoPush => .fifo
  | .fifoPop => .fifo
  | .fifoPushPop => .fifo
  | .tbCount => .tb
  | .tbIdle => .tb

/-- One row of the operation map: the word selects the row exactly when it agrees with `bits` on `mask`. -/
structure Row where
  instr : Instr
  mask : Word
  bits : Word
  deriving DecidableEq, Repr

/-- The rows of each format, in the table's order (section 5; the same masks and matches as spec/opcode_table.json). -/
def rowsOf : Format → List Row
  | .rst => [⟨.cycReset, 0x1, 0x1⟩, ⟨.cycRun, 0x1, 0x0⟩]
  | .deb => [⟨.debFrozen, 0x1, 0x0⟩, ⟨.debUnavail, 0x3, 0x1⟩, ⟨.debSet1, 0x7, 0x7⟩, ⟨.debSet0, 0xf, 0xb⟩,
      ⟨.debKeep, 0xf, 0x3⟩]
  | .dec => [⟨.decOff, 0x20, 0x0⟩, ⟨.decMarkHold, 0x23, 0x23⟩, ⟨.decMarkEndDit, 0x27, 0x26⟩,
      ⟨.decMarkEndDah, 0x27, 0x22⟩, ⟨.decBeginGap, 0x2b, 0x21⟩, ⟨.decBeginBreak, 0x3b, 0x39⟩,
      ⟨.decBeginBreakEmpty, 0x3b, 0x29⟩, ⟨.decIdleBreak, 0x3b, 0x38⟩, ⟨.decIdleWait, 0x2b, 0x20⟩,
      ⟨.decIdleEmpty, 0x3b, 0x28⟩]
  | .sym => [⟨.symAppend, 0x1, 0x0⟩, ⟨.symEvict, 0x1, 0x1⟩]
  | .res => [⟨.resMatch, 0x1, 0x1⟩, ⟨.resNomatch, 0x1, 0x0⟩]
  | .kmap => [⟨.kmapHit, 0x1, 0x1⟩, ⟨.kmapMiss, 0x1, 0x0⟩]
  | .prod => [⟨.prodIdle, 0x3, 0x0⟩, ⟨.prodTickNoev, 0xb, 0x1⟩, ⟨.prodEnq, 0xf, 0x9⟩, ⟨.prodStall, 0xf, 0xd⟩,
      ⟨.prodPendPush, 0x6, 0x2⟩, ⟨.prodPendWait, 0x6, 0x6⟩]
  | .drn => [⟨.drnIdleWait, 0x3, 0x0⟩, ⟨.drnIdleEmpty, 0x7, 0x6⟩, ⟨.drnPopPress, 0x27, 0x22⟩,
      ⟨.drnPopSkip, 0x27, 0x2⟩, ⟨.drnHoldCount, 0x19, 0x11⟩, ⟨.drnHoldWait, 0x19, 0x1⟩, ⟨.drnRelease, 0x9, 0x9⟩]
  | .fifo => [⟨.fifoNone, 0x3, 0x0⟩, ⟨.fifoPush, 0x3, 0x1⟩, ⟨.fifoPop, 0x3, 0x2⟩, ⟨.fifoPushPop, 0x3, 0x3⟩]
  | .tb => [⟨.tbCount, 0x1, 0x1⟩, ⟨.tbIdle, 0x1, 0x0⟩]

/-- Why a selector word is refused. -/
inductive DecodeError where
  /-- A bit above the format's width is set (R82). Safe: no cycle of the block forms such a word. -/
  | bitsAboveWidth
  /-- No row of the format accepts the word. Safe, and reached by no word: the rows partition it (section 4). -/
  | noRow
  deriving DecidableEq, Repr

/-- What the decoder reads from a selector word. -/
inductive Decoded where
  | op (i : Instr)
  | rejected (e : DecodeError)
  deriving DecidableEq, Repr

/-- The word agrees with a row on the row's mask. -/
def Row.accepts (r : Row) (w : Word) : Bool :=
  w &&& r.mask == r.bits

/-- The decoder of one format's selector word (R77, section 5): total on any byte, rejecting by name. -/
def decode (f : Format) (w : Word) : Decoded :=
  if f.fits w then
    match (rowsOf f).find? (fun r => r.accepts w) with
    | some r => .op r.instr
    | none => .rejected .noRow
  else .rejected .bitsAboveWidth

/-- The encoder: the selector word of an operation with every bit its row leaves open at 0 (section 5, the column
"match" of spec/opcode_table.json). -/
def encode : Instr → Word
  | .cycReset => 0x1
  | .cycRun => 0x0
  | .debFrozen => 0x0
  | .debUnavail => 0x1
  | .debSet1 => 0x7
  | .debSet0 => 0xb
  | .debKeep => 0x3
  | .decOff => 0x0
  | .decMarkHold => 0x23
  | .decMarkEndDit => 0x26
  | .decMarkEndDah => 0x22
  | .decBeginGap => 0x21
  | .decBeginBreak => 0x39
  | .decBeginBreakEmpty => 0x29
  | .decIdleBreak => 0x38
  | .decIdleWait => 0x20
  | .decIdleEmpty => 0x28
  | .symAppend => 0x0
  | .symEvict => 0x1
  | .resMatch => 0x1
  | .resNomatch => 0x0
  | .kmapHit => 0x1
  | .kmapMiss => 0x0
  | .prodIdle => 0x0
  | .prodTickNoev => 0x1
  | .prodEnq => 0x9
  | .prodStall => 0xd
  | .prodPendPush => 0x2
  | .prodPendWait => 0x6
  | .drnIdleWait => 0x0
  | .drnIdleEmpty => 0x6
  | .drnPopPress => 0x22
  | .drnPopSkip => 0x2
  | .drnHoldCount => 0x11
  | .drnHoldWait => 0x1
  | .drnRelease => 0x9
  | .fifoNone => 0x0
  | .fifoPush => 0x1
  | .fifoPop => 0x2
  | .fifoPushPop => 0x3
  | .tbCount => 0x1
  | .tbIdle => 0x0

/-- The formats in the table's order. -/
def formats : List Format :=
  [.rst, .deb, .dec, .sym, .res, .kmap, .prod, .drn, .fifo, .tb]

/-- The first format, in the table's order, that reads the word under `p`. -/
def firstReading (fs : List Format) (p : Format → Option Instr) : Option Instr :=
  fs.findSome? p

/-- A format's reading of a bare word: the operation it decodes to. -/
def readAs (w : Word) (f : Format) : Option Instr :=
  match decode f w with
  | .op i => some i
  | .rejected _ => none

/-- A format's reading of a bare word that is the very word the encoder writes for that operation. -/
def readAsEncoded (w : Word) (f : Format) : Option Instr :=
  match decode f w with
  | .op i => if encode i == w then some i else none
  | .rejected _ => none

/-- The reading of a BARE selector word. The spec gives each unit its own selector word and no word names its format
(R77), so a bare word of the table belongs to several rows (0x1 is a row of all ten formats). DESIGN CHOICE
(notes/assumptions/10.md): if some format has exactly `nbits` bits only those formats are tried, else all; the first
format in the table's order for which the word is an operation's own encoding wins, and failing that the first format
that accepts it. -/
def decodeTableWord (nbits w : Nat) : Option Instr :=
  if w < 2 ^ 8 then
    let fs := if formats.any (fun f => f.width == nbits) then formats.filter (fun f => f.width == nbits) else formats
    let b : Word := BitVec.ofNat 8 w
    match firstReading fs (readAsEncoded b) with
    | some i => some i
    | none => firstReading fs (readAs b)
  else none

/-- The byte whose bit `k` is the `k`-th entry of the list: a selector word from its condition bits (R77: bit 0 is
the least significant bit). -/
def wordOfBits : List Bool → Word
  | [] => 0
  | b :: bs => (wordOfBits bs <<< 1) ||| (if b then 1 else 0)

/-- The input vector of an input byte `iv` (R83). -/
def inputsOfByte (iv : Word) : Inputs where
  rst := iv.getLsbD 0
  sampleTick := iv.getLsbD 1
  msTick := iv.getLsbD 2
  drainTick := iv.getLsbD 3
  keyIn := iv.getLsbD 4
  keyValid := iv.getLsbD 5
  shiftIn := iv.getLsbD 6
  shiftValid := iv.getLsbD 7

/-- The input byte of an input vector (R83). -/
def byteOfInputs (v : Inputs) : Word :=
  wordOfBits [v.rst, v.sampleTick, v.msTick, v.drainTick, v.keyIn, v.keyValid, v.shiftIn, v.shiftValid]

end Sys2Proof
end

