-- ==== Sys2Proof/Machine/Tables.lean ====
section
/-! DEFINITION. The block's two constant tables: `MORSE_TABLE` (spec/30_encoding.md R76) and the default `KEYMAP`
(spec/42_keymap.md R160), and their lookups. Their contents are the spec's, which marks them as taken from general
knowledge (notes/assumptions/13.md). -/

namespace Sys2Proof.Machine

/-- One entry of `MORSE_TABLE`: a character code and its packed six-slot pattern (R76, last column). -/
structure MorseEntry where
  char : Char8
  word : SymWord
  deriving DecidableEq, Repr

/-- `MORSE_TABLE`: the 36 entries of R76, in its order. -/
def morseTable : List MorseEntry :=
  [⟨0x61, 0x039⟩, ⟨0x62, 0x356⟩, ⟨0x63, 0x366⟩, ⟨0x64, 0x0D6⟩, ⟨0x65, 0x00D⟩, ⟨0x66, 0x365⟩,
   ⟨0x67, 0x0DA⟩, ⟨0x68, 0x355⟩, ⟨0x69, 0x035⟩, ⟨0x6A, 0x3A9⟩, ⟨0x6B, 0x0E6⟩, ⟨0x6C, 0x359⟩,
   ⟨0x6D, 0x03A⟩, ⟨0x6E, 0x036⟩, ⟨0x6F, 0x0EA⟩, ⟨0x70, 0x369⟩, ⟨0x71, 0x39A⟩, ⟨0x72, 0x0D9⟩,
   ⟨0x73, 0x0D5⟩, ⟨0x74, 0x00E⟩, ⟨0x75, 0x0E5⟩, ⟨0x76, 0x395⟩, ⟨0x77, 0x0E9⟩, ⟨0x78, 0x396⟩,
   ⟨0x79, 0x3A6⟩, ⟨0x7A, 0x35A⟩, ⟨0x31, 0xEA9⟩, ⟨0x32, 0xEA5⟩, ⟨0x33, 0xE95⟩, ⟨0x34, 0xE55⟩,
   ⟨0x35, 0xD55⟩, ⟨0x36, 0xD56⟩, ⟨0x37, 0xD5A⟩, ⟨0x38, 0xD6A⟩, ⟨0x39, 0xDAA⟩, ⟨0x30, 0xEAA⟩]

/-- The character whose entry equals the buffer word, if any (R123, R134; at most one entry can, R76). -/
def resolveWord (w : SymWord) : Option Char8 :=
  (morseTable.find? (fun e => e.word == w)).map MorseEntry.char

/-- The default `KEYMAP` of R160: USB HID keyboard usages for a to z, 1 to 9, 0 and space. -/
def defaultKeymap : List KeyEntry :=
  [⟨0x61, true, 0x04⟩, ⟨0x62, true, 0x05⟩, ⟨0x63, true, 0x06⟩, ⟨0x64, true, 0x07⟩, ⟨0x65, true, 0x08⟩,
   ⟨0x66, true, 0x09⟩, ⟨0x67, true, 0x0A⟩, ⟨0x68, true, 0x0B⟩, ⟨0x69, true, 0x0C⟩, ⟨0x6A, true, 0x0D⟩,
   ⟨0x6B, true, 0x0E⟩, ⟨0x6C, true, 0x0F⟩, ⟨0x6D, true, 0x10⟩, ⟨0x6E, true, 0x11⟩, ⟨0x6F, true, 0x12⟩,
   ⟨0x70, true, 0x13⟩, ⟨0x71, true, 0x14⟩, ⟨0x72, true, 0x15⟩, ⟨0x73, true, 0x16⟩, ⟨0x74, true, 0x17⟩,
   ⟨0x75, true, 0x18⟩, ⟨0x76, true, 0x19⟩, ⟨0x77, true, 0x1A⟩, ⟨0x78, true, 0x1B⟩, ⟨0x79, true, 0x1C⟩,
   ⟨0x7A, true, 0x1D⟩, ⟨0x31, true, 0x1E⟩, ⟨0x32, true, 0x1F⟩, ⟨0x33, true, 0x20⟩, ⟨0x34, true, 0x21⟩,
   ⟨0x35, true, 0x22⟩, ⟨0x36, true, 0x23⟩, ⟨0x37, true, 0x24⟩, ⟨0x38, true, 0x25⟩, ⟨0x39, true, 0x26⟩,
   ⟨0x30, true, 0x27⟩, ⟨0x20, true, 0x2C⟩]

/-- `KEYMAP[c]` as the pair of R160: a character with no entry reads as `valid` = 0, `code` = 0x00. -/
def keymapEntry (km : List KeyEntry) (c : Char8) : KeyEntry :=
  match km.find? (fun e => e.char == c) with
  | some e => e
  | none => ⟨c, false, 0x00⟩

/-- `to_scan_code` (R161, R162): the code of a valid entry, else none. -/
def scanCode (km : List KeyEntry) (c : Char8) : Option (BitVec 8) :=
  if (keymapEntry km c).valid then some (keymapEntry km c).code else none

/-- The configuration of spec/95_test_vectors.md: every default of R5, and the example value 60 for `DIT_MS`, which has
no default (notes/assumptions/5.md). -/
def exampleConfig : Config where
  ditMs := 60
  ditMaxUnits := 2
  breakUnits := 7
  holdMs := 10
  shiftMod := 0x02
  keymap := defaultKeymap

end Sys2Proof.Machine
end

