-- ==== Sys2Proof/Machine/State.lean ====
section
/-! DEFINITION. The state of `MKB_CORE` as plain data: the registers of spec/10_state.md section 2, the ports of
spec/30_encoding.md R70 and R71, the combinational values of the cycle being run (spec/44_cycle.md R210), the
configuration of spec/00_scope.md R5, and the model's own stimulus queue and cycle number. -/

namespace Sys2Proof.Machine

/-- The drain FSM's state `dstate` (R32): `idle` is 0, `hold` is 1. -/
inductive DrainState where
  | idle | hold
  deriving DecidableEq, Repr

/-- The output ports (R71) as driven in one cycle. -/
structure Outputs where
  /-- `rep_valid`: a report is emitted this cycle. -/
  repValid : Bool
  /-- `rep_code`. -/
  repCode : BitVec 8
  /-- `rep_mod`. -/
  repMod : BitVec 8
  /-- `char_valid_o`: the decoder completed a character this cycle. -/
  charValid : Bool
  /-- `char_o`. -/
  char : Char8
  /-- `nomatch_o`: status `NOMATCH`. -/
  noMatch : Bool
  /-- `unsup_o`: status `UNSUPPORTED`. -/
  unsup : Bool
  /-- `settled_o`. -/
  settled : Bool
  /-- `fifo_cnt_o`. -/
  fifoCnt : BitVec 6
  /-- `stall_o`. -/
  stall : Bool
  /-- `busy_o`. -/
  busy : Bool
  deriving DecidableEq, Repr

/-- The combinational values of one cycle, the `let` values of R210 through which one unit feeds another. They hold
nothing from cycle to cycle: `CYC_RUN` clears them before the first unit (notes/assumptions/7.md). -/
structure Wires where
  /-- `L`: the level DEB passes to DEC (R106). -/
  level : Bool
  /-- The symbol the decoder is pushing, the operand of format `SYM` (R121, R122). -/
  symIn : Option Symbol
  /-- The buffer `push_sym` yields. -/
  bufNext : Vector Symbol 6
  /-- The index `push_sym` yields. -/
  idxNext : BitVec 3
  /-- `w`: the buffer word after the `BREAK` push, the operand of format `RES` (R123). -/
  resIn : Option SymWord
  /-- `done` and `char`: the character completed this cycle (R134, R136). -/
  done : Option Char8
  /-- `push` and `push_val`: the event the producer pushes this cycle (R174, R177). -/
  push : Option Event
  /-- `pop` and `head`: the event the drain FSM pops this cycle (R182, R183). -/
  pop : Option Event
  /-- The character looked up, the operand of format `KMAP` (R161, R162). -/
  lookup : Option Char8
  /-- What `to_scan_code` returned. -/
  code : Option (BitVec 8)
  deriving DecidableEq, Repr

/-- The machine. -/
structure State where
  /-- The parameters the block is built with (R5, R21); no operation writes them. -/
  cfg : Config
  /-- `deb_sr[15:0]`: the last 16 raw samples, the newest in bit 0 (R23). -/
  debSr : BitVec 16
  /-- `settled`: the debounced level (R24). -/
  settled : Bool
  /-- `dec_prev`: the level the decoder saw last (R25). -/
  decPrev : Bool
  /-- `t_last[31:0]`: `ms_count` at the decoder's last edge (R26). -/
  tLast : Millis
  /-- `sym_buf[0..5]`, slot 0 the oldest symbol (R27). -/
  symBuf : Vector Symbol 6
  /-- `sym_idx[2:0]`: the number of slots filled (R28). -/
  symIdx : BitVec 3
  /-- `fifo_mem[0..31]` (R29). -/
  fifoMem : Vector Event 32
  /-- `fifo_rd[4:0]` (R30). -/
  fifoRd : BitVec 5
  /-- `fifo_wr[4:0]` (R30). -/
  fifoWr : BitVec 5
  /-- `fifo_cnt[5:0]` (R30). -/
  fifoCnt : BitVec 6
  /-- `pend_valid` (R31). -/
  pendValid : Bool
  /-- `pend_ev[8:0]` (R31). -/
  pendEv : Event
  /-- `dstate` (R32). -/
  dstate : DrainState
  /-- `hold_cnt[15:0]` (R32). -/
  holdCnt : BitVec 16
  /-- `ms_count[31:0]` (R32). -/
  msCount : Millis
  /-- The input ports as sampled in the cycle being run (R70). -/
  pins : Inputs
  /-- The output ports as driven in the cycle being run, or in the last one (R71). -/
  out : Outputs
  /-- The combinational values of that cycle. -/
  wires : Wires
  /-- The MODEL's own: the input bytes the host has lined up for the next cycles, the next one first (R83). -/
  stim : List Word
  /-- The MODEL's own: the number of cycles run; the free value `Config.hostInput` is applied to it. -/
  cycle : Nat
  deriving DecidableEq, Repr

/-- The faults of the model. The block itself has none (R236, R237): a status is an output, not a fault. -/
inductive Fault where
  /-- The state breaks an invariant of R33, so it is outside the block's domain and must be given no meaning (R80,
  R263, D31, U3). Raised by `CYC_RUN`, by `SYM_APPEND` on an index of 6 or more and by the FIFO operations whose
  precondition on `fifo_cnt` fails. Safe: no run from reset reaches such a state. -/
  | outsideDomain
  deriving DecidableEq, Repr

/-- The refusals of the model. -/
inductive Refusal where
  /-- An instruction with no meaning yet. Raised by no arm of `exec`. Safe. -/
  | notModelled (mnemonic : String)
  /-- The configuration is outside the legal ranges of R5 and R6 (`DIT_MS` = 0 or `BREAK_UNITS` = 0): such a block is
  not built. Raised by every operation. Safe. -/
  | illegalConfig
  /-- The operation is asked for in a state whose selector word does not select its row, so the block performs
  another operation of its format there, or none (R77, R79). Raised by every operation. Safe. -/
  | notSelected (i : Instr)
  /-- A unit's selector word selects no row. Raised by the unit dispatches and by the step; the rows partition each
  word (section 4 of spec/30_encoding.md), so no state reaches it. Safe. -/
  | undecodable (f : Format)
  deriving DecidableEq, Repr

/-- What an operation or a step answers. -/
abbrev Answer := Host.Outcome State Fault Refusal

/-- The empty symbol buffer. -/
abbrev emptyBuf : Vector Symbol 6 := #v[.empty, .empty, .empty, .empty, .empty, .empty]

/-- The combinational values at the start of a cycle: no request is made and nothing is completed (R210, D28). -/
def Wires.clear : Wires where
  level := false
  symIn := none
  bufNext := emptyBuf
  idxNext := 0
  resIn := none
  done := none
  push := none
  pop := none
  lookup := none
  code := none

/-- Every strobe 0 and every field 0x00, with the level outputs given (R71, R212). -/
def Outputs.quiet (settled : Bool) (cnt : BitVec 6) (stall busy : Bool) : Outputs where
  repValid := false
  repCode := 0x00
  repMod := 0x00
  charValid := false
  char := 0x00
  noMatch := false
  unsup := false
  settled := settled
  fifoCnt := cnt
  stall := stall
  busy := busy

/-- No strobe and no line active. -/
def noInputs : Inputs where
  rst := false
  sampleTick := false
  msTick := false
  drainTick := false
  keyIn := false
  keyValid := false
  shiftIn := false
  shiftValid := false

/-- `State.reset`: the state after a reset cycle with seed 0 (R260, the start state of spec/95_test_vectors.md). The
seed (notes/assumptions/2.md), the contents of `fifo_mem` (notes/assumptions/3.md), the configuration
(notes/assumptions/5.md) and the port and wire values (notes/assumptions/7.md) are the model's choices. -/
def State.reset : State where
  cfg := exampleConfig
  debSr := 0x0000
  settled := false
  decPrev := false
  tLast := 0
  symBuf := emptyBuf
  symIdx := 0
  fifoMem := Vector.replicate 32 0
  fifoRd := 0
  fifoWr := 0
  fifoCnt := 0
  pendValid := false
  pendEv := 0
  dstate := .idle
  holdCnt := 0
  msCount := 0
  pins := noInputs
  out := Outputs.quiet false 0 false false
  wires := Wires.clear
  stim := []
  cycle := 0

end Sys2Proof.Machine
end

