-- ==== Sys2Proof/Machine/Flags.lean ====
section
/-! DEFINITION. The derived one-bit signals and the condition bits of the selector words: spec/10_state.md R34,
spec/30_encoding.md R77, spec/40_debounce.md R100, spec/41_decoder.md R120. Each is a function of the start-of-cycle
registers, this cycle's inputs and, where R77 says so, a combinational value of the cycle. -/

namespace Sys2Proof.Machine

/-- `fifo_full` (R34). -/
def fifoFull (s : State) : Bool := s.fifoCnt == 32

/-- `fifo_empty` (R34). -/
def fifoEmpty (s : State) : Bool := s.fifoCnt == 0

/-- `stalled` (R34). -/
def stalled (s : State) : Bool := s.pendValid

/-- `busy` (R34). -/
def busy (s : State) : Bool := s.dstate == .hold

/-- `acc`: an accepted sample tick (R100, R176). -/
def acc (s : State) : Bool := s.pins.sampleTick && !s.pendValid

/-- `sr_n` = `{deb_sr[14:0], key_in}` (R100): the new sample enters bit 0 and bit 15 drops off. -/
def srNext (s : State) : BitVec 16 := (s.debSr.setWidth 15) ++ (BitVec.ofBool s.pins.keyIn)

/-- `ones` (R100). -/
def srOnes (s : State) : Bool := srNext s == 0xFFFF

/-- `zeros` (R100). -/
def srZeros (s : State) : Bool := srNext s == 0x0000

/-- `el` (R120): milliseconds since the last edge, modulo 2^32. -/
def elapsed (s : State) : Millis := s.msCount - s.tLast

/-- `u` (R120): the dit-unit count, by integer division. -/
def ditUnits (s : State) : Millis := elapsed s / s.cfg.ditMs

/-- `le` (R120): a mark this long is a Dit. -/
def shortMark (s : State) : Bool := decide (ditUnits s ≤ s.cfg.ditMaxUnits)

/-- `ge` (R120): a silence this long is a break. -/
def longGap (s : State) : Bool := decide (s.cfg.breakUnits ≤ ditUnits s)

/-- `nz` (R120): the symbol buffer holds marks. -/
def hasMarks (s : State) : Bool := s.symIdx != 0

/-- `full` of format `SYM` (R77). -/
def bufFull (s : State) : Bool := s.symIdx == 6

/-- `hit` of format `RES` (R77): the offered word equals an entry of `MORSE_TABLE`; 0 when no word is offered. -/
def wordHit (s : State) : Bool :=
  match s.wires.resIn with
  | some w => (resolveWord w).isSome
  | none => false

/-- `kv` of format `KMAP` (R77): the looked-up character is valid; 0 when none is looked up. -/
def lookupValid (s : State) : Bool :=
  match s.wires.lookup with
  | some c => (keymapEntry s.cfg.keymap c).valid
  | none => false

/-- `done` of format `PROD` (R77): the decoder completed a character this cycle. -/
def charDone (s : State) : Bool := s.wires.done.isSome

/-- `hz` of format `DRN` (R77). -/
def holdZero (s : State) : Bool := s.holdCnt == 0

/-- `push` of format `FIFO` (R77). -/
def pushing (s : State) : Bool := s.wires.push.isSome

/-- `pop` of format `FIFO` (R77). -/
def popping (s : State) : Bool := s.wires.pop.isSome

end Sys2Proof.Machine
end

