-- ==== Sys2Proof/Machine/Operands.lean ====
section
/-! DEFINITION. The operand values of R78 (the head entry, the event, the packed buffer word) and the ten selector
words of spec/30_encoding.md R77. -/

namespace Sys2Proof.Machine

/-- The two-bit symbol code (R74). -/
def symbolCode : Symbol → BitVec 2
  | .empty => 0b00
  | .dit => 0b01
  | .dah => 0b10
  | .brk => 0b11

/-- `sym_word` (R74): slot `i` in bits `2i+1` to `2i`. -/
def packWord (b : Vector Symbol 6) : SymWord :=
  symbolCode b[5] ++ symbolCode b[4] ++ symbolCode b[3] ++ symbolCode b[2] ++ symbolCode b[1] ++ symbolCode b[0]

/-- A FIFO entry `{shift, char}` (R52). -/
def eventOf (shift : Bool) (c : Char8) : Event := BitVec.ofBool shift ++ c

/-- `entry[8]`: the shift bit (R52). -/
def eventShift (e : Event) : Bool := e.getLsbD 8

/-- `entry[7:0]`: the character (R52). -/
def eventChar (e : Event) : Char8 := e.setWidth 8

/-- `FifoRead(i)` (R172): every 5-bit index names an entry (R54). -/
def fifoRead (m : Vector Event 32) (i : BitVec 5) : Event := m[i.toNat]'(i.isLt)

/-- `FifoWrite(i, v)` (R171). -/
def fifoWrite (m : Vector Event 32) (i : BitVec 5) (e : Event) : Vector Event 32 := m.set i.toNat e i.isLt

/-- The entry at the head of the FIFO (R172, R182). -/
def fifoHead (s : State) : Event := fifoRead s.fifoMem s.fifoRd

/-- `shift_bit` (R170): the shift line of this cycle, 0 when it is unavailable. -/
def shiftBit (s : State) : Bool := s.pins.shiftIn && s.pins.shiftValid

/-- `kv` of format `DRN` (R77): the head's character is valid; 0 when the FIFO is empty, where it is not defined (D28). -/
def headValid (s : State) : Bool :=
  !fifoEmpty s && (keymapEntry s.cfg.keymap (eventChar (fifoHead s))).valid

/-- `SHIFT_MOD` or 0x00 (R189). -/
def pressModifier (s : State) (e : Event) : BitVec 8 := if eventShift e then s.cfg.shiftMod else 0x00

/-- `seed` (R22). -/
def resetSeed (s : State) : Bool := s.pins.keyIn && s.pins.keyValid

/-- The selector word of each format (R77): its condition bits, bit 0 first. -/
def selectorWord (f : Format) (s : State) : Word :=
  match f with
  | .rst => wordOfBits [s.pins.rst]
  | .deb => wordOfBits [acc s, s.pins.keyValid, srOnes s, srZeros s]
  | .dec => wordOfBits [s.wires.level, s.decPrev, shortMark s, longGap s, hasMarks s, acc s]
  | .sym => wordOfBits [bufFull s]
  | .res => wordOfBits [wordHit s]
  | .kmap => wordOfBits [lookupValid s]
  | .prod => wordOfBits [s.pins.sampleTick, s.pendValid, fifoFull s, charDone s]
  | .drn => wordOfBits [busy s, s.pins.drainTick, fifoEmpty s, holdZero s, s.pins.msTick, headValid s]
  | .fifo => wordOfBits [pushing s, popping s]
  | .tb => wordOfBits [s.pins.msTick]

/-- Whether the format selects a row at all in this cycle (R79): with `rst` = 1 only format `RST` does; `SYM` does when
a symbol is pushed, `RES` when a `BREAK` was pushed, `KMAP` when a character is looked up, the others always. -/
def offered (f : Format) (s : State) : Bool :=
  match f with
  | .rst => true
  | .sym => !s.pins.rst && s.wires.symIn.isSome
  | .res => !s.pins.rst && s.wires.resIn.isSome
  | .kmap => !s.pins.rst && s.wires.lookup.isSome
  | .deb => !s.pins.rst
  | .dec => !s.pins.rst
  | .prod => !s.pins.rst
  | .drn => !s.pins.rst
  | .fifo => !s.pins.rst
  | .tb => !s.pins.rst

/-- The operation's row is the one this cycle selects for its format (R77, R79). -/
def selected (i : Instr) (s : State) : Bool :=
  offered (formatOf i) s && decode (formatOf i) (selectorWord (formatOf i) s) == .op i

end Sys2Proof.Machine
end

