-- ==== Sys2Proof/Machine/Ops.lean ====
section
/-! DEFINITION. The named operations the meanings are built from: one register write, output drive or combinational
hand-over of the rules' pseudocode each, then the shared forms over them. The block takes no exception (spec/60_exceptions.md
R237): its two error conditions are same-cycle status strobes, raised by `signal`, the one shared operation for them. -/

namespace Sys2Proof.Machine

/-- A status of R230. -/
inductive Status where
  /-- A break resolved to no table entry (R231). -/
  | noMatch
  /-- A popped event's character has no scan code (R232). -/
  | unsupported
  deriving DecidableEq, Repr

/-- The status code of R230; no register holds one. -/
def statusCode : Status → Nat
  | .noMatch => 1
  | .unsupported => 2

/-- `signal <Status>` (spec/00_scope.md section 5): assert the status strobe this cycle and nothing else (R231, R232). -/
def signal (st : Status) (s : State) : State :=
  match st with
  | .noMatch => { s with out := { s.out with noMatch := true } }
  | .unsupported => { s with out := { s.out with unsup := true } }

/-- `emit(code, mod)` (spec/00_scope.md section 5): a report this cycle (R71). -/
def emitReport (code modifier : BitVec 8) (s : State) : State :=
  { s with out := { s.out with repValid := true, repCode := code, repMod := modifier } }

/-- `deb_sr <- sr_n` (R101 to R103). -/
def takeSample (s : State) : State := { s with debSr := srNext s }

/-- `settled <- b` (R102, R103). -/
def settle (b : Bool) (s : State) : State := { s with settled := b }

/-- Pass the level `b` to the decoder (R106). -/
def passLevel (b : Bool) (s : State) : State := { s with wires := { s.wires with level := b } }

/-- Offer a symbol to `push_sym` (R121, R122). -/
def offerSymbol (x : Symbol) (s : State) : State := { s with wires := { s.wires with symIn := some x } }

/-- `return (buf', idx')` of `push_sym` (R121, R122): local values of the cycle, no register. -/
def yieldSyms (b : Vector Symbol 6) (i : BitVec 3) (s : State) : State :=
  { s with wires := { s.wires with bufNext := b, idxNext := i } }

/-- `sym_buf <- b1`, `sym_idx <- i1`: write what `push_sym` yielded (R125, R126). -/
def writeSyms (s : State) : State := { s with symBuf := s.wires.bufNext, symIdx := s.wires.idxNext }

/-- Clear the symbol buffer (R123). -/
def clearSyms (s : State) : State := { s with symBuf := emptyBuf, symIdx := 0 }

/-- Offer the packed buffer word to the resolution (R123). -/
def offerWord (w : SymWord) (s : State) : State := { s with wires := { s.wires with resIn := some w } }

/-- `done <- 1`, `char <- c`, and the completion output of R136. -/
def completeChar (c : Char8) (s : State) : State :=
  { s with wires := { s.wires with done := some c }, out := { s.out with charValid := true, char := c } }

/-- `done <- 0` (R135). -/
def completeNone (s : State) : State := { s with wires := { s.wires with done := none } }

/-- `t_last <- now` (R125 to R129): `now` is the start-of-cycle `ms_count`, which only the timebase writes (R120). -/
def markEdge (s : State) : State := { s with tLast := s.msCount }

/-- `dec_prev <- b` (R124). -/
def seeLevel (b : Bool) (s : State) : State := { s with decPrev := b }

/-- Request a push of `e` this cycle (R174, R177). -/
def requestPush (e : Event) (s : State) : State := { s with wires := { s.wires with push := some e } }

/-- `pend_ev <- e`, `pend_valid <- 1` (R175). -/
def holdEvent (e : Event) (s : State) : State := { s with pendEv := e, pendValid := true }

/-- `pend_valid <- 0` (R177); `pend_ev` keeps its value. -/
def resumeProducer (s : State) : State := { s with pendValid := false }

/-- Request a pop of the head this cycle (R182, R183). -/
def requestPop (s : State) : State := { s with wires := { s.wires with pop := some (fifoHead s) } }

/-- Offer a character to the key map (R161, R162). -/
def offerChar (c : Char8) (s : State) : State := { s with wires := { s.wires with lookup := some c } }

/-- What `to_scan_code` returns (R161, R162): a local value of the cycle. -/
def yieldCode (o : Option (BitVec 8)) (s : State) : State := { s with wires := { s.wires with code := o } }

/-- `hold_cnt <- HOLD_MS`, `dstate <- HOLD` (R182). -/
def startHold (s : State) : State := { s with holdCnt := s.cfg.holdMs, dstate := .hold }

/-- `hold_cnt <- hold_cnt - 1` (R184). -/
def countHold (s : State) : State := { s with holdCnt := s.holdCnt - 1 }

/-- `dstate <- IDLE` (R186). -/
def endHold (s : State) : State := { s with dstate := .idle }

/-- `FifoWrite(fifo_wr, e)`, `fifo_wr <- fifo_wr +_5 1` (R171). -/
def storeTail (e : Event) (s : State) : State :=
  { s with fifoMem := fifoWrite s.fifoMem s.fifoWr e, fifoWr := s.fifoWr + 1 }

/-- `let head = FifoRead(fifo_rd)`, `fifo_rd <- fifo_rd +_5 1` (R172); the entry's storage keeps its value. -/
def dropHead (s : State) : State := { s with fifoRd := s.fifoRd + 1 }

/-- `fifo_cnt <- fifo_cnt + push - pop` (R173). -/
def adjustCount (push pop : Bool) (s : State) : State :=
  { s with fifoCnt := s.fifoCnt + BitVec.setWidth 6 (BitVec.ofBool push) - BitVec.setWidth 6 (BitVec.ofBool pop) }

/-- `ms_count <- ms_count +_32 1` (R190). -/
def countMs (s : State) : State := { s with msCount := s.msCount + 1 }

/-- The start of a cycle: no combinational request, every strobe and field 0, and the level outputs at the
start-of-cycle values (R210, R212). -/
def beginCycle (s : State) : State :=
  { s with wires := Wires.clear, out := Outputs.quiet s.settled s.fifoCnt (stalled s) (busy s) }

/-- The register writes of `CYC_RESET` (R260): `fifo_mem` is not written. -/
def resetRegisters (seed : Bool) (s : State) : State :=
  { s with
    debSr := if seed then 0xFFFF else 0x0000
    settled := seed
    decPrev := seed
    tLast := 0
    symBuf := emptyBuf
    symIdx := 0
    fifoRd := 0
    fifoWr := 0
    fifoCnt := 0
    pendValid := false
    pendEv := 0
    dstate := .idle
    holdCnt := 0
    msCount := 0 }

/-- `SYM_APPEND`'s buffer and index (R121): the symbol goes into slot `idx`. -/
def appendSym (b : Vector Symbol 6) (i : BitVec 3) (x : Symbol) : Vector Symbol 6 × BitVec 3 :=
  (b.setIfInBounds i.toNat x, i + 1)

/-- `SYM_EVICT`'s buffer and index (R122): shift left by one slot, the oldest symbol is lost. -/
def evictSym (b : Vector Symbol 6) (x : Symbol) : Vector Symbol 6 × BitVec 3 :=
  (#v[b[1], b[2], b[3], b[4], b[5], x], 6)

/-- Run `k` after an answer that goes on. -/
def andThen (a : Answer) (k : State → Answer) : Answer :=
  match a with
  | .next s => k s
  | .fault f => .fault f
  | .refused r => .refused r

/-- Perform operation `i`: only on a block with a legal configuration (R5, R6), and only in a cycle that selects its
row (R77, R79; notes/assumptions/8.md). -/
def perform (i : Instr) (s : State) (k : State → Answer) : Answer :=
  if s.cfg.legal then
    if selected i s then k s else .refused (.notSelected i)
  else .refused .illegalConfig

/-- Go on where a rule's precondition on the state holds; a state that breaks it is outside the domain (R80, D31). -/
def require (ok : Bool) (s : State) (k : State → Answer) : Answer :=
  if ok then k s else .fault .outsideDomain

end Sys2Proof.Machine
end

