-- ==== Sys2Proof/Machine/Accumulator.lean ====
section
/-! DEFINITION. The symbol accumulator and the resolution (spec/41_decoder.md sections 2 and 4): formats `SYM` and
`RES`, and the break procedure of R123 over them. -/

namespace Sys2Proof.Machine

/-- `SYM_APPEND` (R121): push the offered symbol into a buffer with a free slot. The result is a local value of the
cycle; the decoder operation writes it. An index of 7 is outside the domain (R28, R80). -/
def execSymAppend (s : State) : Answer :=
  perform .symAppend s fun s =>
    match s.wires.symIn with
    | some x => require (decide (s.symIdx < 6)) s fun s =>
        .next (yieldSyms (appendSym s.symBuf s.symIdx x).1 (appendSym s.symBuf s.symIdx x).2 s)
    | none => .refused (.notSelected .symAppend)

/-- `SYM_EVICT` (R122): push the offered symbol into a full buffer; the oldest symbol is lost. -/
def execSymEvict (s : State) : Answer :=
  perform .symEvict s fun s =>
    match s.wires.symIn with
    | some x => .next (yieldSyms (evictSym s.symBuf x).1 (evictSym s.symBuf x).2 s)
    | none => .refused (.notSelected .symEvict)

/-- `push_sym(sym)`: offer the symbol and perform the row format `SYM` selects (R79, R121, R122). -/
def pushSym (x : Symbol) (s : State) : Answer :=
  let s1 := offerSymbol x s
  match decode .sym (selectorWord .sym s1) with
  | .op .symAppend => execSymAppend s1
  | .op .symEvict => execSymEvict s1
  | _ => .refused (.undecodable .sym)

/-- `RES_MATCH` (R134): the offered word equals a table entry; its character completes (R136). -/
def execResMatch (s : State) : Answer :=
  perform .resMatch s fun s =>
    match s.wires.resIn.bind resolveWord with
    | some c => .next (completeChar c s)
    | none => .refused (.notSelected .resMatch)

/-- `RES_NOMATCH` (R135): the offered word equals no entry; status `NOMATCH` (R231). -/
def execResNomatch (s : State) : Answer :=
  perform .resNomatch s fun s => .next (signal .noMatch (completeNone s))

/-- Resolve a buffer word: offer it and perform the row format `RES` selects (R79, R123). -/
def resolveBuffer (w : SymWord) (s : State) : Answer :=
  let s1 := offerWord w s
  match decode .res (selectorWord .res s1) with
  | .op .resMatch => execResMatch s1
  | .op .resNomatch => execResNomatch s1
  | _ => .refused (.undecodable .res)

/-- `do_break()` (R123): push a `BREAK`, resolve the word the push yields, clear the buffer whatever the result. -/
def doBreak (s : State) : Answer :=
  andThen (pushSym .brk s) fun s1 =>
    andThen (resolveBuffer (packWord s1.wires.bufNext) s1) fun s2 => .next (clearSyms s2)

/-- Record a mark's symbol: push it and write the result to the registers (R125, R126). -/
def recordMark (x : Symbol) (s : State) : Answer :=
  andThen (pushSym x s) fun s1 => .next (writeSyms s1)

end Sys2Proof.Machine
end

