-- ==== Sys2Proof/Machine/Comparator.lean ====
section
/-! DEFINITION. The timing comparator (spec/41_decoder.md section 3): the ten operations of format `DEC`. Every one but
`DEC_OFF` writes `dec_prev` with the level it saw (R124). -/

namespace Sys2Proof.Machine

/-- `DEC_OFF` (R124): no accepted tick; nothing is written. -/
def execDecOff (s : State) : Answer :=
  perform .decOff s fun s => .next s

/-- `DEC_MARK_HOLD` (R133): a mark is in progress. -/
def execDecMarkHold (s : State) : Answer :=
  perform .decMarkHold s fun s => .next (seeLevel true s)

/-- `DEC_MARK_END_DIT` (R125): a mark of at most `DIT_MAX_UNITS` units ends; record a Dit. -/
def execDecMarkEndDit (s : State) : Answer :=
  perform .decMarkEndDit s fun s =>
    andThen (recordMark .dit s) fun s1 => .next (seeLevel false (markEdge s1))

/-- `DEC_MARK_END_DAH` (R126): a longer mark ends; record a Dah. -/
def execDecMarkEndDah (s : State) : Answer :=
  perform .decMarkEndDah s fun s =>
    andThen (recordMark .dah s) fun s1 => .next (seeLevel false (markEdge s1))

/-- `DEC_BEGIN_GAP` (R127): a mark begins after a gap inside a character. -/
def execDecBeginGap (s : State) : Answer :=
  perform .decBeginGap s fun s => .next (seeLevel true (markEdge s))

/-- `DEC_BEGIN_BREAK` (R128): a mark begins after a break with marks in the buffer; the character ends first. -/
def execDecBeginBreak (s : State) : Answer :=
  perform .decBeginBreak s fun s =>
    andThen (doBreak s) fun s1 => .next (seeLevel true (markEdge s1))

/-- `DEC_BEGIN_BREAK_EMPTY` (R129): a mark begins after a break with an empty buffer. -/
def execDecBeginBreakEmpty (s : State) : Answer :=
  perform .decBeginBreakEmpty s fun s => .next (seeLevel true (markEdge s))

/-- `DEC_IDLE_BREAK` (R130): the sustained-idle break; `t_last` is not written. -/
def execDecIdleBreak (s : State) : Answer :=
  perform .decIdleBreak s fun s =>
    andThen (doBreak s) fun s1 => .next (seeLevel false s1)

/-- `DEC_IDLE_WAIT` (R131): idle, and the silence is still short. -/
def execDecIdleWait (s : State) : Answer :=
  perform .decIdleWait s fun s => .next (seeLevel false s)

/-- `DEC_IDLE_EMPTY` (R132): idle past the break length with an empty buffer. -/
def execDecIdleEmpty (s : State) : Answer :=
  perform .decIdleEmpty s fun s => .next (seeLevel false s)

/-- The comparator's operation of this cycle: the row its selector word selects (R79, R124). -/
def decUnit (s : State) : Answer :=
  match decode .dec (selectorWord .dec s) with
  | .op .decOff => execDecOff s
  | .op .decMarkHold => execDecMarkHold s
  | .op .decMarkEndDit => execDecMarkEndDit s
  | .op .decMarkEndDah => execDecMarkEndDah s
  | .op .decBeginGap => execDecBeginGap s
  | .op .decBeginBreak => execDecBeginBreak s
  | .op .decBeginBreakEmpty => execDecBeginBreakEmpty s
  | .op .decIdleBreak => execDecIdleBreak s
  | .op .decIdleWait => execDecIdleWait s
  | .op .decIdleEmpty => execDecIdleEmpty s
  | _ => .refused (.undecodable .dec)

end Sys2Proof.Machine
end

