-- ==== Sys2Proof/Machine/Debounce.lean ====
section
/-! DEFINITION. The debounce shift-register filter (spec/40_debounce.md): the five operations of format `DEB`, each
with the level it passes to the decoder (R106). -/

namespace Sys2Proof.Machine

/-- `DEB_FROZEN` (R105): no accepted tick; nothing is written. -/
def execDebFrozen (s : State) : Answer :=
  perform .debFrozen s fun s => .next (passLevel s.settled s)

/-- `DEB_UNAVAIL` (R104): the keying line is unavailable; the filter holds and `key_in` is ignored. -/
def execDebUnavail (s : State) : Answer :=
  perform .debUnavail s fun s => .next (passLevel s.settled s)

/-- `DEB_SET1` (R102): the register becomes all ones, the settled level active. -/
def execDebSet1 (s : State) : Answer :=
  perform .debSet1 s fun s => .next (passLevel true (settle true (takeSample s)))

/-- `DEB_SET0` (R103): the register becomes all zeros, the settled level idle. -/
def execDebSet0 (s : State) : Answer :=
  perform .debSet0 s fun s => .next (passLevel false (settle false (takeSample s)))

/-- `DEB_KEEP` (R101): the register is mixed; the settled level holds. -/
def execDebKeep (s : State) : Answer :=
  perform .debKeep s fun s => .next (passLevel s.settled (takeSample s))

/-- The filter's operation of this cycle: the row its selector word selects (R79, R100). -/
def debUnit (s : State) : Answer :=
  match decode .deb (selectorWord .deb s) with
  | .op .debFrozen => execDebFrozen s
  | .op .debUnavail => execDebUnavail s
  | .op .debSet1 => execDebSet1 s
  | .op .debSet0 => execDebSet0 s
  | .op .debKeep => execDebKeep s
  | _ => .refused (.undecodable .deb)

end Sys2Proof.Machine
end

