-- ==== Sys2Proof/Machine/Domain.lean ====
section
/-! DEFINITION. The invariants of reachable states, spec/10_state.md R33, as one decidable proposition: the block's
domain. `CYC_RUN` gives a state outside it no meaning (R80, R263, D31). -/

namespace Sys2Proof.Machine

/-- R33 (a) and (b): at most six slots are filled, the filled ones hold marks and the others are `EMPTY`. -/
abbrev BufferOk (b : Vector Symbol 6) (i : BitVec 3) : Prop :=
  i.toNat ≤ 6 ∧ ∀ k : Fin 6, if k.val < i.toNat then b[k.val] = .dit ∨ b[k.val] = .dah else b[k.val] = .empty

/-- R33 (c) and (d): the decoder's level is the settled one, and a unanimous register agrees with it. -/
abbrev LevelsOk (sr : BitVec 16) (settled prev : Bool) : Prop :=
  prev = settled ∧ (sr = 0xFFFF → settled = true) ∧ (sr = 0x0000 → settled = false)

/-- R33 (e): the FIFO's count and pointers agree. -/
abbrev FifoOk (rd wr : BitVec 5) (cnt : BitVec 6) : Prop :=
  cnt.toNat ≤ 32 ∧ wr = rd + cnt.setWidth 5

/-- R33 (f) and (g): the hold counter is 0 in `IDLE` and at most `HOLD_MS` in `HOLD`. -/
abbrev HoldOk (d : DrainState) (hold max : BitVec 16) : Prop :=
  (d = .idle → hold = 0) ∧ (d = .hold → hold ≤ max)

/-- R33: the invariants of every state reachable from reset. -/
abbrev InDomain (s : State) : Prop :=
  BufferOk s.symBuf s.symIdx ∧ LevelsOk s.debSr s.settled s.decPrev ∧ FifoOk s.fifoRd s.fifoWr s.fifoCnt
    ∧ HoldOk s.dstate s.holdCnt s.cfg.holdMs

/-- R33 as a check. -/
def inDomain (s : State) : Bool := decide (InDomain s)

end Sys2Proof.Machine
end

