-- ==== Sys2Proof/Machine/Keymap.lean ====
section
/-! DEFINITION. The character-to-scancode lookup (spec/42_keymap.md): the two operations of format `KMAP`. -/

namespace Sys2Proof.Machine

/-- `KMAP_HIT` (R161): the looked-up character has a scan code. -/
def execKmapHit (s : State) : Answer :=
  perform .kmapHit s fun s =>
    match s.wires.lookup with
    | some c => .next (yieldCode (some (keymapEntry s.cfg.keymap c).code) s)
    | none => .refused (.notSelected .kmapHit)

/-- `KMAP_MISS` (R162): the looked-up character has no scan code; the caller raises `UNSUPPORTED`. -/
def execKmapMiss (s : State) : Answer :=
  perform .kmapMiss s fun s => .next (yieldCode none s)

/-- `to_scan_code(c)`: offer the character and perform the row format `KMAP` selects (R79). -/
def lookUp (c : Char8) (s : State) : Answer :=
  let s1 := offerChar c s
  match decode .kmap (selectorWord .kmap s1) with
  | .op .kmapHit => execKmapHit s1
  | .op .kmapMiss => execKmapMiss s1
  | _ => .refused (.undecodable .kmap)

end Sys2Proof.Machine
end

