-- ==== Sys2Proof/Machine/Drain.lean ====
section
/-! DEFINITION. The drain FSM with its hold counter (spec/43_pipeline.md section 4): the seven operations of format
`DRN`. A pop is requested here and made by the FIFO unit in the same cycle (R172, R210). -/

namespace Sys2Proof.Machine

/-- `DRN_IDLE_WAIT` (R181): idle and no drain tick. -/
def execDrnIdleWait (s : State) : Answer :=
  perform .drnIdleWait s fun s => .next s

/-- `DRN_IDLE_EMPTY` (R187): idle, a drain tick, and an empty FIFO. -/
def execDrnIdleEmpty (s : State) : Answer :=
  perform .drnIdleEmpty s fun s => .next s

/-- `DRN_POP_PRESS` (R182): pop the head, emit its press report (R189) and start the hold. -/
def execDrnPopPress (s : State) : Answer :=
  perform .drnPopPress s fun s =>
    andThen (lookUp (eventChar (fifoHead s)) (requestPop s)) fun s1 =>
      match s1.wires.code with
      | some code => .next (startHold (emitReport code (pressModifier s (fifoHead s)) s1))
      | none => .refused (.notSelected .drnPopPress)

/-- `DRN_POP_SKIP` (R183): pop the head, which has no scan code, and drop it with status `UNSUPPORTED` (R232). -/
def execDrnPopSkip (s : State) : Answer :=
  perform .drnPopSkip s fun s =>
    andThen (lookUp (eventChar (fifoHead s)) (requestPop s)) fun s1 => .next (signal .unsupported s1)

/-- `DRN_HOLD_COUNT` (R184): a millisecond of the hold passes. -/
def execDrnHoldCount (s : State) : Answer :=
  perform .drnHoldCount s fun s => .next (countHold s)

/-- `DRN_HOLD_WAIT` (R185): holding, and no millisecond passes. -/
def execDrnHoldWait (s : State) : Answer :=
  perform .drnHoldWait s fun s => .next s

/-- `DRN_RELEASE` (R186): the hold is over; emit the release report. -/
def execDrnRelease (s : State) : Answer :=
  perform .drnRelease s fun s => .next (endHold (emitReport 0x00 0x00 s))

/-- The drain FSM's operation of this cycle: the row its selector word selects (R79). -/
def drnUnit (s : State) : Answer :=
  match decode .drn (selectorWord .drn s) with
  | .op .drnIdleWait => execDrnIdleWait s
  | .op .drnIdleEmpty => execDrnIdleEmpty s
  | .op .drnPopPress => execDrnPopPress s
  | .op .drnPopSkip => execDrnPopSkip s
  | .op .drnHoldCount => execDrnHoldCount s
  | .op .drnHoldWait => execDrnHoldWait s
  | .op .drnRelease => execDrnRelease s
  | _ => .refused (.undecodable .drn)

end Sys2Proof.Machine
end

