-- ==== Sys2Proof/Machine/Fifo.lean ====
section
/-! DEFINITION. The event FIFO and the millisecond timebase (spec/43_pipeline.md sections 2 and 5): formats `FIFO` and
`TB`. A push or pop whose precondition on `fifo_cnt` fails is outside the domain (R171, R172, R80). -/

namespace Sys2Proof.Machine

/-- `FIFO_NONE` (R173): neither push nor pop; nothing changes. -/
def execFifoNone (s : State) : Answer :=
  perform .fifoNone s fun s => .next (adjustCount false false s)

/-- `FIFO_PUSH` (R171, R173): write the requested event at the tail. -/
def execFifoPush (s : State) : Answer :=
  perform .fifoPush s fun s =>
    match s.wires.push with
    | some e => require (decide (s.fifoCnt < 32)) s fun s => .next (adjustCount true false (storeTail e s))
    | none => .refused (.notSelected .fifoPush)

/-- `FIFO_POP` (R172, R173): remove the head. -/
def execFifoPop (s : State) : Answer :=
  perform .fifoPop s fun s =>
    require (decide (0 < s.fifoCnt)) s fun s => .next (adjustCount false true (dropHead s))

/-- `FIFO_PUSH_POP` (R173): both in one cycle, on different entries; the count is unchanged. -/
def execFifoPushPop (s : State) : Answer :=
  perform .fifoPushPop s fun s =>
    match s.wires.push with
    | some e => require (decide (0 < s.fifoCnt) && decide (s.fifoCnt < 32)) s fun s =>
        .next (adjustCount true true (dropHead (storeTail e s)))
    | none => .refused (.notSelected .fifoPushPop)

/-- The FIFO's operation of this cycle: the row its selector word selects (R79). -/
def fifoUnit (s : State) : Answer :=
  match decode .fifo (selectorWord .fifo s) with
  | .op .fifoNone => execFifoNone s
  | .op .fifoPush => execFifoPush s
  | .op .fifoPop => execFifoPop s
  | .op .fifoPushPop => execFifoPushPop s
  | _ => .refused (.undecodable .fifo)

/-- `TB_COUNT` (R190): a millisecond tick advances the timestamp. -/
def execTbCount (s : State) : Answer :=
  perform .tbCount s fun s => .next (countMs s)

/-- `TB_IDLE` (R191): no millisecond tick; the timestamp holds. -/
def execTbIdle (s : State) : Answer :=
  perform .tbIdle s fun s => .next s

/-- The timebase's operation of this cycle: the row its selector word selects (R79). -/
def tbUnit (s : State) : Answer :=
  match decode .tb (selectorWord .tb s) with
  | .op .tbCount => execTbCount s
  | .op .tbIdle => execTbIdle s
  | _ => .refused (.undecodable .tb)

end Sys2Proof.Machine
end

