-- ==== Sys2Proof/Machine/Producer.lean ====
section
/-! DEFINITION. The producer side of the event pipeline (spec/43_pipeline.md section 3): the six operations of format
`PROD`. A push is requested here and made by the FIFO unit in the same cycle (R171, R210). -/

namespace Sys2Proof.Machine

/-- `PROD_IDLE` (R179): no sample tick and nothing held. -/
def execProdIdle (s : State) : Answer :=
  perform .prodIdle s fun s => .next s

/-- `PROD_TICK_NOEV` (R180): an accepted tick that completes no character. -/
def execProdTickNoev (s : State) : Answer :=
  perform .prodTickNoev s fun s => .next s

/-- `PROD_ENQ` (R174): a completion with room in the FIFO; push the event of R170. -/
def execProdEnq (s : State) : Answer :=
  perform .prodEnq s fun s =>
    match s.wires.done with
    | some c => .next (requestPush (eventOf (shiftBit s) c) s)
    | none => .refused (.notSelected .prodEnq)

/-- `PROD_STALL` (R175): a completion with the FIFO full; hold the event and suspend the producer. -/
def execProdStall (s : State) : Answer :=
  perform .prodStall s fun s =>
    match s.wires.done with
    | some c => .next (holdEvent (eventOf (shiftBit s) c) s)
    | none => .refused (.notSelected .prodStall)

/-- `PROD_PEND_PUSH` (R177): stalled with room in the FIFO; push the held event and resume. -/
def execProdPendPush (s : State) : Answer :=
  perform .prodPendPush s fun s => .next (resumeProducer (requestPush s.pendEv s))

/-- `PROD_PEND_WAIT` (R178): stalled with the FIFO still full. -/
def execProdPendWait (s : State) : Answer :=
  perform .prodPendWait s fun s => .next s

/-- The producer's operation of this cycle: the row its selector word selects (R79). -/
def prodUnit (s : State) : Answer :=
  match decode .prod (selectorWord .prod s) with
  | .op .prodIdle => execProdIdle s
  | .op .prodTickNoev => execProdTickNoev s
  | .op .prodEnq => execProdEnq s
  | .op .prodStall => execProdStall s
  | .op .prodPendPush => execProdPendPush s
  | .op .prodPendWait => execProdPendWait s
  | _ => .refused (.undecodable .prod)

end Sys2Proof.Machine
end

