-- ==== Sys2Proof/Machine/Cycle.lean ====
section
/-! DEFINITION. The cycle: format `RST` (spec/44_cycle.md R210, spec/70_reset_and_hazards.md R260). `CYC_RUN` performs
the row each unit's selector word selects, in the order DEB, DEC, PROD, DRN, FIFO, TB. Each unit reads only registers no
earlier unit of that order writes, so every read is of a start-of-cycle value (R211; notes/assumptions/9.md). -/

namespace Sys2Proof.Machine

/-- The units of one cycle, each performing the operation its selector word selects (R79, R210). -/
def runUnits (s : State) : Answer :=
  andThen (debUnit s) fun s1 =>
    andThen (decUnit s1) fun s2 =>
      andThen (prodUnit s2) fun s3 =>
        andThen (drnUnit s3) fun s4 =>
          andThen (fifoUnit s4) fun s5 => tbUnit s5

/-- `CYC_RUN` (R210): the step of a cycle with `rst` = 0; a state outside the domain gets no meaning (D31). -/
def execCycRun (s : State) : Answer :=
  perform .cycRun s fun s => require (inDomain s) s fun s => runUnits (beginCycle s)

/-- `CYC_RESET` (R260): every register but `fifo_mem` takes its reset value, from any state; no output (R212). -/
def execCycReset (s : State) : Answer :=
  perform .cycReset s fun s => .next (resetRegisters (resetSeed s) (beginCycle s))

end Sys2Proof.Machine
end

