-- ==== Sys2Proof/Machine/Dispatch.lean ====
section
/-! DEFINITION. The one place an operation meets its meaning: one arm per row of spec/opcode_table.json. -/

namespace Sys2Proof.Machine

/-- What the block does in performing operation `i` in state `s`. -/
def exec (i : Instr) (s : State) : Host.Outcome State Fault Refusal :=
  match i with
  | .cycReset => Sys2Proof.Machine.execCycReset s
  | .cycRun => Sys2Proof.Machine.execCycRun s
  | .debFrozen => Sys2Proof.Machine.execDebFrozen s
  | .debUnavail => Sys2Proof.Machine.execDebUnavail s
  | .debSet1 => Sys2Proof.Machine.execDebSet1 s
  | .debSet0 => Sys2Proof.Machine.execDebSet0 s
  | .debKeep => Sys2Proof.Machine.execDebKeep s
  | .decOff => Sys2Proof.Machine.execDecOff s
  | .decMarkHold => Sys2Proof.Machine.execDecMarkHold s
  | .decMarkEndDit => Sys2Proof.Machine.execDecMarkEndDit s
  | .decMarkEndDah => Sys2Proof.Machine.execDecMarkEndDah s
  | .decBeginGap => Sys2Proof.Machine.execDecBeginGap s
  | .decBeginBreak => Sys2Proof.Machine.execDecBeginBreak s
  | .decBeginBreakEmpty => Sys2Proof.Machine.execDecBeginBreakEmpty s
  | .decIdleBreak => Sys2Proof.Machine.execDecIdleBreak s
  | .decIdleWait => Sys2Proof.Machine.execDecIdleWait s
  | .decIdleEmpty => Sys2Proof.Machine.execDecIdleEmpty s
  | .symAppend => Sys2Proof.Machine.execSymAppend s
  | .symEvict => Sys2Proof.Machine.execSymEvict s
  | .resMatch => Sys2Proof.Machine.execResMatch s
  | .resNomatch => Sys2Proof.Machine.execResNomatch s
  | .kmapHit => Sys2Proof.Machine.execKmapHit s
  | .kmapMiss => Sys2Proof.Machine.execKmapMiss s
  | .prodIdle => Sys2Proof.Machine.execProdIdle s
  | .prodTickNoev => Sys2Proof.Machine.execProdTickNoev s
  | .prodEnq => Sys2Proof.Machine.execProdEnq s
  | .prodStall => Sys2Proof.Machine.execProdStall s
  | .prodPendPush => Sys2Proof.Machine.execProdPendPush s
  | .prodPendWait => Sys2Proof.Machine.execProdPendWait s
  | .drnIdleWait => Sys2Proof.Machine.execDrnIdleWait s
  | .drnIdleEmpty => Sys2Proof.Machine.execDrnIdleEmpty s
  | .drnPopPress => Sys2Proof.Machine.execDrnPopPress s
  | .drnPopSkip => Sys2Proof.Machine.execDrnPopSkip s
  | .drnHoldCount => Sys2Proof.Machine.execDrnHoldCount s
  | .drnHoldWait => Sys2Proof.Machine.execDrnHoldWait s
  | .drnRelease => Sys2Proof.Machine.execDrnRelease s
  | .fifoNone => Sys2Proof.Machine.execFifoNone s
  | .fifoPush => Sys2Proof.Machine.execFifoPush s
  | .fifoPop => Sys2Proof.Machine.execFifoPop s
  | .fifoPushPop => Sys2Proof.Machine.execFifoPushPop s
  | .tbCount => Sys2Proof.Machine.execTbCount s
  | .tbIdle => Sys2Proof.Machine.execTbIdle s

end Sys2Proof.Machine
end

