-- ==== Sys2Proof/Machine/Fetch.lean ====
section
/-! DEFINITION. Where a cycle's inputs come from, and how a state is prepared so that the next cycle performs a given
operation. The block fetches nothing (spec/20_memory.md R54, R56): each cycle it samples its input ports (R70), which the
host drives (spec/60_exceptions.md R247). -/

namespace Sys2Proof.Machine

/-- Sample the input ports of the next cycle (R8, R70): the host's next lined-up byte `iv` (R83), or, where it has
lined up none, the free value `Config.hostInput` of this cycle's number (notes/assumptions/1.md). -/
def latchInputs (s : State) : State :=
  match s.stim with
  | iv :: rest => { s with pins := inputsOfByte iv, stim := rest, cycle := s.cycle + 1 }
  | [] => { s with pins := inputsOfByte (Config.hostInput s.cycle), cycle := s.cycle + 1 }

/-- Line up the input byte of the next cycle. -/
def drive (iv : Word) (s : State) : State := { s with stim := iv :: s.stim }

/-- A filter register, with the settled level and the decoder's level `b`. -/
def withLevels (sr : BitVec 16) (b : Bool) (s : State) : State :=
  { s with debSr := sr, settled := b, decPrev := b }

/-- A symbol buffer and its index. -/
def withBuffer (b : Vector Symbol 6) (i : BitVec 3) (s : State) : State := { s with symBuf := b, symIdx := i }

/-- The last edge `n` milliseconds ago, modulo 2^32. -/
def edgeAgo (n : Millis) (s : State) : State := { s with tLast := s.msCount - n }

/-- The FIFO holding the first `n` entries of its storage. -/
def withQueue (n : BitVec 6) (s : State) : State :=
  { s with fifoRd := 0, fifoWr := n.setWidth 5, fifoCnt := n }

/-- The FIFO holding the one event `e`. -/
def withOnly (e : Event) (s : State) : State :=
  withQueue 1 { s with fifoMem := fifoWrite s.fifoMem 0 e }

/-- The drain FSM in `IDLE`. -/
def drainIdle (s : State) : State := { s with dstate := .idle, holdCnt := 0 }

/-- The drain FSM in `HOLD` with `n` strobes left. -/
def drainHold (n : BitVec 16) (s : State) : State := { s with dstate := .hold, holdCnt := n }

/-- A suspended producer that holds the event `e`. -/
def suspended (e : Event) (s : State) : State := { s with pendValid := true, pendEv := e }

/-- One Dit in the buffer: the pattern of `e`. -/
abbrev bufE : Vector Symbol 6 := #v[.dit, .empty, .empty, .empty, .empty, .empty]

/-- Two Dits and two Dahs: no entry of the table (R135). -/
abbrev bufNone : Vector Symbol 6 := #v[.dit, .dit, .dah, .dah, .empty, .empty]

/-- Six Dits: a full buffer. -/
abbrev bufFullDits : Vector Symbol 6 := #v[.dit, .dit, .dit, .dit, .dit, .dit]

/-- An idle line long past a break, with the given buffer, on an accepted tick. -/
def idleBreakWith (b : Vector Symbol 6) (i : BitVec 3) (s : State) : State :=
  drive 0x02 (resumeProducer (withLevels 0x0000 false (edgeAgo 0xFFFFFFFF (withBuffer b i s))))

/-- A mark that ends on an accepted tick. -/
def markEndAfter (n : Millis) (s : State) : State :=
  drive 0x22 (resumeProducer (withLevels 0x8000 true (edgeAgo n s)))

/-- A mark that begins on an accepted tick. -/
def markBeginAfter (n : Millis) (s : State) : State :=
  drive 0x32 (resumeProducer (withLevels 0x7FFF false (edgeAgo n s)))

/-- Prepare `s` so that the next cycle performs operation `i`: the input byte and the registers that the row's selecting
bits read (R77), with those R33 ties to them; everything else is kept (notes/assumptions/11.md). -/
def setUpFor (i : Instr) (s : State) : State :=
  match i with
  | .cycReset => drive 0x01 s
  | .cycRun => drive 0x00 s
  | .debFrozen => drive 0x00 s
  | .debUnavail => drive 0x02 (resumeProducer s)
  | .debSet1 => drive 0x32 (resumeProducer { s with debSr := 0x7FFF })
  | .debSet0 => drive 0x22 (resumeProducer { s with debSr := 0x8000 })
  | .debKeep => drive 0x22 (resumeProducer { s with debSr := 0x00FF })
  | .decOff => drive 0x00 s
  | .decMarkHold => drive 0x02 (resumeProducer (withLevels 0xFFFF true s))
  | .decMarkEndDit => markEndAfter 0 s
  | .decMarkEndDah => markEndAfter 0xFFFFFFFF s
  | .decBeginGap => markBeginAfter 0 s
  | .decBeginBreak => markBeginAfter 0xFFFFFFFF (withBuffer bufE 1 s)
  | .decBeginBreakEmpty => markBeginAfter 0xFFFFFFFF (withBuffer emptyBuf 0 s)
  | .decIdleBreak => idleBreakWith bufE 1 s
  | .decIdleWait => drive 0x02 (resumeProducer (withLevels 0x0000 false (edgeAgo 0 s)))
  | .decIdleEmpty => idleBreakWith emptyBuf 0 s
  | .symAppend => markEndAfter 0 (withBuffer emptyBuf 0 s)
  | .symEvict => markEndAfter 0 (withBuffer bufFullDits 6 s)
  | .resMatch => idleBreakWith bufE 1 s
  | .resNomatch => idleBreakWith bufNone 4 s
  | .kmapHit => drive 0x08 (drainIdle (withOnly 0x061 s))
  | .kmapMiss => drive 0x08 (drainIdle (withOnly 0x000 s))
  | .prodIdle => drive 0x00 (resumeProducer s)
  | .prodTickNoev => idleBreakWith emptyBuf 0 s
  | .prodEnq => idleBreakWith bufE 1 (withQueue 0 s)
  | .prodStall => idleBreakWith bufE 1 (withQueue 32 s)
  | .prodPendPush => drive 0x00 (suspended 0x065 (withQueue 0 s))
  | .prodPendWait => drive 0x00 (suspended 0x065 (withQueue 32 s))
  | .drnIdleWait => drive 0x00 (drainIdle s)
  | .drnIdleEmpty => drive 0x08 (drainIdle (withQueue 0 s))
  | .drnPopPress => drive 0x08 (drainIdle (withOnly 0x061 s))
  | .drnPopSkip => drive 0x08 (drainIdle (withOnly 0x000 s))
  | .drnHoldCount => drive 0x04 (drainHold s.cfg.holdMs s)
  | .drnHoldWait => drive 0x00 (drainHold s.cfg.holdMs s)
  | .drnRelease => drive 0x00 (drainHold 0 s)
  | .fifoNone => drive 0x00 (resumeProducer s)
  | .fifoPush => drive 0x00 (suspended 0x065 (withQueue 0 s))
  | .fifoPop => drive 0x08 (drainIdle (resumeProducer (withOnly 0x061 s)))
  | .fifoPushPop => drive 0x08 (drainIdle (suspended 0x065 (withOnly 0x061 s)))
  | .tbCount => drive 0x04 s
  | .tbIdle => drive 0x00 s

/-- `State.withFetchWord`'s effect: prepare the state for the operation a bare table word is read as; a word that is
no operation leaves it. -/
def setUpForWord (nbits w : Nat) (s : State) : State :=
  match decodeTableWord nbits w with
  | some i => setUpFor i s
  | none => s

end Sys2Proof.Machine
end

