-- ==== Sys2Proof/Machine/Step.lean ====
section
/-! DEFINITION. One step of the machine: one rising edge of `clk` (spec/00_scope.md R8). -/

namespace Sys2Proof.Machine

/-- One cycle: sample the inputs, read the `RST` selector word (R77), perform the operation it selects (R79). -/
def step (s : State) : Host.Outcome State Fault Refusal :=
  match decode .rst (selectorWord .rst (latchInputs s)) with
  | .op i => exec i (latchInputs s)
  | .rejected _ => .refused (.undecodable .rst)

/-- `s` prepared so that the next step performs the operation the bare table word `w` is read as
(notes/assumptions/10.md and 11.md). -/
def State.withFetchWord (s : State) (nbits w : Nat) : State := setUpForWord nbits w s

end Sys2Proof.Machine
end

