-- ==== Sys2Proof/Machine/Stimulus.lean ====
section
/-! DEFINITION. The stimulus notation of spec/30_encoding.md R83: mnemonic lines, their expansion into run-length pairs
of input bytes, and a program as the list of input bytes the host lines up. -/

namespace Sys2Proof.Machine

/-- A mnemonic line of R83. -/
inductive StimLine where
  /-- `RESET k=b`. -/
  | reset (k : Bool)
  /-- `CYC s m d k kv sh sv`: one cycle with exactly these inputs and `rst` = 0. -/
  | cyc (s m d k kv sh sv : Bool)
  /-- `TICK k=b sh=g d=c`. -/
  | tick (k sh d : Bool)
  /-- `MARK n sh=g`. -/
  | mark (n : Nat) (sh : Bool)
  /-- `GAP n sh=g`. -/
  | gap (n : Nat) (sh : Bool)
  /-- `MS n`. -/
  | ms (n : Nat)
  /-- `DRAIN`. -/
  | drain
  /-- `NOP n`. -/
  | nop (n : Nat)
  /-- `REPEAT n` of lines. -/
  | again (n : Nat) (body : List StimLine)

/-- The input byte of a `TICK` (R83): a sample and a millisecond with both lines available. -/
def tickByte (k sh d : Bool) : Word :=
  byteOfInputs ⟨false, true, true, d, k, true, sh, true⟩

mutual
/-- The run-length pairs of one line (R83). -/
def expandLine : StimLine → List (Nat × Word)
  | .reset k => [(1, byteOfInputs ⟨true, false, false, false, k, true, false, true⟩)]
  | .cyc s m d k kv sh sv => [(1, byteOfInputs ⟨false, s, m, d, k, kv, sh, sv⟩)]
  | .tick k sh d => [(1, tickByte k sh d)]
  | .mark n sh => [(n, tickByte true sh false)]
  | .gap n sh => [(n, tickByte false sh false)]
  | .ms n => [(n, byteOfInputs ⟨false, false, true, false, false, true, false, true⟩)]
  | .drain => [(1, byteOfInputs ⟨false, false, false, true, false, true, false, true⟩)]
  | .nop n => [(n, byteOfInputs ⟨false, false, false, false, false, true, false, true⟩)]
  | .again n body => (List.replicate n (expandLines body)).flatten

/-- The run-length pairs of a program's lines, in order (R83). -/
def expandLines : List StimLine → List (Nat × Word)
  | [] => []
  | l :: ls => expandLine l ++ expandLines ls
end

/-- The cycles of a list of run-length pairs `n × iv` (R83). -/
def unroll (ps : List (Nat × Word)) : List Word :=
  ps.flatMap fun p => List.replicate p.1 p.2

/-- Load a program: line up its input bytes for the next cycles (R83, R247). -/
def loadProgram (ls : List StimLine) (s : State) : State :=
  { s with stim := unroll (expandLines ls) }

end Sys2Proof.Machine
end

