-- ==== Sys2Proof/Safety.lean ====
section
/-! DEFINITION. The terms claims are stated in: a safe state, the queue the FIFO stands for, the events a cycle
completes, pushes and pops, runs of cycles, quiescence (spec/60_exceptions.md R249), the step of spec/44_cycle.md R210
written as one simultaneous update, and keying as the decoder sees it. -/

namespace Sys2Proof.Machine

/-- A legal configuration and a cycle with `rst` = 0: the cycles in which the unit operations apply (R6, R79). -/
abbrev Running (s : State) : Prop := s.cfg.legal = true ∧ s.pins.rst = false

/-- An accepted sample tick (R100, R176). -/
abbrev Accepted (s : State) : Prop := s.pins.sampleTick = true ∧ s.pendValid = false

/-- What counts as safe: a legal configuration (R5, R6) and the invariants of R33. -/
abbrev Safe (s : State) : Prop := s.cfg.legal = true ∧ InDomain s

/-- R249: no report is owed and no mark waits for its break. -/
abbrev Quiescent (s : State) : Prop :=
  s.fifoCnt = 0 ∧ s.pendValid = false ∧ s.dstate = .idle ∧ s.symIdx = 0

/-- The sample bit of this cycle as a register value. -/
def sampleBit (s : State) : BitVec 16 := if s.pins.keyIn then 1 else 0

/-- `repl_16(b)`. -/
def replicated (b : Bool) : BitVec 16 := if b then 0xFFFF else 0x0000

/-- The symbol a mark of `m` milliseconds is recorded as (R125, R126). -/
def markOf (c : Config) (m : Millis) : Symbol := if m / c.ditMs ≤ c.ditMaxUnits then .dit else .dah

/-- The events in the FIFO, oldest first (R30, R57). -/
def queued (s : State) : List Event :=
  (List.range s.fifoCnt.toNat).map fun k => fifoRead s.fifoMem (s.fifoRd + BitVec.ofNat 5 k)

/-- The events completed and not yet popped: the FIFO's and the held one (R58, R192). -/
def owed (s : State) : List Event := queued s ++ (if s.pendValid then [s.pendEv] else [])

/-- The event pushed in the cycle that led to `t`. -/
def pushedIn (t : State) : List Event := t.wires.push.toList

/-- The event popped in the cycle that led to `t`. -/
def poppedIn (t : State) : List Event := t.wires.pop.toList

/-- The event completed in the cycle that led to `t` (R170). -/
def completedIn (t : State) : List Event := t.wires.done.toList.map (eventOf (shiftBit t))

/-- The states after each of `n` cycles from `s`, if every one of them has a next state. -/
def cyclesFrom : Nat → State → Option (List State)
  | 0, _ => some []
  | n + 1, s =>
    match step s with
    | .next t => (cyclesFrom n t).map (t :: ·)
    | .fault _ => none
    | .refused _ => none

/-- The state a run ends in. -/
def lastOf (s : State) (ts : List State) : State := ts.getLast?.getD s

/-- The cycle that led to `t` shifted a sample into the filter (R100; `stall_o` shows the start-of-cycle
`pend_valid`, R212). -/
def tookSample (t : State) : Bool := t.pins.sampleTick && t.pins.keyValid && !t.out.stall

/-- Perform the operation that format `f`'s selector word selects in `s` (R77, R79). -/
def performSelected (f : Format) (s : State) : Answer :=
  match decode f (selectorWord f s) with
  | .op i => exec i s
  | .rejected _ => .refused (.undecodable f)

/-- `push_sym` as a function of buffer, index and symbol (R121, R122). -/
def pushedSyms (b : Vector Symbol 6) (i : BitVec 3) (x : Symbol) : Vector Symbol 6 × BitVec 3 :=
  if i = 6 then (#v[b[1], b[2], b[3], b[4], b[5], x], 6)
  else if h : i.toNat < 6 then (b.set i.toNat x, i + 1)
  else (b, i)

/-- The outputs after a break resolved its word: the completion of R134 and R136, or the `NOMATCH` of R135. -/
def resolvedOut (o : Outputs) (r : Option Char8) : Outputs :=
  match r with
  | some c => { o with charValid := true, char := c }
  | none => { o with noMatch := true }

/-- `sr_n` of R210. -/
def specSr (s : State) : BitVec 16 := s.debSr <<< 1 ||| sampleBit s

/-- `acc` of R210. -/
def specAcc (s : State) : Bool := s.pins.sampleTick && !s.pendValid

/-- The filter shifts (R210, part 2). -/
def specShift (s : State) : Bool := specAcc s && s.pins.keyValid

/-- `L` of R210. -/
def specLevel (s : State) : Bool :=
  if specShift s && specSr s == 0xFFFF then true
  else if specShift s && specSr s == 0x0000 then false
  else s.settled

/-- `u` of R120. -/
def specUnits (s : State) : Millis := (s.msCount - s.tLast) / s.cfg.ditMs

/-- A mark ends in this cycle (R125, R126). -/
def specMarkEnd (s : State) : Bool := specAcc s && s.decPrev && !specLevel s

/-- A break is processed in this cycle (R128, R130). -/
def specBreak (s : State) : Bool :=
  specAcc s && !s.decPrev && decide (s.cfg.breakUnits ≤ specUnits s) && s.symIdx != 0

/-- `w` of R123. -/
def specWord (s : State) : SymWord := packWord (pushedSyms s.symBuf s.symIdx .brk).1

/-- `done` and `char` of R210. -/
def specDone (s : State) : Option Char8 := if specBreak s then resolveWord (specWord s) else none

/-- `push` and `push_val` of R210, part 4. -/
def specPush (s : State) : Option Event :=
  if s.fifoCnt = 32 then none
  else if s.pendValid then some s.pendEv
  else (specDone s).map (eventOf (s.pins.shiftIn && s.pins.shiftValid))

/-- `pop` and `head` of R210, part 5. -/
def specPop (s : State) : Option Event :=
  if s.dstate = .idle ∧ s.pins.drainTick = true ∧ s.fifoCnt ≠ 0 then some (fifoRead s.fifoMem s.fifoRd) else none

/-- The scan code of the popped event, if it has one (R210, part 5). -/
def specCode (s : State) : Option (BitVec 8) := (specPop s).bind fun e => scanCode s.cfg.keymap (e.setWidth 8)

/-- The release of R186 happens in this cycle. -/
def specRelease (s : State) : Bool := s.dstate == .hold && s.holdCnt == 0

/-- The output ports of R210, part 8, and R212. -/
def specOut (s : State) : Outputs where
  repValid := (specCode s).isSome || specRelease s
  repCode := (specCode s).getD 0x00
  repMod := if (specCode s).isSome && ((specPop s).getD 0).getLsbD 8 then s.cfg.shiftMod else 0x00
  charValid := (specDone s).isSome
  char := (specDone s).getD 0x00
  noMatch := specBreak s && (resolveWord (specWord s)).isNone
  unsup := (specPop s).isSome && (specCode s).isNone
  settled := s.settled
  fifoCnt := s.fifoCnt
  stall := s.pendValid
  busy := s.dstate == .hold

/-- The step of R210 as one simultaneous update: every right side reads the start-of-cycle state `s` and its inputs
alone. The combinational values are left as they are. -/
def cycleSpec (s : State) : State :=
  { s with
    debSr := if specShift s then specSr s else s.debSr
    settled := specLevel s
    decPrev := if specAcc s then specLevel s else s.decPrev
    tLast := if specAcc s && s.decPrev != specLevel s then s.msCount else s.tLast
    symBuf :=
      if specMarkEnd s then
        (pushedSyms s.symBuf s.symIdx (if specUnits s ≤ s.cfg.ditMaxUnits then .dit else .dah)).1
      else if specBreak s then emptyBuf else s.symBuf
    symIdx :=
      if specMarkEnd s then
        (pushedSyms s.symBuf s.symIdx (if specUnits s ≤ s.cfg.ditMaxUnits then .dit else .dah)).2
      else if specBreak s then 0 else s.symIdx
    fifoMem :=
      match specPush s with
      | some e => fifoWrite s.fifoMem s.fifoWr e
      | none => s.fifoMem
    fifoWr := if (specPush s).isSome then s.fifoWr + 1 else s.fifoWr
    fifoRd := if (specPop s).isSome then s.fifoRd + 1 else s.fifoRd
    fifoCnt := s.fifoCnt + (if (specPush s).isSome then 1 else 0) - (if (specPop s).isSome then 1 else 0)
    pendValid :=
      if s.pendValid then s.fifoCnt == 32 else (specDone s).isSome && s.fifoCnt == 32
    pendEv :=
      match specDone s with
      | some c => if s.fifoCnt = 32 then eventOf (s.pins.shiftIn && s.pins.shiftValid) c else s.pendEv
      | none => s.pendEv
    dstate := if (specCode s).isSome then .hold else if specRelease s then .idle else s.dstate
    holdCnt :=
      if (specCode s).isSome then s.cfg.holdMs
      else if s.dstate == .hold && s.holdCnt != 0 && s.pins.msTick then s.holdCnt - 1 else s.holdCnt
    msCount := if s.pins.msTick then s.msCount + 1 else s.msCount
    out := specOut s }

/-- The pattern of a run of at most five marks and a `BREAK` (R76): the marks in order, the `BREAK`, then `EMPTY`. -/
def wordOfMarks (ms : List Symbol) : SymWord :=
  packWord (Vector.ofFn fun k : Fin 6 => (ms ++ [Symbol.brk]).getD k.val .empty)

/-- Record a run of marks, one after the other (R125, R126). -/
def recordMarks : List Symbol → State → Answer
  | [], s => .next s
  | x :: xs, s => andThen (recordMark x s) (recordMarks xs)

/-- The decoder on one accepted tick, `dt` milliseconds later, that shows it the level `lvl` (R120, R124). -/
def decoderTick (dt : Millis) (lvl : Bool) (s : State) : Answer :=
  decUnit { s with
    msCount := s.msCount + dt
    pins := { s.pins with rst := false, sampleTick := true }
    wires := { Wires.clear with level := lvl } }

/-- Key marks: for each pair, a silence of the first length, then a mark of the second. -/
def keyMarks : List (Millis × Millis) → State → Answer
  | [], s => .next s
  | (gap, mark) :: rest, s =>
    andThen (decoderTick gap true s) fun s1 => andThen (decoderTick mark false s1) (keyMarks rest)

end Sys2Proof.Machine
end

