-- ==== Sys2Proof/Certificates/Slice0/Obligations.lean ====
section
/-! DEFINITION. The statements for the provers. The first block gives each operation's whole next state from its rule's
pseudocode, so each equation is at once the operation's result, its completion and its frame: every field not written
in the record update is unchanged. Notes on the model's own fields: `wires` holds the combinational values of the cycle
and `out` the output ports (notes/assumptions/7.md); an operation is performed in a cycle that selects its row
(notes/assumptions/8.md), and the hypotheses are the row's selecting bits, as spec/30_encoding.md section 5 gives them. -/

open Sys2Proof Sys2Proof.Machine

/-! ### DEB -/

/-- R101, with the level of R106. -/
def Obligations.DebKeepShiftsSampleAndHoldsLevel : Prop :=
  ∀ s : State, Running s → Accepted s → s.pins.keyValid = true →
    s.debSr <<< 1 ||| sampleBit s ≠ 0xFFFF → s.debSr <<< 1 ||| sampleBit s ≠ 0x0000 →
    exec .debKeep s = .next { s with
      debSr := s.debSr <<< 1 ||| sampleBit s
      wires := { s.wires with level := s.settled } }

/-- R102, with the level of R106. -/
def Obligations.DebSet1SettlesActive : Prop :=
  ∀ s : State, Running s → Accepted s → s.pins.keyValid = true →
    s.debSr <<< 1 ||| sampleBit s = 0xFFFF →
    exec .debSet1 s = .next { s with
      debSr := 0xFFFF
      settled := true
      wires := { s.wires with level := true } }

/-- R103, with the level of R106. -/
def Obligations.DebSet0SettlesIdle : Prop :=
  ∀ s : State, Running s → Accepted s → s.pins.keyValid = true →
    s.debSr <<< 1 ||| sampleBit s = 0x0000 →
    exec .debSet0 s = .next { s with
      debSr := 0x0000
      settled := false
      wires := { s.wires with level := false } }

/-- R104 and R105, with the level of R106. -/
def Obligations.DebHoldsWhenUnavailableOrFrozen : Prop :=
  ∀ s : State, Running s →
    (Accepted s → s.pins.keyValid = false →
      exec .debUnavail s = .next { s with wires := { s.wires with level := s.settled } }) ∧
    (¬ Accepted s → exec .debFrozen s = .next { s with wires := { s.wires with level := s.settled } })

/-! ### DEC, SYM and RES -/

/-- R125: a mark of at most `DIT_MAX_UNITS` units is recorded as a Dit; `pushedSyms` is R121 or R122. -/
def Obligations.MarkEndRecordsDit : Prop :=
  ∀ s : State, Running s → Accepted s → s.decPrev = true → s.wires.level = false → s.symIdx.toNat ≤ 6 →
    (s.msCount - s.tLast) / s.cfg.ditMs ≤ s.cfg.ditMaxUnits →
    exec .decMarkEndDit s = .next { s with
      symBuf := (pushedSyms s.symBuf s.symIdx .dit).1
      symIdx := (pushedSyms s.symBuf s.symIdx .dit).2
      tLast := s.msCount
      decPrev := false
      wires := { s.wires with
        symIn := some .dit
        bufNext := (pushedSyms s.symBuf s.symIdx .dit).1
        idxNext := (pushedSyms s.symBuf s.symIdx .dit).2 } }

/-- R126: a longer mark is recorded as a Dah. -/
def Obligations.MarkEndRecordsDah : Prop :=
  ∀ s : State, Running s → Accepted s → s.decPrev = true → s.wires.level = false → s.symIdx.toNat ≤ 6 →
    s.cfg.ditMaxUnits < (s.msCount - s.tLast) / s.cfg.ditMs →
    exec .decMarkEndDah s = .next { s with
      symBuf := (pushedSyms s.symBuf s.symIdx .dah).1
      symIdx := (pushedSyms s.symBuf s.symIdx .dah).2
      tLast := s.msCount
      decPrev := false
      wires := { s.wires with
        symIn := some .dah
        bufNext := (pushedSyms s.symBuf s.symIdx .dah).1
        idxNext := (pushedSyms s.symBuf s.symIdx .dah).2 } }

/-- R127 and R129: a mark that begins after a short gap, or after a long one with an empty buffer, only restarts the
measurement. -/
def Obligations.MarkBeginWithoutBreakRestartsMeasurement : Prop :=
  ∀ s : State, Running s → Accepted s → s.decPrev = false → s.wires.level = true →
    ((s.msCount - s.tLast) / s.cfg.ditMs < s.cfg.breakUnits →
      exec .decBeginGap s = .next { s with tLast := s.msCount, decPrev := true }) ∧
    (s.cfg.breakUnits ≤ (s.msCount - s.tLast) / s.cfg.ditMs → s.symIdx = 0 →
      exec .decBeginBreakEmpty s = .next { s with tLast := s.msCount, decPrev := true })

/-- R128 with R123: the buffer word with its `BREAK` is resolved, the buffer cleared, and the measurement restarted. -/
def Obligations.MarkBeginBreakResolvesAndClears : Prop :=
  ∀ s : State, Running s → Accepted s → s.decPrev = false → s.wires.level = true →
    s.symIdx ≠ 0 → s.symIdx.toNat ≤ 6 → s.cfg.breakUnits ≤ (s.msCount - s.tLast) / s.cfg.ditMs →
    exec .decBeginBreak s = .next { s with
      symBuf := emptyBuf
      symIdx := 0
      tLast := s.msCount
      decPrev := true
      wires := { s.wires with
        symIn := some .brk
        bufNext := (pushedSyms s.symBuf s.symIdx .brk).1
        idxNext := (pushedSyms s.symBuf s.symIdx .brk).2
        resIn := some (packWord (pushedSyms s.symBuf s.symIdx .brk).1)
        done := resolveWord (packWord (pushedSyms s.symBuf s.symIdx .brk).1) }
      out := resolvedOut s.out (resolveWord (packWord (pushedSyms s.symBuf s.symIdx .brk).1)) }

/-- R130 with R123: the sustained-idle break resolves and clears; `t_last` keeps the time of the mark's end. -/
def Obligations.IdleBreakResolvesAndClears : Prop :=
  ∀ s : State, Running s → Accepted s → s.decPrev = false → s.wires.level = false →
    s.symIdx ≠ 0 → s.symIdx.toNat ≤ 6 → s.cfg.breakUnits ≤ (s.msCount - s.tLast) / s.cfg.ditMs →
    exec .decIdleBreak s = .next { s with
      symBuf := emptyBuf
      symIdx := 0
      decPrev := false
      wires := { s.wires with
        symIn := some .brk
        bufNext := (pushedSyms s.symBuf s.symIdx .brk).1
        idxNext := (pushedSyms s.symBuf s.symIdx .brk).2
        resIn := some (packWord (pushedSyms s.symBuf s.symIdx .brk).1)
        done := resolveWord (packWord (pushedSyms s.symBuf s.symIdx .brk).1) }
      out := resolvedOut s.out (resolveWord (packWord (pushedSyms s.symBuf s.symIdx .brk).1)) }

/-- R124 (`DEC_OFF`), R131, R132 and R133: the decoder operations that only write the level they saw, which is the
value `dec_prev` already has. -/
def Obligations.QuietDecoderOperationsChangeNothing : Prop :=
  ∀ s : State, Running s →
    (¬ Accepted s → exec .decOff s = .next s) ∧
    (Accepted s → s.decPrev = true → s.wires.level = true → exec .decMarkHold s = .next s) ∧
    (Accepted s → s.decPrev = false → s.wires.level = false →
      (s.msCount - s.tLast) / s.cfg.ditMs < s.cfg.breakUnits → exec .decIdleWait s = .next s) ∧
    (Accepted s → s.decPrev = false → s.wires.level = false →
      s.cfg.breakUnits ≤ (s.msCount - s.tLast) / s.cfg.ditMs → s.symIdx = 0 → exec .decIdleEmpty s = .next s)

/-- The offered symbol goes into slot `sym_idx` (section 2 of spec/41_decoder.md). That the push taken alone yields local
values and writes no register is the model's reading (notes/assumptions/14.md). -/
def Obligations.SymAppendFillsTheNextSlot : Prop :=
  ∀ (s : State) (x : Symbol) (h : s.symIdx.toNat < 6), Running s → s.wires.symIn = some x →
    exec .symAppend s = .next { s with wires := { s.wires with
      bufNext := s.symBuf.set s.symIdx.toNat x h
      idxNext := s.symIdx + 1 } }

/-- With six slots filled the oldest symbol is lost and the others move down one slot (section 2 of
spec/41_decoder.md). That the push taken alone writes no register is the model's reading (notes/assumptions/14.md). -/
def Obligations.SymEvictDropsTheOldest : Prop :=
  ∀ (s : State) (x : Symbol), Running s → s.symIdx = 6 → s.wires.symIn = some x →
    exec .symEvict s = .next { s with wires := { s.wires with
      bufNext := #v[s.symBuf[1], s.symBuf[2], s.symBuf[3], s.symBuf[4], s.symBuf[5], x]
      idxNext := 6 } }

/-- R134, R135 and R136: a word of the table completes its character, any other raises `NOMATCH` and completes none. -/
def Obligations.ResolutionCompletesOrSignalsNoMatch : Prop :=
  ∀ (s : State) (w : SymWord), Running s → s.wires.resIn = some w →
    (∀ e ∈ morseTable, e.word = w →
      exec .resMatch s = .next { s with
        wires := { s.wires with done := some e.char }
        out := { s.out with charValid := true, char := e.char } }) ∧
    ((∀ e ∈ morseTable, e.word ≠ w) →
      exec .resNomatch s = .next { s with
        wires := { s.wires with done := none }
        out := { s.out with noMatch := true } })

/-! ### KMAP -/

/-- R161 and R162, for every key map. -/
def Obligations.KeymapLookupReturnsCodeOrNone : Prop :=
  ∀ (s : State) (c : Char8), Running s → s.wires.lookup = some c →
    ((keymapEntry s.cfg.keymap c).valid = true →
      exec .kmapHit s = .next { s with wires := { s.wires with code := some (keymapEntry s.cfg.keymap c).code } }) ∧
    ((keymapEntry s.cfg.keymap c).valid = false →
      exec .kmapMiss s = .next { s with wires := { s.wires with code := none } })

/-! ### PROD -/

/-- R174 with R170: a completion with room in the FIFO requests a push of its event. -/
def Obligations.ProducerPushesCompletedEvent : Prop :=
  ∀ (s : State) (c : Char8), Running s → Accepted s → s.wires.done = some c → s.fifoCnt ≠ 32 →
    exec .prodEnq s = .next { s with
      wires := { s.wires with push := some (eventOf (s.pins.shiftIn && s.pins.shiftValid) c) } }

/-- R175 with R170: a completion with the FIFO full is held, and the producer suspended. -/
def Obligations.ProducerHoldsEventWhenFull : Prop :=
  ∀ (s : State) (c : Char8), Running s → Accepted s → s.wires.done = some c → s.fifoCnt = 32 →
    exec .prodStall s = .next { s with
      pendEv := eventOf (s.pins.shiftIn && s.pins.shiftValid) c
      pendValid := true }

/-- R177: the held event is pushed once there is room, and the producer resumes. -/
def Obligations.ProducerPushesHeldEventAndResumes : Prop :=
  ∀ s : State, Running s → s.pendValid = true → s.fifoCnt ≠ 32 →
    exec .prodPendPush s = .next { s with
      pendValid := false
      wires := { s.wires with push := some s.pendEv } }

/-- R178, R179 and R180: the producer operations that write nothing. -/
def Obligations.QuietProducerOperationsChangeNothing : Prop :=
  ∀ s : State, Running s →
    (s.pendValid = true → s.fifoCnt = 32 → exec .prodPendWait s = .next s) ∧
    (s.pendValid = false → s.pins.sampleTick = false → exec .prodIdle s = .next s) ∧
    (Accepted s → s.wires.done = none → exec .prodTickNoev s = .next s)

/-! ### DRN -/

/-- R182 and R189: the head is popped and its press report emitted, and the hold starts. -/
def Obligations.DrainPressesTheHead : Prop :=
  ∀ s : State, Running s → s.dstate = .idle → s.pins.drainTick = true → s.fifoCnt ≠ 0 →
    (keymapEntry s.cfg.keymap ((fifoRead s.fifoMem s.fifoRd).setWidth 8)).valid = true →
    exec .drnPopPress s = .next { s with
      dstate := .hold
      holdCnt := s.cfg.holdMs
      wires := { s.wires with
        pop := some (fifoRead s.fifoMem s.fifoRd)
        lookup := some ((fifoRead s.fifoMem s.fifoRd).setWidth 8)
        code := some (keymapEntry s.cfg.keymap ((fifoRead s.fifoMem s.fifoRd).setWidth 8)).code }
      out := { s.out with
        repValid := true
        repCode := (keymapEntry s.cfg.keymap ((fifoRead s.fifoMem s.fifoRd).setWidth 8)).code
        repMod := if (fifoRead s.fifoMem s.fifoRd).getLsbD 8 then s.cfg.shiftMod else 0x00 } }

/-- R183: an event whose character has no scan code is popped and dropped with status `UNSUPPORTED`. -/
def Obligations.DrainDropsUnsupportedHead : Prop :=
  ∀ s : State, Running s → s.dstate = .idle → s.pins.drainTick = true → s.fifoCnt ≠ 0 →
    (keymapEntry s.cfg.keymap ((fifoRead s.fifoMem s.fifoRd).setWidth 8)).valid = false →
    exec .drnPopSkip s = .next { s with
      wires := { s.wires with
        pop := some (fifoRead s.fifoMem s.fifoRd)
        lookup := some ((fifoRead s.fifoMem s.fifoRd).setWidth 8)
        code := none }
      out := { s.out with unsup := true } }

/-- R184, R185 and R186: the hold counts milliseconds down, and a hold at 0 releases the key. -/
def Obligations.DrainHoldCountsDownAndReleases : Prop :=
  ∀ s : State, Running s → s.dstate = .hold →
    (s.holdCnt ≠ 0 → s.pins.msTick = true →
      exec .drnHoldCount s = .next { s with holdCnt := s.holdCnt - 1 }) ∧
    (s.holdCnt ≠ 0 → s.pins.msTick = false → exec .drnHoldWait s = .next s) ∧
    (s.holdCnt = 0 →
      exec .drnRelease s = .next { s with
        dstate := .idle
        out := { s.out with repValid := true, repCode := 0x00, repMod := 0x00 } })

/-- R181 and R187: in `IDLE`, no drain tick or an empty FIFO changes nothing. -/
def Obligations.QuietDrainOperationsChangeNothing : Prop :=
  ∀ s : State, Running s → s.dstate = .idle →
    (s.pins.drainTick = false → exec .drnIdleWait s = .next s) ∧
    (s.pins.drainTick = true → s.fifoCnt = 0 → exec .drnIdleEmpty s = .next s)

/-! ### FIFO and TB -/

/-- R171 and R173: a push stores the event at the tail; every other entry reads as before. -/
def Obligations.FifoPushStoresAtTheTail : Prop :=
  ∀ (s : State) (e : Event), Running s → s.wires.push = some e → s.wires.pop = none → s.fifoCnt.toNat < 32 →
    ∃ t, exec .fifoPush s = .next t ∧
      t = { s with fifoMem := t.fifoMem, fifoWr := s.fifoWr + 1, fifoCnt := s.fifoCnt + 1 } ∧
      fifoRead t.fifoMem s.fifoWr = e ∧
      ∀ i, i ≠ s.fifoWr → fifoRead t.fifoMem i = fifoRead s.fifoMem i

/-- R172 and R173: a pop removes the head; the storage keeps every entry. -/
def Obligations.FifoPopRemovesTheHead : Prop :=
  ∀ (s : State) (e : Event), Running s → s.wires.push = none → s.wires.pop = some e → s.fifoCnt ≠ 0 →
    exec .fifoPop s = .next { s with fifoRd := s.fifoRd + 1, fifoCnt := s.fifoCnt - 1 }

/-- R173: with neither nothing changes; with both, the event is stored, the head removed, and the count is unchanged. -/
def Obligations.FifoNoneAndPushPop : Prop :=
  ∀ s : State, Running s →
    (s.wires.push = none → s.wires.pop = none → exec .fifoNone s = .next s) ∧
    (∀ e p, s.wires.push = some e → s.wires.pop = some p → 0 < s.fifoCnt.toNat → s.fifoCnt.toNat < 32 →
      ∃ t, exec .fifoPushPop s = .next t ∧
        t = { s with fifoMem := t.fifoMem, fifoWr := s.fifoWr + 1, fifoRd := s.fifoRd + 1 } ∧
        fifoRead t.fifoMem s.fifoWr = e ∧
        ∀ i, i ≠ s.fifoWr → fifoRead t.fifoMem i = fifoRead s.fifoMem i)

/-- R190 and R191. -/
def Obligations.TimebaseCountsMilliseconds : Prop :=
  ∀ s : State, Running s →
    (s.pins.msTick = true → exec .tbCount s = .next { s with msCount := s.msCount + 1 }) ∧
    (s.pins.msTick = false → exec .tbIdle s = .next s)

/-- R57 at the FIFO operations: a push appends to the queue, a pop takes its oldest event, and both at once do both. -/
def Obligations.FifoOperationsActOnAQueue : Prop :=
  ∀ s : State, Running s → FifoOk s.fifoRd s.fifoWr s.fifoCnt →
    (∀ t e, s.wires.push = some e → exec .fifoPush s = .next t → queued t = queued s ++ [e]) ∧
    (∀ t, exec .fifoPop s = .next t → queued s = fifoRead s.fifoMem s.fifoRd :: queued t) ∧
    (∀ t e, s.wires.push = some e → exec .fifoPushPop s = .next t →
      queued s ++ [e] = fifoRead s.fifoMem s.fifoRd :: queued t)

/-! ### The cycle -/

/-- R260: reset from any state of a block with a legal configuration. The level outputs are R212's. `fifo_mem` is left
open, as R260 leaves its contents unspecified (the model's choice is notes/assumptions/4.md). -/
def Obligations.ResetFromAnyState : Prop :=
  ∀ s : State, s.cfg.legal = true → s.pins.rst = true →
    ∃ t, exec .cycReset s = .next t ∧ t = { s with
      debSr := replicated (s.pins.keyIn && s.pins.keyValid)
      settled := s.pins.keyIn && s.pins.keyValid
      decPrev := s.pins.keyIn && s.pins.keyValid
      tLast := 0
      symBuf := emptyBuf
      symIdx := 0
      fifoMem := t.fifoMem
      fifoRd := 0
      fifoWr := 0
      fifoCnt := 0
      pendValid := false
      pendEv := 0
      dstate := .idle
      holdCnt := 0
      msCount := 0
      wires := t.wires
      out := Outputs.quiet s.settled s.fifoCnt s.pendValid (s.dstate == .hold) }

/-- A step samples the inputs and runs the operation their `RST` word decodes to: with a lined-up input byte, and, where
none is lined up, with the host's free byte of that cycle number (notes/assumptions/1.md). -/
def Obligations.StepRunsTheDecodedCycle : Prop :=
  (∀ (s : State) (iv : Word) (rest : List Word) (i : Instr), s.stim = iv :: rest →
    decode .rst (iv &&& 1) = .op i →
    step s = exec i { s with pins := inputsOfByte iv, stim := rest, cycle := s.cycle + 1 }) ∧
  (∀ (s : State) (i : Instr), s.stim = [] → decode .rst (Config.hostInput s.cycle &&& 1) = .op i →
    step s = exec i { s with pins := inputsOfByte (Config.hostInput s.cycle), cycle := s.cycle + 1 })

/-- `CYC_RUN` performs the operation each unit's selector word selects (R79, R210). That the units run one after another
in this order, each on the state the one before left, is the model's choice, as R211 leaves the order free
(notes/assumptions/9.md); so is clearing `wires` and setting `out` before the first unit (notes/assumptions/7.md). -/
def Obligations.CycleComposesTheSelectedOperations : Prop :=
  ∀ s : State, Running s → InDomain s →
    exec .cycRun s =
      andThen (performSelected .deb (beginCycle s)) fun s1 =>
        andThen (performSelected .dec s1) fun s2 =>
          andThen (performSelected .prod s2) fun s3 =>
            andThen (performSelected .drn s3) fun s4 =>
              andThen (performSelected .fifo s4) (performSelected .tb)

/-- R210 and R211: `CYC_RUN`, which performs the units one after another, is the simultaneous step of R210, in which
every right side reads the start-of-cycle state. -/
def Obligations.CycleIsTheSimultaneousStep : Prop :=
  ∀ s : State, Running s → InDomain s →
    ∃ w, exec .cycRun s = .next { cycleSpec s with wires := w } ∧
      w.level = specLevel s ∧ w.done = specDone s ∧ w.push = specPush s ∧ w.pop = specPop s

/-- R77 and R79: in a cycle with `rst` = 0 each of `DEB`, `DEC`, `PROD`, `DRN`, `FIFO` and `TB` selects exactly one
row, `SYM`, `RES` and `KMAP` one exactly when a symbol is pushed, a word resolved or a character looked up; in a cycle
with `rst` = 1 only `CYC_RESET` is selected. -/
def Obligations.EachFormatSelectsExactlyOneRow : Prop :=
  ∀ s : State, s.cfg.legal = true →
    (s.pins.rst = false →
      (∀ f ∈ [Format.deb, .dec, .prod, .drn, .fifo, .tb], ∃! i, formatOf i = f ∧ selected i s = true) ∧
      ((∃ i, formatOf i = .sym ∧ selected i s = true) ↔ s.wires.symIn.isSome = true) ∧
      ((∃ i, formatOf i = .res ∧ selected i s = true) ↔ s.wires.resIn.isSome = true) ∧
      ((∃ i, formatOf i = .kmap ∧ selected i s = true) ↔ s.wires.lookup.isSome = true) ∧
      (∀ f i j, formatOf i = f → formatOf j = f → selected i s = true → selected j s = true → i = j)) ∧
    (s.pins.rst = true → ∀ i, selected i s = true ↔ i = .cycReset)

/-- R33 and R236: from every state that meets the invariants, whatever the host drives, the step has a next state, and
that state meets them. -/
def Obligations.EveryStepGoesOnAndKeepsTheInvariants : Prop :=
  ∀ s : State, Safe s → ∃ t, step s = .next t ∧ Safe t

/-- R262: the state after reset meets every invariant, whatever the seed and the state before; and `State.reset` itself
(whose seed, storage and configuration the model chose, notes/assumptions/2.md, 3.md and 5.md) is such a state and
quiescent (R249), with the flags of R34. -/
def Obligations.ResetEstablishesTheInvariants : Prop :=
  (∀ s t : State, exec .cycReset s = .next t → Safe t ∧ Quiescent t ∧ t.debSr = replicated t.settled) ∧
  Safe State.reset ∧ Quiescent State.reset ∧
  fifoFull State.reset = false ∧ fifoEmpty State.reset = true ∧ stalled State.reset = false ∧
  busy State.reset = false

/-! ### Encodings and tables -/

/-- Every operation's encoding decodes to it in its format, and to no operation of the format but it. -/
def Obligations.EncodingsDecodeToTheirOperations : Prop :=
  (∀ i : Instr, decode (formatOf i) (encode i) = .op i) ∧
  (∀ (f : Format) (w : Word), w.toNat < 2 ^ f.width → ∃ i, decode f w = .op i ∧ formatOf i = f) ∧
  (∀ (f : Format) (w : Word), 2 ^ f.width ≤ w.toNat → decode f w = .rejected .bitsAboveWidth)

/-- Words of the operation map, one or more a format, each written from its selecting bits in section 5 of
spec/30_encoding.md (R77 gives the bit places). -/
def Obligations.WordsOfTheOperationMapDecode : Prop :=
  decode .rst 0b1 = .op .cycReset ∧ decode .deb 0b0111 = .op .debSet1 ∧ decode .deb 0b1011 = .op .debSet0 ∧
  decode .dec 0b100110 = .op .decMarkEndDit ∧ decode .dec 0b111001 = .op .decBeginBreak ∧
  decode .dec 0b111000 = .op .decIdleBreak ∧ decode .sym 0b1 = .op .symEvict ∧ decode .res 0b1 = .op .resMatch ∧
  decode .kmap 0b0 = .op .kmapMiss ∧ decode .prod 0b1101 = .op .prodStall ∧ decode .prod 0b0010 = .op .prodPendPush ∧
  decode .drn 0b100010 = .op .drnPopPress ∧ decode .drn 0b010001 = .op .drnHoldCount ∧
  decode .fifo 0b11 = .op .fifoPushPop ∧ decode .tb 0b1 = .op .tbCount

/-- R83: the input byte and the input vector determine each other. -/
def Obligations.InputByteAndVectorAgree : Prop :=
  (∀ iv : Word, byteOfInputs (inputsOfByte iv) = iv) ∧ (∀ v : Inputs, inputsOfByte (byteOfInputs v) = v)

/-- R76: the table has 36 entries, no two with the same pattern; each pattern is 1 to 5 marks and a `BREAK`, and
resolves to its own character. -/
def Obligations.MorseEntriesAreDistinctAndResolve : Prop :=
  morseTable.length = 36 ∧ (morseTable.map MorseEntry.word).Nodup ∧ (morseTable.map MorseEntry.char).Nodup ∧
  ∀ e ∈ morseTable, resolveWord e.word = some e.char ∧
    ∃ ms : List Symbol, 1 ≤ ms.length ∧ ms.length ≤ 5 ∧ (∀ x ∈ ms, x = .dit ∨ x = .dah) ∧ wordOfMarks ms = e.word

/-- R160 to R162: the default key map gives every character the decoder completes a code, and none the code 0x00. -/
def Obligations.DefaultKeymapCoversTheAlphabet : Prop :=
  defaultKeymap.length = 37 ∧
  (∀ e ∈ morseTable, (keymapEntry defaultKeymap e.char).valid = true) ∧
  ∀ c : Char8, (keymapEntry defaultKeymap c).valid = true → (keymapEntry defaultKeymap c).code ≠ 0x00

/-! ### The debounce filter over runs -/

/-- R108: sixteen or more accepted samples of one value, with any cycles between them, settle it, whatever the filter
held before. -/
def Obligations.SixteenEqualSamplesSettle : Prop :=
  ∀ (n : Nat) (s : State) (ts : List State) (b : Bool), Safe s → cyclesFrom n s = some ts →
    (∀ t ∈ ts, t.pins.rst = false) → (∀ t ∈ ts, tookSample t = true → t.pins.keyIn = b) →
    16 ≤ ts.countP tookSample →
    (lastOf s ts).debSr = replicated b ∧ (lastOf s ts).settled = b

/-- R107 and R111: from a unanimous register that agrees with the settled level, fewer than sixteen shifted samples
leave the level as it is, however many cycles there are between them. -/
def Obligations.FewerThanSixteenSamplesKeepTheLevel : Prop :=
  ∀ (n : Nat) (s : State) (ts : List State), Safe s → s.debSr = replicated s.settled → cyclesFrom n s = some ts →
    (∀ t ∈ ts, t.pins.rst = false) → ts.countP tookSample < 16 → ∀ t ∈ ts, t.settled = s.settled

/-! ### The decoder -/

/-- R120: the two comparisons, as products computed without overflow. -/
def Obligations.ThresholdsAreProducts : Prop :=
  ∀ s : State, s.cfg.ditMs ≠ 0 →
    (shortMark s = true ↔ (s.msCount - s.tLast).toNat < (s.cfg.ditMaxUnits.toNat + 1) * s.cfg.ditMs.toNat) ∧
    (longGap s = true ↔ s.cfg.breakUnits.toNat * s.cfg.ditMs.toNat ≤ (s.msCount - s.tLast).toNat)

/-- R137: a break after any run of marks resolves the last five of them, and R138: it leaves the buffer empty. -/
def Obligations.BreakResolvesTheLastFiveMarks : Prop :=
  ∀ (s : State) (ms : List Symbol), Running s → s.symBuf = emptyBuf → s.symIdx = 0 → ms ≠ [] →
    (∀ x ∈ ms, x = .dit ∨ x = .dah) →
    ∃ t u, recordMarks ms s = .next t ∧ doBreak t = .next u ∧
      u.wires.done = resolveWord (wordOfMarks (ms.drop (ms.length - 5))) ∧
      (u.wires.done = none → u.out.noMatch = true) ∧
      u.symBuf = emptyBuf ∧ u.symIdx = 0

/-- R139 at the decoder unit alone, on the ticks at which it sees an edge and the tick at which the idle line reaches the
break (R130): a character's marks, keyed with lengths the thresholds classify as its Dits and Dahs and with short gaps
between them, complete that character. The break at the next mark's begin (R128) is
`MarkBeginBreakResolvesAndClears`'s. -/
def Obligations.KeyedCharacterCompletesItself : Prop :=
  ∀ (s : State) (ks : List (Millis × Millis)) (silence : Millis) (e : MorseEntry),
    s.cfg.legal = true → s.pendValid = false → s.decPrev = false → s.symBuf = emptyBuf → s.symIdx = 0 →
    e ∈ morseTable → ks ≠ [] → ks.length ≤ 5 → wordOfMarks (ks.map fun k => markOf s.cfg k.2) = e.word →
    (∀ k ∈ ks.tail, k.1 / s.cfg.ditMs < s.cfg.breakUnits) → s.cfg.breakUnits ≤ silence / s.cfg.ditMs →
    ∃ t u, keyMarks ks s = .next t ∧ decoderTick silence false t = .next u ∧
      u.wires.done = some e.char ∧ u.symBuf = emptyBuf ∧ u.symIdx = 0

/-- R176: while the producer is suspended the filter and the decoder are frozen, no character completes, time goes on,
and the suspension ends exactly when the cycle starts with room in the FIFO (R177, R178). -/
def Obligations.SuspendedProducerIsFrozen : Prop :=
  ∀ s t : State, Safe s → s.pendValid = true → step s = .next t → t.pins.rst = false →
    t.debSr = s.debSr ∧ t.settled = s.settled ∧ t.decPrev = s.decPrev ∧ t.tLast = s.tLast ∧
    t.symBuf = s.symBuf ∧ t.symIdx = s.symIdx ∧ t.out.charValid = false ∧ t.out.noMatch = false ∧
    t.msCount = (if t.pins.msTick then s.msCount + 1 else s.msCount) ∧
    t.pendEv = s.pendEv ∧ (t.pendValid = true ↔ s.fifoCnt = 32)

/-! ### The pipeline over cycles and runs -/

/-- R57, R58 and R192 over any run without a reset: the events pushed leave in the order they came, none lost,
duplicated or reordered, and every completed event is pushed or still held. -/
def Obligations.NoEventIsLostDuplicatedOrReordered : Prop :=
  ∀ (n : Nat) (s : State) (ts : List State), Safe s → cyclesFrom n s = some ts → (∀ t ∈ ts, t.pins.rst = false) →
    queued s ++ ts.flatMap pushedIn = ts.flatMap poppedIn ++ queued (lastOf s ts) ∧
    owed s ++ ts.flatMap completedIn = ts.flatMap poppedIn ++ owed (lastOf s ts)

/-- R59 and R274: a cycle pops only an event that was in the FIFO at its start, and pushes only into a slot that was
free at its start. -/
def Obligations.NoSameCycleBypass : Prop :=
  ∀ s t : State, Safe s → step s = .next t → t.pins.rst = false →
    (∀ e, t.wires.pop = some e → (queued s).head? = some e) ∧
    (∀ e, t.wires.push = some e → s.fifoCnt.toNat < 32)

/-- R193: a report in `IDLE` is a press and enters `HOLD`; a report in `HOLD` is the release, (0, 0), and returns to
`IDLE`; with no report the drain FSM stays where it is. So reports alternate. -/
def Obligations.ReportsAlternatePressAndRelease : Prop :=
  ∀ s t : State, Safe s → step s = .next t → t.pins.rst = false →
    (t.out.repValid = false → t.dstate = s.dstate) ∧
    (t.out.repValid = true → s.dstate = .idle → t.dstate = .hold ∧ t.holdCnt = s.cfg.holdMs ∧
      ∃ e, t.wires.pop = some e ∧ t.out.repCode = (keymapEntry s.cfg.keymap (eventChar e)).code ∧
        t.out.repMod = (if eventShift e then s.cfg.shiftMod else 0x00)) ∧
    (t.out.repValid = true → s.dstate = .hold → t.dstate = .idle ∧ s.holdCnt = 0 ∧
      t.out.repCode = 0x00 ∧ t.out.repMod = 0x00 ∧ t.wires.pop = none)

/-- R193: a hold with `h` strobes left gives no report through the cycle of its `h`-th `ms_tick`, and a cycle that
starts with none left gives the release. -/
def Obligations.HoldLastsItsMilliseconds : Prop :=
  (∀ (n : Nat) (s : State) (ts : List State), Safe s → s.dstate = .hold → cyclesFrom n s = some ts →
    (∀ t ∈ ts, t.pins.rst = false) → ts.dropLast.countP (fun t => t.pins.msTick) < s.holdCnt.toNat →
    (∀ t ∈ ts, t.out.repValid = false ∧ t.dstate = .hold) ∧
    (lastOf s ts).holdCnt.toNat + ts.countP (fun t => t.pins.msTick) = s.holdCnt.toNat) ∧
  (∀ s t : State, Safe s → s.dstate = .hold → s.holdCnt = 0 → step s = .next t → t.pins.rst = false →
    t.out.repValid = true ∧ t.out.repCode = 0x00 ∧ t.out.repMod = 0x00 ∧ t.dstate = .idle)

/-- R188: a drain tick that arrives in `HOLD` has no effect: with it and without it the cycle ends in the same
registers and drives the same outputs, and neither pops. -/
def Obligations.DrainTickInHoldHasNoEffect : Prop :=
  ∀ (s : State) (b : Bool), Running s → InDomain s → s.dstate = .hold →
    ∃ t w, exec .cycRun s = .next t ∧ t.wires.pop = none ∧ w.pop = none ∧
      exec .cycRun { s with pins := { s.pins with drainTick := b } } =
        .next { t with pins := { t.pins with drainTick := b }, wires := w }

/-- R71, R212 and R213: the level outputs show the start-of-cycle state, a field whose strobe is 0 is 0x00,
`nomatch_o` and `char_valid_o` are never both 1, and in a reset cycle every strobe is 0. -/
def Obligations.OutputsFollowTheirStrobes : Prop :=
  ∀ s t : State, step s = .next t →
    t.out.settled = s.settled ∧ t.out.fifoCnt = s.fifoCnt ∧ t.out.stall = s.pendValid ∧
    (t.out.busy = true ↔ s.dstate = .hold) ∧
    (t.out.repValid = false → t.out.repCode = 0x00 ∧ t.out.repMod = 0x00) ∧
    (t.out.charValid = false → t.out.char = 0x00) ∧
    ¬ (t.out.noMatch = true ∧ t.out.charValid = true) ∧
    (t.pins.rst = true → t.out.repValid = false ∧ t.out.charValid = false ∧ t.out.noMatch = false ∧
      t.out.unsup = false)

/-! ### What no output shows -/

/-- R29 and R172: a FIFO entry that is not in the queue is never read. Two states that differ only in such entries run
the same cycle: the same registers outside `fifo_mem`, the same outputs, the same queue. So nothing depends on the
contents the model gives `fifo_mem` at reset (notes/assumptions/3.md and 4.md). -/
def Obligations.StaleStorageIsNotRead : Prop :=
  ∀ (s : State) (m : Vector Event 32), Running s → InDomain s → queued { s with fifoMem := m } = queued s →
    ∃ t u, exec .cycRun s = .next t ∧ exec .cycRun { s with fifoMem := m } = .next u ∧
      u = { t with fifoMem := u.fifoMem, wires := u.wires } ∧ u.wires.pop = t.wires.pop ∧ queued u = queued t

/-- R177: while nothing is held, `pend_ev` is not read. Two states that differ only in it run the same cycle, and a
stall makes even that register the same. -/
def Obligations.StalePendingEventIsNotRead : Prop :=
  ∀ (s : State) (e : Event), Running s → InDomain s → s.pendValid = false →
    ∃ t u, exec .cycRun s = .next t ∧ exec .cycRun { s with pendEv := e } = .next u ∧
      u = { t with pendEv := u.pendEv, wires := u.wires } ∧ u.wires.push = t.wires.push ∧
      (t.pendValid = true → u.pendEv = t.pendEv)

/-- R141: with the line idle and the buffer empty, `t_last` shows at no output. Two states that differ only in it run
the same cycle, and the next mark begin makes even that register the same. -/
def Obligations.IdleTimestampIsNotObservable : Prop :=
  ∀ (s : State) (x : Millis), Running s → InDomain s → s.decPrev = false → s.symIdx = 0 →
    ∃ t u, exec .cycRun s = .next t ∧ exec .cycRun { s with tLast := x } = .next u ∧
      u = { t with tLast := u.tLast, wires := u.wires } ∧ (t.decPrev = true → u.tLast = t.tLast)

/-! ### Configuration and domain -/

/-- R5: no operation changes a parameter; and nothing but the step touches the inputs or the model's own
stimulus queue and cycle number (notes/assumptions/1.md). -/
def Obligations.OperationsKeepTheConfiguration : Prop :=
  ∀ (i : Instr) (s t : State), exec i s = .next t →
    t.cfg = s.cfg ∧ t.pins = s.pins ∧ t.stim = s.stim ∧ t.cycle = s.cycle

/-- R214: the step depends on the registers, the parameters and this cycle's inputs alone, not on the ports or the
combinational values of the cycle before, which the model keeps in its state (notes/assumptions/7.md). -/
def Obligations.StepIgnoresThePreviousOutputs : Prop :=
  ∀ (s : State) (p : Inputs) (o : Outputs) (w : Wires), step { s with pins := p, out := o, wires := w } = step s

/-- R6, and the legal range of `BREAK_UNITS` in R5: a block with an illegal configuration performs nothing. That
the model builds the state and refuses at each operation is its choice (notes/assumptions/8.md). -/
def Obligations.IllegalConfigurationIsRefused : Prop :=
  ∀ (i : Instr) (s : State), s.cfg.ditMs = 0 ∨ s.cfg.breakUnits = 0 → exec i s = .refused .illegalConfig

/-- The model's choice among the treatments D31 allows (notes/assumptions/6.md): a cycle with `rst` = 0 on a state that
breaks an invariant of R33 faults, while a reset cycle is performed on any state. -/
def Obligations.StatesOutsideTheDomainFault : Prop :=
  ∀ s : State, s.cfg.legal = true → ¬ InDomain s →
    (s.pins.rst = false → exec .cycRun s = .fault .outsideDomain) ∧
    (s.pins.rst = true → ∃ t, exec .cycReset s = .next t ∧ InDomain t)
end

