-- ==== Sys2Proof/Laws/Decode.lean ====
section
/-! SUPPORT. What each format's selector word selects, as a choice over its condition bits (spec/30_encoding.md
section 5), and when an operation is selected. -/

namespace Sys2Proof.Machine

/-- Format `RST`. -/
theorem decode_rst_bits : ∀ r, decode .rst (wordOfBits [r]) = .op (if r then .cycReset else .cycRun) := by decide

/-- Format `DEB`: bits `acc`, `key_valid`, `ones`, `zeros`. -/
theorem decode_deb_bits : ∀ a k o z, decode .deb (wordOfBits [a, k, o, z]) =
    .op (if !a then .debFrozen else if !k then .debUnavail else if o then .debSet1 else if z then .debSet0
      else .debKeep) := by decide

/-- Format `DEC`: bits `L`, `P`, `le`, `ge`, `nz`, `acc`. -/
theorem decode_dec_bits : ∀ l p le ge nz a, decode .dec (wordOfBits [l, p, le, ge, nz, a]) =
    .op (if !a then .decOff
      else if p then (if l then .decMarkHold else if le then .decMarkEndDit else .decMarkEndDah)
      else if l then (if !ge then .decBeginGap else if nz then .decBeginBreak else .decBeginBreakEmpty)
      else (if !ge then .decIdleWait else if nz then .decIdleBreak else .decIdleEmpty)) := by decide

/-- Format `SYM`: bit `full`. -/
theorem decode_sym_bits : ∀ b, decode .sym (wordOfBits [b]) = .op (if b then .symEvict else .symAppend) := by decide

/-- Format `RES`: bit `hit`. -/
theorem decode_res_bits : ∀ b, decode .res (wordOfBits [b]) = .op (if b then .resMatch else .resNomatch) := by decide

/-- Format `KMAP`: bit `kv`. -/
theorem decode_kmap_bits : ∀ b, decode .kmap (wordOfBits [b]) = .op (if b then .kmapHit else .kmapMiss) := by decide

/-- Format `PROD`: bits `sample_tick`, `pend_valid`, `fifo_full`, `done`. -/
theorem decode_prod_bits : ∀ t v f d, decode .prod (wordOfBits [t, v, f, d]) =
    .op (if v then (if f then .prodPendWait else .prodPendPush)
      else if !t then .prodIdle else if !d then .prodTickNoev else if f then .prodStall else .prodEnq) := by decide

/-- Format `DRN`: bits `ds`, `drain_tick`, `fifo_empty`, `hz`, `ms_tick`, `kv`. -/
theorem decode_drn_bits : ∀ d t e z m k, decode .drn (wordOfBits [d, t, e, z, m, k]) =
    .op (if d then (if z then .drnRelease else if m then .drnHoldCount else .drnHoldWait)
      else if !t then .drnIdleWait else if e then .drnIdleEmpty else if k then .drnPopPress
      else .drnPopSkip) := by decide

/-- Format `FIFO`: bits `push`, `pop`. -/
theorem decode_fifo_bits : ∀ p q, decode .fifo (wordOfBits [p, q]) =
    .op (if p then (if q then .fifoPushPop else .fifoPush) else if q then .fifoPop else .fifoNone) := by decide

/-- Format `TB`: bit `ms_tick`. -/
theorem decode_tb_bits : ∀ m, decode .tb (wordOfBits [m]) = .op (if m then .tbCount else .tbIdle) := by decide

/-- The operation format `f` selects in state `s`, given by its condition bits (section 5). -/
def selection (f : Format) (s : State) : Instr :=
  match f with
  | .rst => if s.pins.rst then .cycReset else .cycRun
  | .deb => if !acc s then .debFrozen else if !s.pins.keyValid then .debUnavail else if srOnes s then .debSet1
      else if srZeros s then .debSet0 else .debKeep
  | .dec => if !acc s then .decOff
      else if s.decPrev then
        (if s.wires.level then .decMarkHold else if shortMark s then .decMarkEndDit else .decMarkEndDah)
      else if s.wires.level then
        (if !longGap s then .decBeginGap else if hasMarks s then .decBeginBreak else .decBeginBreakEmpty)
      else (if !longGap s then .decIdleWait else if hasMarks s then .decIdleBreak else .decIdleEmpty)
  | .sym => if bufFull s then .symEvict else .symAppend
  | .res => if wordHit s then .resMatch else .resNomatch
  | .kmap => if lookupValid s then .kmapHit else .kmapMiss
  | .prod => if s.pendValid then (if fifoFull s then .prodPendWait else .prodPendPush)
      else if !s.pins.sampleTick then .prodIdle else if !charDone s then .prodTickNoev
      else if fifoFull s then .prodStall else .prodEnq
  | .drn => if busy s then (if holdZero s then .drnRelease else if s.pins.msTick then .drnHoldCount else .drnHoldWait)
      else if !s.pins.drainTick then .drnIdleWait else if fifoEmpty s then .drnIdleEmpty
      else if headValid s then .drnPopPress else .drnPopSkip
  | .fifo => if pushing s then (if popping s then .fifoPushPop else .fifoPush)
      else if popping s then .fifoPop else .fifoNone
  | .tb => if s.pins.msTick then .tbCount else .tbIdle

/-- Every selector word the machine forms decodes to the selection by its condition bits. -/
theorem decode_selectorWord (f : Format) (s : State) : decode f (selectorWord f s) = .op (selection f s) := by
  cases f
  · exact decode_rst_bits _
  · exact decode_deb_bits _ _ _ _
  · exact decode_dec_bits _ _ _ _ _ _
  · exact decode_sym_bits _
  · exact decode_res_bits _
  · exact decode_kmap_bits _
  · exact decode_prod_bits _ _ _ _
  · exact decode_drn_bits _ _ _ _ _ _
  · exact decode_fifo_bits _ _
  · exact decode_tb_bits _

/-- An operation is selected exactly when its format is offered and selects it. -/
theorem selected_iff (i : Instr) (s : State) :
    selected i s = true ↔ offered (formatOf i) s = true ∧ selection (formatOf i) s = i := by
  simp [selected, decode_selectorWord]

end Sys2Proof.Machine
end

