-- ==== Sys2Proof/Laws/State.lean ====
section
/-! SUPPORT. One lemma per field per named update of Machine/Ops.lean: what the update writes and that it leaves every
other field alone. -/

namespace Sys2Proof.Machine

@[simp] theorem emitReport_cfg (c m : BitVec 8) (s : State) : (emitReport c m s).cfg = s.cfg := rfl
@[simp] theorem emitReport_debSr (c m : BitVec 8) (s : State) : (emitReport c m s).debSr = s.debSr := rfl
@[simp] theorem emitReport_settled (c m : BitVec 8) (s : State) : (emitReport c m s).settled = s.settled := rfl
@[simp] theorem emitReport_decPrev (c m : BitVec 8) (s : State) : (emitReport c m s).decPrev = s.decPrev := rfl
@[simp] theorem emitReport_tLast (c m : BitVec 8) (s : State) : (emitReport c m s).tLast = s.tLast := rfl
@[simp] theorem emitReport_symBuf (c m : BitVec 8) (s : State) : (emitReport c m s).symBuf = s.symBuf := rfl
@[simp] theorem emitReport_symIdx (c m : BitVec 8) (s : State) : (emitReport c m s).symIdx = s.symIdx := rfl
@[simp] theorem emitReport_fifoMem (c m : BitVec 8) (s : State) : (emitReport c m s).fifoMem = s.fifoMem := rfl
@[simp] theorem emitReport_fifoRd (c m : BitVec 8) (s : State) : (emitReport c m s).fifoRd = s.fifoRd := rfl
@[simp] theorem emitReport_fifoWr (c m : BitVec 8) (s : State) : (emitReport c m s).fifoWr = s.fifoWr := rfl
@[simp] theorem emitReport_fifoCnt (c m : BitVec 8) (s : State) : (emitReport c m s).fifoCnt = s.fifoCnt := rfl
@[simp] theorem emitReport_pendValid (c m : BitVec 8) (s : State) : (emitReport c m s).pendValid = s.pendValid := rfl
@[simp] theorem emitReport_pendEv (c m : BitVec 8) (s : State) : (emitReport c m s).pendEv = s.pendEv := rfl
@[simp] theorem emitReport_dstate (c m : BitVec 8) (s : State) : (emitReport c m s).dstate = s.dstate := rfl
@[simp] theorem emitReport_holdCnt (c m : BitVec 8) (s : State) : (emitReport c m s).holdCnt = s.holdCnt := rfl
@[simp] theorem emitReport_msCount (c m : BitVec 8) (s : State) : (emitReport c m s).msCount = s.msCount := rfl
@[simp] theorem emitReport_pins (c m : BitVec 8) (s : State) : (emitReport c m s).pins = s.pins := rfl
@[simp] theorem emitReport_out (c m : BitVec 8) (s : State) : (emitReport c m s).out = { s.out with repValid := true, repCode := c, repMod := m } := rfl
@[simp] theorem emitReport_wires (c m : BitVec 8) (s : State) : (emitReport c m s).wires = s.wires := rfl
@[simp] theorem emitReport_stim (c m : BitVec 8) (s : State) : (emitReport c m s).stim = s.stim := rfl
@[simp] theorem emitReport_cycle (c m : BitVec 8) (s : State) : (emitReport c m s).cycle = s.cycle := rfl

@[simp] theorem takeSample_cfg (s : State) : (takeSample s).cfg = s.cfg := rfl
@[simp] theorem takeSample_debSr (s : State) : (takeSample s).debSr = srNext s := rfl
@[simp] theorem takeSample_settled (s : State) : (takeSample s).settled = s.settled := rfl
@[simp] theorem takeSample_decPrev (s : State) : (takeSample s).decPrev = s.decPrev := rfl
@[simp] theorem takeSample_tLast (s : State) : (takeSample s).tLast = s.tLast := rfl
@[simp] theorem takeSample_symBuf (s : State) : (takeSample s).symBuf = s.symBuf := rfl
@[simp] theorem takeSample_symIdx (s : State) : (takeSample s).symIdx = s.symIdx := rfl
@[simp] theorem takeSample_fifoMem (s : State) : (takeSample s).fifoMem = s.fifoMem := rfl
@[simp] theorem takeSample_fifoRd (s : State) : (takeSample s).fifoRd = s.fifoRd := rfl
@[simp] theorem takeSample_fifoWr (s : State) : (takeSample s).fifoWr = s.fifoWr := rfl
@[simp] theorem takeSample_fifoCnt (s : State) : (takeSample s).fifoCnt = s.fifoCnt := rfl
@[simp] theorem takeSample_pendValid (s : State) : (takeSample s).pendValid = s.pendValid := rfl
@[simp] theorem takeSample_pendEv (s : State) : (takeSample s).pendEv = s.pendEv := rfl
@[simp] theorem takeSample_dstate (s : State) : (takeSample s).dstate = s.dstate := rfl
@[simp] theorem takeSample_holdCnt (s : State) : (takeSample s).holdCnt = s.holdCnt := rfl
@[simp] theorem takeSample_msCount (s : State) : (takeSample s).msCount = s.msCount := rfl
@[simp] theorem takeSample_pins (s : State) : (takeSample s).pins = s.pins := rfl
@[simp] theorem takeSample_out (s : State) : (takeSample s).out = s.out := rfl
@[simp] theorem takeSample_wires (s : State) : (takeSample s).wires = s.wires := rfl
@[simp] theorem takeSample_stim (s : State) : (takeSample s).stim = s.stim := rfl
@[simp] theorem takeSample_cycle (s : State) : (takeSample s).cycle = s.cycle := rfl

@[simp] theorem settle_cfg (b : Bool) (s : State) : (settle b s).cfg = s.cfg := rfl
@[simp] theorem settle_debSr (b : Bool) (s : State) : (settle b s).debSr = s.debSr := rfl
@[simp] theorem settle_settled (b : Bool) (s : State) : (settle b s).settled = b := rfl
@[simp] theorem settle_decPrev (b : Bool) (s : State) : (settle b s).decPrev = s.decPrev := rfl
@[simp] theorem settle_tLast (b : Bool) (s : State) : (settle b s).tLast = s.tLast := rfl
@[simp] theorem settle_symBuf (b : Bool) (s : State) : (settle b s).symBuf = s.symBuf := rfl
@[simp] theorem settle_symIdx (b : Bool) (s : State) : (settle b s).symIdx = s.symIdx := rfl
@[simp] theorem settle_fifoMem (b : Bool) (s : State) : (settle b s).fifoMem = s.fifoMem := rfl
@[simp] theorem settle_fifoRd (b : Bool) (s : State) : (settle b s).fifoRd = s.fifoRd := rfl
@[simp] theorem settle_fifoWr (b : Bool) (s : State) : (settle b s).fifoWr = s.fifoWr := rfl
@[simp] theorem settle_fifoCnt (b : Bool) (s : State) : (settle b s).fifoCnt = s.fifoCnt := rfl
@[simp] theorem settle_pendValid (b : Bool) (s : State) : (settle b s).pendValid = s.pendValid := rfl
@[simp] theorem settle_pendEv (b : Bool) (s : State) : (settle b s).pendEv = s.pendEv := rfl
@[simp] theorem settle_dstate (b : Bool) (s : State) : (settle b s).dstate = s.dstate := rfl
@[simp] theorem settle_holdCnt (b : Bool) (s : State) : (settle b s).holdCnt = s.holdCnt := rfl
@[simp] theorem settle_msCount (b : Bool) (s : State) : (settle b s).msCount = s.msCount := rfl
@[simp] theorem settle_pins (b : Bool) (s : State) : (settle b s).pins = s.pins := rfl
@[simp] theorem settle_out (b : Bool) (s : State) : (settle b s).out = s.out := rfl
@[simp] theorem settle_wires (b : Bool) (s : State) : (settle b s).wires = s.wires := rfl
@[simp] theorem settle_stim (b : Bool) (s : State) : (settle b s).stim = s.stim := rfl
@[simp] theorem settle_cycle (b : Bool) (s : State) : (settle b s).cycle = s.cycle := rfl

@[simp] theorem passLevel_cfg (b : Bool) (s : State) : (passLevel b s).cfg = s.cfg := rfl
@[simp] theorem passLevel_debSr (b : Bool) (s : State) : (passLevel b s).debSr = s.debSr := rfl
@[simp] theorem passLevel_settled (b : Bool) (s : State) : (passLevel b s).settled = s.settled := rfl
@[simp] theorem passLevel_decPrev (b : Bool) (s : State) : (passLevel b s).decPrev = s.decPrev := rfl
@[simp] theorem passLevel_tLast (b : Bool) (s : State) : (passLevel b s).tLast = s.tLast := rfl
@[simp] theorem passLevel_symBuf (b : Bool) (s : State) : (passLevel b s).symBuf = s.symBuf := rfl
@[simp] theorem passLevel_symIdx (b : Bool) (s : State) : (passLevel b s).symIdx = s.symIdx := rfl
@[simp] theorem passLevel_fifoMem (b : Bool) (s : State) : (passLevel b s).fifoMem = s.fifoMem := rfl
@[simp] theorem passLevel_fifoRd (b : Bool) (s : State) : (passLevel b s).fifoRd = s.fifoRd := rfl
@[simp] theorem passLevel_fifoWr (b : Bool) (s : State) : (passLevel b s).fifoWr = s.fifoWr := rfl
@[simp] theorem passLevel_fifoCnt (b : Bool) (s : State) : (passLevel b s).fifoCnt = s.fifoCnt := rfl
@[simp] theorem passLevel_pendValid (b : Bool) (s : State) : (passLevel b s).pendValid = s.pendValid := rfl
@[simp] theorem passLevel_pendEv (b : Bool) (s : State) : (passLevel b s).pendEv = s.pendEv := rfl
@[simp] theorem passLevel_dstate (b : Bool) (s : State) : (passLevel b s).dstate = s.dstate := rfl
@[simp] theorem passLevel_holdCnt (b : Bool) (s : State) : (passLevel b s).holdCnt = s.holdCnt := rfl
@[simp] theorem passLevel_msCount (b : Bool) (s : State) : (passLevel b s).msCount = s.msCount := rfl
@[simp] theorem passLevel_pins (b : Bool) (s : State) : (passLevel b s).pins = s.pins := rfl
@[simp] theorem passLevel_out (b : Bool) (s : State) : (passLevel b s).out = s.out := rfl
@[simp] theorem passLevel_wires (b : Bool) (s : State) : (passLevel b s).wires = { s.wires with level := b } := rfl
@[simp] theorem passLevel_stim (b : Bool) (s : State) : (passLevel b s).stim = s.stim := rfl
@[simp] theorem passLevel_cycle (b : Bool) (s : State) : (passLevel b s).cycle = s.cycle := rfl

@[simp] theorem offerSymbol_cfg (x : Symbol) (s : State) : (offerSymbol x s).cfg = s.cfg := rfl
@[simp] theorem offerSymbol_debSr (x : Symbol) (s : State) : (offerSymbol x s).debSr = s.debSr := rfl
@[simp] theorem offerSymbol_settled (x : Symbol) (s : State) : (offerSymbol x s).settled = s.settled := rfl
@[simp] theorem offerSymbol_decPrev (x : Symbol) (s : State) : (offerSymbol x s).decPrev = s.decPrev := rfl
@[simp] theorem offerSymbol_tLast (x : Symbol) (s : State) : (offerSymbol x s).tLast = s.tLast := rfl
@[simp] theorem offerSymbol_symBuf (x : Symbol) (s : State) : (offerSymbol x s).symBuf = s.symBuf := rfl
@[simp] theorem offerSymbol_symIdx (x : Symbol) (s : State) : (offerSymbol x s).symIdx = s.symIdx := rfl
@[simp] theorem offerSymbol_fifoMem (x : Symbol) (s : State) : (offerSymbol x s).fifoMem = s.fifoMem := rfl
@[simp] theorem offerSymbol_fifoRd (x : Symbol) (s : State) : (offerSymbol x s).fifoRd = s.fifoRd := rfl
@[simp] theorem offerSymbol_fifoWr (x : Symbol) (s : State) : (offerSymbol x s).fifoWr = s.fifoWr := rfl
@[simp] theorem offerSymbol_fifoCnt (x : Symbol) (s : State) : (offerSymbol x s).fifoCnt = s.fifoCnt := rfl
@[simp] theorem offerSymbol_pendValid (x : Symbol) (s : State) : (offerSymbol x s).pendValid = s.pendValid := rfl
@[simp] theorem offerSymbol_pendEv (x : Symbol) (s : State) : (offerSymbol x s).pendEv = s.pendEv := rfl
@[simp] theorem offerSymbol_dstate (x : Symbol) (s : State) : (offerSymbol x s).dstate = s.dstate := rfl
@[simp] theorem offerSymbol_holdCnt (x : Symbol) (s : State) : (offerSymbol x s).holdCnt = s.holdCnt := rfl
@[simp] theorem offerSymbol_msCount (x : Symbol) (s : State) : (offerSymbol x s).msCount = s.msCount := rfl
@[simp] theorem offerSymbol_pins (x : Symbol) (s : State) : (offerSymbol x s).pins = s.pins := rfl
@[simp] theorem offerSymbol_out (x : Symbol) (s : State) : (offerSymbol x s).out = s.out := rfl
@[simp] theorem offerSymbol_wires (x : Symbol) (s : State) : (offerSymbol x s).wires = { s.wires with symIn := some x } := rfl
@[simp] theorem offerSymbol_stim (x : Symbol) (s : State) : (offerSymbol x s).stim = s.stim := rfl
@[simp] theorem offerSymbol_cycle (x : Symbol) (s : State) : (offerSymbol x s).cycle = s.cycle := rfl

@[simp] theorem yieldSyms_cfg (b : Vector Symbol 6) (i : BitVec 3) (s : State) : (yieldSyms b i s).cfg = s.cfg := rfl
@[simp] theorem yieldSyms_debSr (b : Vector Symbol 6) (i : BitVec 3) (s : State) : (yieldSyms b i s).debSr = s.debSr := rfl
@[simp] theorem yieldSyms_settled (b : Vector Symbol 6) (i : BitVec 3) (s : State) : (yieldSyms b i s).settled = s.settled := rfl
@[simp] theorem yieldSyms_decPrev (b : Vector Symbol 6) (i : BitVec 3) (s : State) : (yieldSyms b i s).decPrev = s.decPrev := rfl
@[simp] theorem yieldSyms_tLast (b : Vector Symbol 6) (i : BitVec 3) (s : State) : (yieldSyms b i s).tLast = s.tLast := rfl
@[simp] theorem yieldSyms_symBuf (b : Vector Symbol 6) (i : BitVec 3) (s : State) : (yieldSyms b i s).symBuf = s.symBuf := rfl
@[simp] theorem yieldSyms_symIdx (b : Vector Symbol 6) (i : BitVec 3) (s : State) : (yieldSyms b i s).symIdx = s.symIdx := rfl
@[simp] theorem yieldSyms_fifoMem (b : Vector Symbol 6) (i : BitVec 3) (s : State) : (yieldSyms b i s).fifoMem = s.fifoMem := rfl
@[simp] theorem yieldSyms_fifoRd (b : Vector Symbol 6) (i : BitVec 3) (s : State) : (yieldSyms b i s).fifoRd = s.fifoRd := rfl
@[simp] theorem yieldSyms_fifoWr (b : Vector Symbol 6) (i : BitVec 3) (s : State) : (yieldSyms b i s).fifoWr = s.fifoWr := rfl
@[simp] theorem yieldSyms_fifoCnt (b : Vector Symbol 6) (i : BitVec 3) (s : State) : (yieldSyms b i s).fifoCnt = s.fifoCnt := rfl
@[simp] theorem yieldSyms_pendValid (b : Vector Symbol 6) (i : BitVec 3) (s : State) : (yieldSyms b i s).pendValid = s.pendValid := rfl
@[simp] theorem yieldSyms_pendEv (b : Vector Symbol 6) (i : BitVec 3) (s : State) : (yieldSyms b i s).pendEv = s.pendEv := rfl
@[simp] theorem yieldSyms_dstate (b : Vector Symbol 6) (i : BitVec 3) (s : State) : (yieldSyms b i s).dstate = s.dstate := rfl
@[simp] theorem yieldSyms_holdCnt (b : Vector Symbol 6) (i : BitVec 3) (s : State) : (yieldSyms b i s).holdCnt = s.holdCnt := rfl
@[simp] theorem yieldSyms_msCount (b : Vector Symbol 6) (i : BitVec 3) (s : State) : (yieldSyms b i s).msCount = s.msCount := rfl
@[simp] theorem yieldSyms_pins (b : Vector Symbol 6) (i : BitVec 3) (s : State) : (yieldSyms b i s).pins = s.pins := rfl
@[simp] theorem yieldSyms_out (b : Vector Symbol 6) (i : BitVec 3) (s : State) : (yieldSyms b i s).out = s.out := rfl
@[simp] theorem yieldSyms_wires (b : Vector Symbol 6) (i : BitVec 3) (s : State) : (yieldSyms b i s).wires = { s.wires with bufNext := b, idxNext := i } := rfl
@[simp] theorem yieldSyms_stim (b : Vector Symbol 6) (i : BitVec 3) (s : State) : (yieldSyms b i s).stim = s.stim := rfl
@[simp] theorem yieldSyms_cycle (b : Vector Symbol 6) (i : BitVec 3) (s : State) : (yieldSyms b i s).cycle = s.cycle := rfl

@[simp] theorem writeSyms_cfg (s : State) : (writeSyms s).cfg = s.cfg := rfl
@[simp] theorem writeSyms_debSr (s : State) : (writeSyms s).debSr = s.debSr := rfl
@[simp] theorem writeSyms_settled (s : State) : (writeSyms s).settled = s.settled := rfl
@[simp] theorem writeSyms_decPrev (s : State) : (writeSyms s).decPrev = s.decPrev := rfl
@[simp] theorem writeSyms_tLast (s : State) : (writeSyms s).tLast = s.tLast := rfl
@[simp] theorem writeSyms_symBuf (s : State) : (writeSyms s).symBuf = s.wires.bufNext := rfl
@[simp] theorem writeSyms_symIdx (s : State) : (writeSyms s).symIdx = s.wires.idxNext := rfl
@[simp] theorem writeSyms_fifoMem (s : State) : (writeSyms s).fifoMem = s.fifoMem := rfl
@[simp] theorem writeSyms_fifoRd (s : State) : (writeSyms s).fifoRd = s.fifoRd := rfl
@[simp] theorem writeSyms_fifoWr (s : State) : (writeSyms s).fifoWr = s.fifoWr := rfl
@[simp] theorem writeSyms_fifoCnt (s : State) : (writeSyms s).fifoCnt = s.fifoCnt := rfl
@[simp] theorem writeSyms_pendValid (s : State) : (writeSyms s).pendValid = s.pendValid := rfl
@[simp] theorem writeSyms_pendEv (s : State) : (writeSyms s).pendEv = s.pendEv := rfl
@[simp] theorem writeSyms_dstate (s : State) : (writeSyms s).dstate = s.dstate := rfl
@[simp] theorem writeSyms_holdCnt (s : State) : (writeSyms s).holdCnt = s.holdCnt := rfl
@[simp] theorem writeSyms_msCount (s : State) : (writeSyms s).msCount = s.msCount := rfl
@[simp] theorem writeSyms_pins (s : State) : (writeSyms s).pins = s.pins := rfl
@[simp] theorem writeSyms_out (s : State) : (writeSyms s).out = s.out := rfl
@[simp] theorem writeSyms_wires (s : State) : (writeSyms s).wires = s.wires := rfl
@[simp] theorem writeSyms_stim (s : State) : (writeSyms s).stim = s.stim := rfl
@[simp] theorem writeSyms_cycle (s : State) : (writeSyms s).cycle = s.cycle := rfl

@[simp] theorem clearSyms_cfg (s : State) : (clearSyms s).cfg = s.cfg := rfl
@[simp] theorem clearSyms_debSr (s : State) : (clearSyms s).debSr = s.debSr := rfl
@[simp] theorem clearSyms_settled (s : State) : (clearSyms s).settled = s.settled := rfl
@[simp] theorem clearSyms_decPrev (s : State) : (clearSyms s).decPrev = s.decPrev := rfl
@[simp] theorem clearSyms_tLast (s : State) : (clearSyms s).tLast = s.tLast := rfl
@[simp] theorem clearSyms_symBuf (s : State) : (clearSyms s).symBuf = emptyBuf := rfl
@[simp] theorem clearSyms_symIdx (s : State) : (clearSyms s).symIdx = 0 := rfl
@[simp] theorem clearSyms_fifoMem (s : State) : (clearSyms s).fifoMem = s.fifoMem := rfl
@[simp] theorem clearSyms_fifoRd (s : State) : (clearSyms s).fifoRd = s.fifoRd := rfl
@[simp] theorem clearSyms_fifoWr (s : State) : (clearSyms s).fifoWr = s.fifoWr := rfl
@[simp] theorem clearSyms_fifoCnt (s : State) : (clearSyms s).fifoCnt = s.fifoCnt := rfl
@[simp] theorem clearSyms_pendValid (s : State) : (clearSyms s).pendValid = s.pendValid := rfl
@[simp] theorem clearSyms_pendEv (s : State) : (clearSyms s).pendEv = s.pendEv := rfl
@[simp] theorem clearSyms_dstate (s : State) : (clearSyms s).dstate = s.dstate := rfl
@[simp] theorem clearSyms_holdCnt (s : State) : (clearSyms s).holdCnt = s.holdCnt := rfl
@[simp] theorem clearSyms_msCount (s : State) : (clearSyms s).msCount = s.msCount := rfl
@[simp] theorem clearSyms_pins (s : State) : (clearSyms s).pins = s.pins := rfl
@[simp] theorem clearSyms_out (s : State) : (clearSyms s).out = s.out := rfl
@[simp] theorem clearSyms_wires (s : State) : (clearSyms s).wires = s.wires := rfl
@[simp] theorem clearSyms_stim (s : State) : (clearSyms s).stim = s.stim := rfl
@[simp] theorem clearSyms_cycle (s : State) : (clearSyms s).cycle = s.cycle := rfl

@[simp] theorem offerWord_cfg (w : SymWord) (s : State) : (offerWord w s).cfg = s.cfg := rfl
@[simp] theorem offerWord_debSr (w : SymWord) (s : State) : (offerWord w s).debSr = s.debSr := rfl
@[simp] theorem offerWord_settled (w : SymWord) (s : State) : (offerWord w s).settled = s.settled := rfl
@[simp] theorem offerWord_decPrev (w : SymWord) (s : State) : (offerWord w s).decPrev = s.decPrev := rfl
@[simp] theorem offerWord_tLast (w : SymWord) (s : State) : (offerWord w s).tLast = s.tLast := rfl
@[simp] theorem offerWord_symBuf (w : SymWord) (s : State) : (offerWord w s).symBuf = s.symBuf := rfl
@[simp] theorem offerWord_symIdx (w : SymWord) (s : State) : (offerWord w s).symIdx = s.symIdx := rfl
@[simp] theorem offerWord_fifoMem (w : SymWord) (s : State) : (offerWord w s).fifoMem = s.fifoMem := rfl
@[simp] theorem offerWord_fifoRd (w : SymWord) (s : State) : (offerWord w s).fifoRd = s.fifoRd := rfl
@[simp] theorem offerWord_fifoWr (w : SymWord) (s : State) : (offerWord w s).fifoWr = s.fifoWr := rfl
@[simp] theorem offerWord_fifoCnt (w : SymWord) (s : State) : (offerWord w s).fifoCnt = s.fifoCnt := rfl
@[simp] theorem offerWord_pendValid (w : SymWord) (s : State) : (offerWord w s).pendValid = s.pendValid := rfl
@[simp] theorem offerWord_pendEv (w : SymWord) (s : State) : (offerWord w s).pendEv = s.pendEv := rfl
@[simp] theorem offerWord_dstate (w : SymWord) (s : State) : (offerWord w s).dstate = s.dstate := rfl
@[simp] theorem offerWord_holdCnt (w : SymWord) (s : State) : (offerWord w s).holdCnt = s.holdCnt := rfl
@[simp] theorem offerWord_msCount (w : SymWord) (s : State) : (offerWord w s).msCount = s.msCount := rfl
@[simp] theorem offerWord_pins (w : SymWord) (s : State) : (offerWord w s).pins = s.pins := rfl
@[simp] theorem offerWord_out (w : SymWord) (s : State) : (offerWord w s).out = s.out := rfl
@[simp] theorem offerWord_wires (w : SymWord) (s : State) : (offerWord w s).wires = { s.wires with resIn := some w } := rfl
@[simp] theorem offerWord_stim (w : SymWord) (s : State) : (offerWord w s).stim = s.stim := rfl
@[simp] theorem offerWord_cycle (w : SymWord) (s : State) : (offerWord w s).cycle = s.cycle := rfl

@[simp] theorem completeChar_cfg (c : Char8) (s : State) : (completeChar c s).cfg = s.cfg := rfl
@[simp] theorem completeChar_debSr (c : Char8) (s : State) : (completeChar c s).debSr = s.debSr := rfl
@[simp] theorem completeChar_settled (c : Char8) (s : State) : (completeChar c s).settled = s.settled := rfl
@[simp] theorem completeChar_decPrev (c : Char8) (s : State) : (completeChar c s).decPrev = s.decPrev := rfl
@[simp] theorem completeChar_tLast (c : Char8) (s : State) : (completeChar c s).tLast = s.tLast := rfl
@[simp] theorem completeChar_symBuf (c : Char8) (s : State) : (completeChar c s).symBuf = s.symBuf := rfl
@[simp] theorem completeChar_symIdx (c : Char8) (s : State) : (completeChar c s).symIdx = s.symIdx := rfl
@[simp] theorem completeChar_fifoMem (c : Char8) (s : State) : (completeChar c s).fifoMem = s.fifoMem := rfl
@[simp] theorem completeChar_fifoRd (c : Char8) (s : State) : (completeChar c s).fifoRd = s.fifoRd := rfl
@[simp] theorem completeChar_fifoWr (c : Char8) (s : State) : (completeChar c s).fifoWr = s.fifoWr := rfl
@[simp] theorem completeChar_fifoCnt (c : Char8) (s : State) : (completeChar c s).fifoCnt = s.fifoCnt := rfl
@[simp] theorem completeChar_pendValid (c : Char8) (s : State) : (completeChar c s).pendValid = s.pendValid := rfl
@[simp] theorem completeChar_pendEv (c : Char8) (s : State) : (completeChar c s).pendEv = s.pendEv := rfl
@[simp] theorem completeChar_dstate (c : Char8) (s : State) : (completeChar c s).dstate = s.dstate := rfl
@[simp] theorem completeChar_holdCnt (c : Char8) (s : State) : (completeChar c s).holdCnt = s.holdCnt := rfl
@[simp] theorem completeChar_msCount (c : Char8) (s : State) : (completeChar c s).msCount = s.msCount := rfl
@[simp] theorem completeChar_pins (c : Char8) (s : State) : (completeChar c s).pins = s.pins := rfl
@[simp] theorem completeChar_out (c : Char8) (s : State) : (completeChar c s).out = { s.out with charValid := true, char := c } := rfl
@[simp] theorem completeChar_wires (c : Char8) (s : State) : (completeChar c s).wires = { s.wires with done := some c } := rfl
@[simp] theorem completeChar_stim (c : Char8) (s : State) : (completeChar c s).stim = s.stim := rfl
@[simp] theorem completeChar_cycle (c : Char8) (s : State) : (completeChar c s).cycle = s.cycle := rfl

@[simp] theorem completeNone_cfg (s : State) : (completeNone s).cfg = s.cfg := rfl
@[simp] theorem completeNone_debSr (s : State) : (completeNone s).debSr = s.debSr := rfl
@[simp] theorem completeNone_settled (s : State) : (completeNone s).settled = s.settled := rfl
@[simp] theorem completeNone_decPrev (s : State) : (completeNone s).decPrev = s.decPrev := rfl
@[simp] theorem completeNone_tLast (s : State) : (completeNone s).tLast = s.tLast := rfl
@[simp] theorem completeNone_symBuf (s : State) : (completeNone s).symBuf = s.symBuf := rfl
@[simp] theorem completeNone_symIdx (s : State) : (completeNone s).symIdx = s.symIdx := rfl
@[simp] theorem completeNone_fifoMem (s : State) : (completeNone s).fifoMem = s.fifoMem := rfl
@[simp] theorem completeNone_fifoRd (s : State) : (completeNone s).fifoRd = s.fifoRd := rfl
@[simp] theorem completeNone_fifoWr (s : State) : (completeNone s).fifoWr = s.fifoWr := rfl
@[simp] theorem completeNone_fifoCnt (s : State) : (completeNone s).fifoCnt = s.fifoCnt := rfl
@[simp] theorem completeNone_pendValid (s : State) : (completeNone s).pendValid = s.pendValid := rfl
@[simp] theorem completeNone_pendEv (s : State) : (completeNone s).pendEv = s.pendEv := rfl
@[simp] theorem completeNone_dstate (s : State) : (completeNone s).dstate = s.dstate := rfl
@[simp] theorem completeNone_holdCnt (s : State) : (completeNone s).holdCnt = s.holdCnt := rfl
@[simp] theorem completeNone_msCount (s : State) : (completeNone s).msCount = s.msCount := rfl
@[simp] theorem completeNone_pins (s : State) : (completeNone s).pins = s.pins := rfl
@[simp] theorem completeNone_out (s : State) : (completeNone s).out = s.out := rfl
@[simp] theorem completeNone_wires (s : State) : (completeNone s).wires = { s.wires with done := none } := rfl
@[simp] theorem completeNone_stim (s : State) : (completeNone s).stim = s.stim := rfl
@[simp] theorem completeNone_cycle (s : State) : (completeNone s).cycle = s.cycle := rfl

@[simp] theorem markEdge_cfg (s : State) : (markEdge s).cfg = s.cfg := rfl
@[simp] theorem markEdge_debSr (s : State) : (markEdge s).debSr = s.debSr := rfl
@[simp] theorem markEdge_settled (s : State) : (markEdge s).settled = s.settled := rfl
@[simp] theorem markEdge_decPrev (s : State) : (markEdge s).decPrev = s.decPrev := rfl
@[simp] theorem markEdge_tLast (s : State) : (markEdge s).tLast = s.msCount := rfl
@[simp] theorem markEdge_symBuf (s : State) : (markEdge s).symBuf = s.symBuf := rfl
@[simp] theorem markEdge_symIdx (s : State) : (markEdge s).symIdx = s.symIdx := rfl
@[simp] theorem markEdge_fifoMem (s : State) : (markEdge s).fifoMem = s.fifoMem := rfl
@[simp] theorem markEdge_fifoRd (s : State) : (markEdge s).fifoRd = s.fifoRd := rfl
@[simp] theorem markEdge_fifoWr (s : State) : (markEdge s).fifoWr = s.fifoWr := rfl
@[simp] theorem markEdge_fifoCnt (s : State) : (markEdge s).fifoCnt = s.fifoCnt := rfl
@[simp] theorem markEdge_pendValid (s : State) : (markEdge s).pendValid = s.pendValid := rfl
@[simp] theorem markEdge_pendEv (s : State) : (markEdge s).pendEv = s.pendEv := rfl
@[simp] theorem markEdge_dstate (s : State) : (markEdge s).dstate = s.dstate := rfl
@[simp] theorem markEdge_holdCnt (s : State) : (markEdge s).holdCnt = s.holdCnt := rfl
@[simp] theorem markEdge_msCount (s : State) : (markEdge s).msCount = s.msCount := rfl
@[simp] theorem markEdge_pins (s : State) : (markEdge s).pins = s.pins := rfl
@[simp] theorem markEdge_out (s : State) : (markEdge s).out = s.out := rfl
@[simp] theorem markEdge_wires (s : State) : (markEdge s).wires = s.wires := rfl
@[simp] theorem markEdge_stim (s : State) : (markEdge s).stim = s.stim := rfl
@[simp] theorem markEdge_cycle (s : State) : (markEdge s).cycle = s.cycle := rfl

@[simp] theorem seeLevel_cfg (b : Bool) (s : State) : (seeLevel b s).cfg = s.cfg := rfl
@[simp] theorem seeLevel_debSr (b : Bool) (s : State) : (seeLevel b s).debSr = s.debSr := rfl
@[simp] theorem seeLevel_settled (b : Bool) (s : State) : (seeLevel b s).settled = s.settled := rfl
@[simp] theorem seeLevel_decPrev (b : Bool) (s : State) : (seeLevel b s).decPrev = b := rfl
@[simp] theorem seeLevel_tLast (b : Bool) (s : State) : (seeLevel b s).tLast = s.tLast := rfl
@[simp] theorem seeLevel_symBuf (b : Bool) (s : State) : (seeLevel b s).symBuf = s.symBuf := rfl
@[simp] theorem seeLevel_symIdx (b : Bool) (s : State) : (seeLevel b s).symIdx = s.symIdx := rfl
@[simp] theorem seeLevel_fifoMem (b : Bool) (s : State) : (seeLevel b s).fifoMem = s.fifoMem := rfl
@[simp] theorem seeLevel_fifoRd (b : Bool) (s : State) : (seeLevel b s).fifoRd = s.fifoRd := rfl
@[simp] theorem seeLevel_fifoWr (b : Bool) (s : State) : (seeLevel b s).fifoWr = s.fifoWr := rfl
@[simp] theorem seeLevel_fifoCnt (b : Bool) (s : State) : (seeLevel b s).fifoCnt = s.fifoCnt := rfl
@[simp] theorem seeLevel_pendValid (b : Bool) (s : State) : (seeLevel b s).pendValid = s.pendValid := rfl
@[simp] theorem seeLevel_pendEv (b : Bool) (s : State) : (seeLevel b s).pendEv = s.pendEv := rfl
@[simp] theorem seeLevel_dstate (b : Bool) (s : State) : (seeLevel b s).dstate = s.dstate := rfl
@[simp] theorem seeLevel_holdCnt (b : Bool) (s : State) : (seeLevel b s).holdCnt = s.holdCnt := rfl
@[simp] theorem seeLevel_msCount (b : Bool) (s : State) : (seeLevel b s).msCount = s.msCount := rfl
@[simp] theorem seeLevel_pins (b : Bool) (s : State) : (seeLevel b s).pins = s.pins := rfl
@[simp] theorem seeLevel_out (b : Bool) (s : State) : (seeLevel b s).out = s.out := rfl
@[simp] theorem seeLevel_wires (b : Bool) (s : State) : (seeLevel b s).wires = s.wires := rfl
@[simp] theorem seeLevel_stim (b : Bool) (s : State) : (seeLevel b s).stim = s.stim := rfl
@[simp] theorem seeLevel_cycle (b : Bool) (s : State) : (seeLevel b s).cycle = s.cycle := rfl

@[simp] theorem requestPush_cfg (e : Event) (s : State) : (requestPush e s).cfg = s.cfg := rfl
@[simp] theorem requestPush_debSr (e : Event) (s : State) : (requestPush e s).debSr = s.debSr := rfl
@[simp] theorem requestPush_settled (e : Event) (s : State) : (requestPush e s).settled = s.settled := rfl
@[simp] theorem requestPush_decPrev (e : Event) (s : State) : (requestPush e s).decPrev = s.decPrev := rfl
@[simp] theorem requestPush_tLast (e : Event) (s : State) : (requestPush e s).tLast = s.tLast := rfl
@[simp] theorem requestPush_symBuf (e : Event) (s : State) : (requestPush e s).symBuf = s.symBuf := rfl
@[simp] theorem requestPush_symIdx (e : Event) (s : State) : (requestPush e s).symIdx = s.symIdx := rfl
@[simp] theorem requestPush_fifoMem (e : Event) (s : State) : (requestPush e s).fifoMem = s.fifoMem := rfl
@[simp] theorem requestPush_fifoRd (e : Event) (s : State) : (requestPush e s).fifoRd = s.fifoRd := rfl
@[simp] theorem requestPush_fifoWr (e : Event) (s : State) : (requestPush e s).fifoWr = s.fifoWr := rfl
@[simp] theorem requestPush_fifoCnt (e : Event) (s : State) : (requestPush e s).fifoCnt = s.fifoCnt := rfl
@[simp] theorem requestPush_pendValid (e : Event) (s : State) : (requestPush e s).pendValid = s.pendValid := rfl
@[simp] theorem requestPush_pendEv (e : Event) (s : State) : (requestPush e s).pendEv = s.pendEv := rfl
@[simp] theorem requestPush_dstate (e : Event) (s : State) : (requestPush e s).dstate = s.dstate := rfl
@[simp] theorem requestPush_holdCnt (e : Event) (s : State) : (requestPush e s).holdCnt = s.holdCnt := rfl
@[simp] theorem requestPush_msCount (e : Event) (s : State) : (requestPush e s).msCount = s.msCount := rfl
@[simp] theorem requestPush_pins (e : Event) (s : State) : (requestPush e s).pins = s.pins := rfl
@[simp] theorem requestPush_out (e : Event) (s : State) : (requestPush e s).out = s.out := rfl
@[simp] theorem requestPush_wires (e : Event) (s : State) : (requestPush e s).wires = { s.wires with push := some e } := rfl
@[simp] theorem requestPush_stim (e : Event) (s : State) : (requestPush e s).stim = s.stim := rfl
@[simp] theorem requestPush_cycle (e : Event) (s : State) : (requestPush e s).cycle = s.cycle := rfl

@[simp] theorem holdEvent_cfg (e : Event) (s : State) : (holdEvent e s).cfg = s.cfg := rfl
@[simp] theorem holdEvent_debSr (e : Event) (s : State) : (holdEvent e s).debSr = s.debSr := rfl
@[simp] theorem holdEvent_settled (e : Event) (s : State) : (holdEvent e s).settled = s.settled := rfl
@[simp] theorem holdEvent_decPrev (e : Event) (s : State) : (holdEvent e s).decPrev = s.decPrev := rfl
@[simp] theorem holdEvent_tLast (e : Event) (s : State) : (holdEvent e s).tLast = s.tLast := rfl
@[simp] theorem holdEvent_symBuf (e : Event) (s : State) : (holdEvent e s).symBuf = s.symBuf := rfl
@[simp] theorem holdEvent_symIdx (e : Event) (s : State) : (holdEvent e s).symIdx = s.symIdx := rfl
@[simp] theorem holdEvent_fifoMem (e : Event) (s : State) : (holdEvent e s).fifoMem = s.fifoMem := rfl
@[simp] theorem holdEvent_fifoRd (e : Event) (s : State) : (holdEvent e s).fifoRd = s.fifoRd := rfl
@[simp] theorem holdEvent_fifoWr (e : Event) (s : State) : (holdEvent e s).fifoWr = s.fifoWr := rfl
@[simp] theorem holdEvent_fifoCnt (e : Event) (s : State) : (holdEvent e s).fifoCnt = s.fifoCnt := rfl
@[simp] theorem holdEvent_pendValid (e : Event) (s : State) : (holdEvent e s).pendValid = true := rfl
@[simp] theorem holdEvent_pendEv (e : Event) (s : State) : (holdEvent e s).pendEv = e := rfl
@[simp] theorem holdEvent_dstate (e : Event) (s : State) : (holdEvent e s).dstate = s.dstate := rfl
@[simp] theorem holdEvent_holdCnt (e : Event) (s : State) : (holdEvent e s).holdCnt = s.holdCnt := rfl
@[simp] theorem holdEvent_msCount (e : Event) (s : State) : (holdEvent e s).msCount = s.msCount := rfl
@[simp] theorem holdEvent_pins (e : Event) (s : State) : (holdEvent e s).pins = s.pins := rfl
@[simp] theorem holdEvent_out (e : Event) (s : State) : (holdEvent e s).out = s.out := rfl
@[simp] theorem holdEvent_wires (e : Event) (s : State) : (holdEvent e s).wires = s.wires := rfl
@[simp] theorem holdEvent_stim (e : Event) (s : State) : (holdEvent e s).stim = s.stim := rfl
@[simp] theorem holdEvent_cycle (e : Event) (s : State) : (holdEvent e s).cycle = s.cycle := rfl

@[simp] theorem resumeProducer_cfg (s : State) : (resumeProducer s).cfg = s.cfg := rfl
@[simp] theorem resumeProducer_debSr (s : State) : (resumeProducer s).debSr = s.debSr := rfl
@[simp] theorem resumeProducer_settled (s : State) : (resumeProducer s).settled = s.settled := rfl
@[simp] theorem resumeProducer_decPrev (s : State) : (resumeProducer s).decPrev = s.decPrev := rfl
@[simp] theorem resumeProducer_tLast (s : State) : (resumeProducer s).tLast = s.tLast := rfl
@[simp] theorem resumeProducer_symBuf (s : State) : (resumeProducer s).symBuf = s.symBuf := rfl
@[simp] theorem resumeProducer_symIdx (s : State) : (resumeProducer s).symIdx = s.symIdx := rfl
@[simp] theorem resumeProducer_fifoMem (s : State) : (resumeProducer s).fifoMem = s.fifoMem := rfl
@[simp] theorem resumeProducer_fifoRd (s : State) : (resumeProducer s).fifoRd = s.fifoRd := rfl
@[simp] theorem resumeProducer_fifoWr (s : State) : (resumeProducer s).fifoWr = s.fifoWr := rfl
@[simp] theorem resumeProducer_fifoCnt (s : State) : (resumeProducer s).fifoCnt = s.fifoCnt := rfl
@[simp] theorem resumeProducer_pendValid (s : State) : (resumeProducer s).pendValid = false := rfl
@[simp] theorem resumeProducer_pendEv (s : State) : (resumeProducer s).pendEv = s.pendEv := rfl
@[simp] theorem resumeProducer_dstate (s : State) : (resumeProducer s).dstate = s.dstate := rfl
@[simp] theorem resumeProducer_holdCnt (s : State) : (resumeProducer s).holdCnt = s.holdCnt := rfl
@[simp] theorem resumeProducer_msCount (s : State) : (resumeProducer s).msCount = s.msCount := rfl
@[simp] theorem resumeProducer_pins (s : State) : (resumeProducer s).pins = s.pins := rfl
@[simp] theorem resumeProducer_out (s : State) : (resumeProducer s).out = s.out := rfl
@[simp] theorem resumeProducer_wires (s : State) : (resumeProducer s).wires = s.wires := rfl
@[simp] theorem resumeProducer_stim (s : State) : (resumeProducer s).stim = s.stim := rfl
@[simp] theorem resumeProducer_cycle (s : State) : (resumeProducer s).cycle = s.cycle := rfl

@[simp] theorem requestPop_cfg (s : State) : (requestPop s).cfg = s.cfg := rfl
@[simp] theorem requestPop_debSr (s : State) : (requestPop s).debSr = s.debSr := rfl
@[simp] theorem requestPop_settled (s : State) : (requestPop s).settled = s.settled := rfl
@[simp] theorem requestPop_decPrev (s : State) : (requestPop s).decPrev = s.decPrev := rfl
@[simp] theorem requestPop_tLast (s : State) : (requestPop s).tLast = s.tLast := rfl
@[simp] theorem requestPop_symBuf (s : State) : (requestPop s).symBuf = s.symBuf := rfl
@[simp] theorem requestPop_symIdx (s : State) : (requestPop s).symIdx = s.symIdx := rfl
@[simp] theorem requestPop_fifoMem (s : State) : (requestPop s).fifoMem = s.fifoMem := rfl
@[simp] theorem requestPop_fifoRd (s : State) : (requestPop s).fifoRd = s.fifoRd := rfl
@[simp] theorem requestPop_fifoWr (s : State) : (requestPop s).fifoWr = s.fifoWr := rfl
@[simp] theorem requestPop_fifoCnt (s : State) : (requestPop s).fifoCnt = s.fifoCnt := rfl
@[simp] theorem requestPop_pendValid (s : State) : (requestPop s).pendValid = s.pendValid := rfl
@[simp] theorem requestPop_pendEv (s : State) : (requestPop s).pendEv = s.pendEv := rfl
@[simp] theorem requestPop_dstate (s : State) : (requestPop s).dstate = s.dstate := rfl
@[simp] theorem requestPop_holdCnt (s : State) : (requestPop s).holdCnt = s.holdCnt := rfl
@[simp] theorem requestPop_msCount (s : State) : (requestPop s).msCount = s.msCount := rfl
@[simp] theorem requestPop_pins (s : State) : (requestPop s).pins = s.pins := rfl
@[simp] theorem requestPop_out (s : State) : (requestPop s).out = s.out := rfl
@[simp] theorem requestPop_wires (s : State) : (requestPop s).wires = { s.wires with pop := some (fifoHead s) } := rfl
@[simp] theorem requestPop_stim (s : State) : (requestPop s).stim = s.stim := rfl
@[simp] theorem requestPop_cycle (s : State) : (requestPop s).cycle = s.cycle := rfl

@[simp] theorem offerChar_cfg (c : Char8) (s : State) : (offerChar c s).cfg = s.cfg := rfl
@[simp] theorem offerChar_debSr (c : Char8) (s : State) : (offerChar c s).debSr = s.debSr := rfl
@[simp] theorem offerChar_settled (c : Char8) (s : State) : (offerChar c s).settled = s.settled := rfl
@[simp] theorem offerChar_decPrev (c : Char8) (s : State) : (offerChar c s).decPrev = s.decPrev := rfl
@[simp] theorem offerChar_tLast (c : Char8) (s : State) : (offerChar c s).tLast = s.tLast := rfl
@[simp] theorem offerChar_symBuf (c : Char8) (s : State) : (offerChar c s).symBuf = s.symBuf := rfl
@[simp] theorem offerChar_symIdx (c : Char8) (s : State) : (offerChar c s).symIdx = s.symIdx := rfl
@[simp] theorem offerChar_fifoMem (c : Char8) (s : State) : (offerChar c s).fifoMem = s.fifoMem := rfl
@[simp] theorem offerChar_fifoRd (c : Char8) (s : State) : (offerChar c s).fifoRd = s.fifoRd := rfl
@[simp] theorem offerChar_fifoWr (c : Char8) (s : State) : (offerChar c s).fifoWr = s.fifoWr := rfl
@[simp] theorem offerChar_fifoCnt (c : Char8) (s : State) : (offerChar c s).fifoCnt = s.fifoCnt := rfl
@[simp] theorem offerChar_pendValid (c : Char8) (s : State) : (offerChar c s).pendValid = s.pendValid := rfl
@[simp] theorem offerChar_pendEv (c : Char8) (s : State) : (offerChar c s).pendEv = s.pendEv := rfl
@[simp] theorem offerChar_dstate (c : Char8) (s : State) : (offerChar c s).dstate = s.dstate := rfl
@[simp] theorem offerChar_holdCnt (c : Char8) (s : State) : (offerChar c s).holdCnt = s.holdCnt := rfl
@[simp] theorem offerChar_msCount (c : Char8) (s : State) : (offerChar c s).msCount = s.msCount := rfl
@[simp] theorem offerChar_pins (c : Char8) (s : State) : (offerChar c s).pins = s.pins := rfl
@[simp] theorem offerChar_out (c : Char8) (s : State) : (offerChar c s).out = s.out := rfl
@[simp] theorem offerChar_wires (c : Char8) (s : State) : (offerChar c s).wires = { s.wires with lookup := some c } := rfl
@[simp] theorem offerChar_stim (c : Char8) (s : State) : (offerChar c s).stim = s.stim := rfl
@[simp] theorem offerChar_cycle (c : Char8) (s : State) : (offerChar c s).cycle = s.cycle := rfl

@[simp] theorem yieldCode_cfg (o : Option (BitVec 8)) (s : State) : (yieldCode o s).cfg = s.cfg := rfl
@[simp] theorem yieldCode_debSr (o : Option (BitVec 8)) (s : State) : (yieldCode o s).debSr = s.debSr := rfl
@[simp] theorem yieldCode_settled (o : Option (BitVec 8)) (s : State) : (yieldCode o s).settled = s.settled := rfl
@[simp] theorem yieldCode_decPrev (o : Option (BitVec 8)) (s : State) : (yieldCode o s).decPrev = s.decPrev := rfl
@[simp] theorem yieldCode_tLast (o : Option (BitVec 8)) (s : State) : (yieldCode o s).tLast = s.tLast := rfl
@[simp] theorem yieldCode_symBuf (o : Option (BitVec 8)) (s : State) : (yieldCode o s).symBuf = s.symBuf := rfl
@[simp] theorem yieldCode_symIdx (o : Option (BitVec 8)) (s : State) : (yieldCode o s).symIdx = s.symIdx := rfl
@[simp] theorem yieldCode_fifoMem (o : Option (BitVec 8)) (s : State) : (yieldCode o s).fifoMem = s.fifoMem := rfl
@[simp] theorem yieldCode_fifoRd (o : Option (BitVec 8)) (s : State) : (yieldCode o s).fifoRd = s.fifoRd := rfl
@[simp] theorem yieldCode_fifoWr (o : Option (BitVec 8)) (s : State) : (yieldCode o s).fifoWr = s.fifoWr := rfl
@[simp] theorem yieldCode_fifoCnt (o : Option (BitVec 8)) (s : State) : (yieldCode o s).fifoCnt = s.fifoCnt := rfl
@[simp] theorem yieldCode_pendValid (o : Option (BitVec 8)) (s : State) : (yieldCode o s).pendValid = s.pendValid := rfl
@[simp] theorem yieldCode_pendEv (o : Option (BitVec 8)) (s : State) : (yieldCode o s).pendEv = s.pendEv := rfl
@[simp] theorem yieldCode_dstate (o : Option (BitVec 8)) (s : State) : (yieldCode o s).dstate = s.dstate := rfl
@[simp] theorem yieldCode_holdCnt (o : Option (BitVec 8)) (s : State) : (yieldCode o s).holdCnt = s.holdCnt := rfl
@[simp] theorem yieldCode_msCount (o : Option (BitVec 8)) (s : State) : (yieldCode o s).msCount = s.msCount := rfl
@[simp] theorem yieldCode_pins (o : Option (BitVec 8)) (s : State) : (yieldCode o s).pins = s.pins := rfl
@[simp] theorem yieldCode_out (o : Option (BitVec 8)) (s : State) : (yieldCode o s).out = s.out := rfl
@[simp] theorem yieldCode_wires (o : Option (BitVec 8)) (s : State) : (yieldCode o s).wires = { s.wires with code := o } := rfl
@[simp] theorem yieldCode_stim (o : Option (BitVec 8)) (s : State) : (yieldCode o s).stim = s.stim := rfl
@[simp] theorem yieldCode_cycle (o : Option (BitVec 8)) (s : State) : (yieldCode o s).cycle = s.cycle := rfl

@[simp] theorem startHold_cfg (s : State) : (startHold s).cfg = s.cfg := rfl
@[simp] theorem startHold_debSr (s : State) : (startHold s).debSr = s.debSr := rfl
@[simp] theorem startHold_settled (s : State) : (startHold s).settled = s.settled := rfl
@[simp] theorem startHold_decPrev (s : State) : (startHold s).decPrev = s.decPrev := rfl
@[simp] theorem startHold_tLast (s : State) : (startHold s).tLast = s.tLast := rfl
@[simp] theorem startHold_symBuf (s : State) : (startHold s).symBuf = s.symBuf := rfl
@[simp] theorem startHold_symIdx (s : State) : (startHold s).symIdx = s.symIdx := rfl
@[simp] theorem startHold_fifoMem (s : State) : (startHold s).fifoMem = s.fifoMem := rfl
@[simp] theorem startHold_fifoRd (s : State) : (startHold s).fifoRd = s.fifoRd := rfl
@[simp] theorem startHold_fifoWr (s : State) : (startHold s).fifoWr = s.fifoWr := rfl
@[simp] theorem startHold_fifoCnt (s : State) : (startHold s).fifoCnt = s.fifoCnt := rfl
@[simp] theorem startHold_pendValid (s : State) : (startHold s).pendValid = s.pendValid := rfl
@[simp] theorem startHold_pendEv (s : State) : (startHold s).pendEv = s.pendEv := rfl
@[simp] theorem startHold_dstate (s : State) : (startHold s).dstate = .hold := rfl
@[simp] theorem startHold_holdCnt (s : State) : (startHold s).holdCnt = s.cfg.holdMs := rfl
@[simp] theorem startHold_msCount (s : State) : (startHold s).msCount = s.msCount := rfl
@[simp] theorem startHold_pins (s : State) : (startHold s).pins = s.pins := rfl
@[simp] theorem startHold_out (s : State) : (startHold s).out = s.out := rfl
@[simp] theorem startHold_wires (s : State) : (startHold s).wires = s.wires := rfl
@[simp] theorem startHold_stim (s : State) : (startHold s).stim = s.stim := rfl
@[simp] theorem startHold_cycle (s : State) : (startHold s).cycle = s.cycle := rfl

@[simp] theorem countHold_cfg (s : State) : (countHold s).cfg = s.cfg := rfl
@[simp] theorem countHold_debSr (s : State) : (countHold s).debSr = s.debSr := rfl
@[simp] theorem countHold_settled (s : State) : (countHold s).settled = s.settled := rfl
@[simp] theorem countHold_decPrev (s : State) : (countHold s).decPrev = s.decPrev := rfl
@[simp] theorem countHold_tLast (s : State) : (countHold s).tLast = s.tLast := rfl
@[simp] theorem countHold_symBuf (s : State) : (countHold s).symBuf = s.symBuf := rfl
@[simp] theorem countHold_symIdx (s : State) : (countHold s).symIdx = s.symIdx := rfl
@[simp] theorem countHold_fifoMem (s : State) : (countHold s).fifoMem = s.fifoMem := rfl
@[simp] theorem countHold_fifoRd (s : State) : (countHold s).fifoRd = s.fifoRd := rfl
@[simp] theorem countHold_fifoWr (s : State) : (countHold s).fifoWr = s.fifoWr := rfl
@[simp] theorem countHold_fifoCnt (s : State) : (countHold s).fifoCnt = s.fifoCnt := rfl
@[simp] theorem countHold_pendValid (s : State) : (countHold s).pendValid = s.pendValid := rfl
@[simp] theorem countHold_pendEv (s : State) : (countHold s).pendEv = s.pendEv := rfl
@[simp] theorem countHold_dstate (s : State) : (countHold s).dstate = s.dstate := rfl
@[simp] theorem countHold_holdCnt (s : State) : (countHold s).holdCnt = s.holdCnt - 1 := rfl
@[simp] theorem countHold_msCount (s : State) : (countHold s).msCount = s.msCount := rfl
@[simp] theorem countHold_pins (s : State) : (countHold s).pins = s.pins := rfl
@[simp] theorem countHold_out (s : State) : (countHold s).out = s.out := rfl
@[simp] theorem countHold_wires (s : State) : (countHold s).wires = s.wires := rfl
@[simp] theorem countHold_stim (s : State) : (countHold s).stim = s.stim := rfl
@[simp] theorem countHold_cycle (s : State) : (countHold s).cycle = s.cycle := rfl

@[simp] theorem endHold_cfg (s : State) : (endHold s).cfg = s.cfg := rfl
@[simp] theorem endHold_debSr (s : State) : (endHold s).debSr = s.debSr := rfl
@[simp] theorem endHold_settled (s : State) : (endHold s).settled = s.settled := rfl
@[simp] theorem endHold_decPrev (s : State) : (endHold s).decPrev = s.decPrev := rfl
@[simp] theorem endHold_tLast (s : State) : (endHold s).tLast = s.tLast := rfl
@[simp] theorem endHold_symBuf (s : State) : (endHold s).symBuf = s.symBuf := rfl
@[simp] theorem endHold_symIdx (s : State) : (endHold s).symIdx = s.symIdx := rfl
@[simp] theorem endHold_fifoMem (s : State) : (endHold s).fifoMem = s.fifoMem := rfl
@[simp] theorem endHold_fifoRd (s : State) : (endHold s).fifoRd = s.fifoRd := rfl
@[simp] theorem endHold_fifoWr (s : State) : (endHold s).fifoWr = s.fifoWr := rfl
@[simp] theorem endHold_fifoCnt (s : State) : (endHold s).fifoCnt = s.fifoCnt := rfl
@[simp] theorem endHold_pendValid (s : State) : (endHold s).pendValid = s.pendValid := rfl
@[simp] theorem endHold_pendEv (s : State) : (endHold s).pendEv = s.pendEv := rfl
@[simp] theorem endHold_dstate (s : State) : (endHold s).dstate = .idle := rfl
@[simp] theorem endHold_holdCnt (s : State) : (endHold s).holdCnt = s.holdCnt := rfl
@[simp] theorem endHold_msCount (s : State) : (endHold s).msCount = s.msCount := rfl
@[simp] theorem endHold_pins (s : State) : (endHold s).pins = s.pins := rfl
@[simp] theorem endHold_out (s : State) : (endHold s).out = s.out := rfl
@[simp] theorem endHold_wires (s : State) : (endHold s).wires = s.wires := rfl
@[simp] theorem endHold_stim (s : State) : (endHold s).stim = s.stim := rfl
@[simp] theorem endHold_cycle (s : State) : (endHold s).cycle = s.cycle := rfl

@[simp] theorem storeTail_cfg (e : Event) (s : State) : (storeTail e s).cfg = s.cfg := rfl
@[simp] theorem storeTail_debSr (e : Event) (s : State) : (storeTail e s).debSr = s.debSr := rfl
@[simp] theorem storeTail_settled (e : Event) (s : State) : (storeTail e s).settled = s.settled := rfl
@[simp] theorem storeTail_decPrev (e : Event) (s : State) : (storeTail e s).decPrev = s.decPrev := rfl
@[simp] theorem storeTail_tLast (e : Event) (s : State) : (storeTail e s).tLast = s.tLast := rfl
@[simp] theorem storeTail_symBuf (e : Event) (s : State) : (storeTail e s).symBuf = s.symBuf := rfl
@[simp] theorem storeTail_symIdx (e : Event) (s : State) : (storeTail e s).symIdx = s.symIdx := rfl
@[simp] theorem storeTail_fifoMem (e : Event) (s : State) : (storeTail e s).fifoMem = fifoWrite s.fifoMem s.fifoWr e := rfl
@[simp] theorem storeTail_fifoRd (e : Event) (s : State) : (storeTail e s).fifoRd = s.fifoRd := rfl
@[simp] theorem storeTail_fifoWr (e : Event) (s : State) : (storeTail e s).fifoWr = s.fifoWr + 1 := rfl
@[simp] theorem storeTail_fifoCnt (e : Event) (s : State) : (storeTail e s).fifoCnt = s.fifoCnt := rfl
@[simp] theorem storeTail_pendValid (e : Event) (s : State) : (storeTail e s).pendValid = s.pendValid := rfl
@[simp] theorem storeTail_pendEv (e : Event) (s : State) : (storeTail e s).pendEv = s.pendEv := rfl
@[simp] theorem storeTail_dstate (e : Event) (s : State) : (storeTail e s).dstate = s.dstate := rfl
@[simp] theorem storeTail_holdCnt (e : Event) (s : State) : (storeTail e s).holdCnt = s.holdCnt := rfl
@[simp] theorem storeTail_msCount (e : Event) (s : State) : (storeTail e s).msCount = s.msCount := rfl
@[simp] theorem storeTail_pins (e : Event) (s : State) : (storeTail e s).pins = s.pins := rfl
@[simp] theorem storeTail_out (e : Event) (s : State) : (storeTail e s).out = s.out := rfl
@[simp] theorem storeTail_wires (e : Event) (s : State) : (storeTail e s).wires = s.wires := rfl
@[simp] theorem storeTail_stim (e : Event) (s : State) : (storeTail e s).stim = s.stim := rfl
@[simp] theorem storeTail_cycle (e : Event) (s : State) : (storeTail e s).cycle = s.cycle := rfl

@[simp] theorem dropHead_cfg (s : State) : (dropHead s).cfg = s.cfg := rfl
@[simp] theorem dropHead_debSr (s : State) : (dropHead s).debSr = s.debSr := rfl
@[simp] theorem dropHead_settled (s : State) : (dropHead s).settled = s.settled := rfl
@[simp] theorem dropHead_decPrev (s : State) : (dropHead s).decPrev = s.decPrev := rfl
@[simp] theorem dropHead_tLast (s : State) : (dropHead s).tLast = s.tLast := rfl
@[simp] theorem dropHead_symBuf (s : State) : (dropHead s).symBuf = s.symBuf := rfl
@[simp] theorem dropHead_symIdx (s : State) : (dropHead s).symIdx = s.symIdx := rfl
@[simp] theorem dropHead_fifoMem (s : State) : (dropHead s).fifoMem = s.fifoMem := rfl
@[simp] theorem dropHead_fifoRd (s : State) : (dropHead s).fifoRd = s.fifoRd + 1 := rfl
@[simp] theorem dropHead_fifoWr (s : State) : (dropHead s).fifoWr = s.fifoWr := rfl
@[simp] theorem dropHead_fifoCnt (s : State) : (dropHead s).fifoCnt = s.fifoCnt := rfl
@[simp] theorem dropHead_pendValid (s : State) : (dropHead s).pendValid = s.pendValid := rfl
@[simp] theorem dropHead_pendEv (s : State) : (dropHead s).pendEv = s.pendEv := rfl
@[simp] theorem dropHead_dstate (s : State) : (dropHead s).dstate = s.dstate := rfl
@[simp] theorem dropHead_holdCnt (s : State) : (dropHead s).holdCnt = s.holdCnt := rfl
@[simp] theorem dropHead_msCount (s : State) : (dropHead s).msCount = s.msCount := rfl
@[simp] theorem dropHead_pins (s : State) : (dropHead s).pins = s.pins := rfl
@[simp] theorem dropHead_out (s : State) : (dropHead s).out = s.out := rfl
@[simp] theorem dropHead_wires (s : State) : (dropHead s).wires = s.wires := rfl
@[simp] theorem dropHead_stim (s : State) : (dropHead s).stim = s.stim := rfl
@[simp] theorem dropHead_cycle (s : State) : (dropHead s).cycle = s.cycle := rfl

@[simp] theorem countMs_cfg (s : State) : (countMs s).cfg = s.cfg := rfl
@[simp] theorem countMs_debSr (s : State) : (countMs s).debSr = s.debSr := rfl
@[simp] theorem countMs_settled (s : State) : (countMs s).settled = s.settled := rfl
@[simp] theorem countMs_decPrev (s : State) : (countMs s).decPrev = s.decPrev := rfl
@[simp] theorem countMs_tLast (s : State) : (countMs s).tLast = s.tLast := rfl
@[simp] theorem countMs_symBuf (s : State) : (countMs s).symBuf = s.symBuf := rfl
@[simp] theorem countMs_symIdx (s : State) : (countMs s).symIdx = s.symIdx := rfl
@[simp] theorem countMs_fifoMem (s : State) : (countMs s).fifoMem = s.fifoMem := rfl
@[simp] theorem countMs_fifoRd (s : State) : (countMs s).fifoRd = s.fifoRd := rfl
@[simp] theorem countMs_fifoWr (s : State) : (countMs s).fifoWr = s.fifoWr := rfl
@[simp] theorem countMs_fifoCnt (s : State) : (countMs s).fifoCnt = s.fifoCnt := rfl
@[simp] theorem countMs_pendValid (s : State) : (countMs s).pendValid = s.pendValid := rfl
@[simp] theorem countMs_pendEv (s : State) : (countMs s).pendEv = s.pendEv := rfl
@[simp] theorem countMs_dstate (s : State) : (countMs s).dstate = s.dstate := rfl
@[simp] theorem countMs_holdCnt (s : State) : (countMs s).holdCnt = s.holdCnt := rfl
@[simp] theorem countMs_msCount (s : State) : (countMs s).msCount = s.msCount + 1 := rfl
@[simp] theorem countMs_pins (s : State) : (countMs s).pins = s.pins := rfl
@[simp] theorem countMs_out (s : State) : (countMs s).out = s.out := rfl
@[simp] theorem countMs_wires (s : State) : (countMs s).wires = s.wires := rfl
@[simp] theorem countMs_stim (s : State) : (countMs s).stim = s.stim := rfl
@[simp] theorem countMs_cycle (s : State) : (countMs s).cycle = s.cycle := rfl

@[simp] theorem beginCycle_cfg (s : State) : (beginCycle s).cfg = s.cfg := rfl
@[simp] theorem beginCycle_debSr (s : State) : (beginCycle s).debSr = s.debSr := rfl
@[simp] theorem beginCycle_settled (s : State) : (beginCycle s).settled = s.settled := rfl
@[simp] theorem beginCycle_decPrev (s : State) : (beginCycle s).decPrev = s.decPrev := rfl
@[simp] theorem beginCycle_tLast (s : State) : (beginCycle s).tLast = s.tLast := rfl
@[simp] theorem beginCycle_symBuf (s : State) : (beginCycle s).symBuf = s.symBuf := rfl
@[simp] theorem beginCycle_symIdx (s : State) : (beginCycle s).symIdx = s.symIdx := rfl
@[simp] theorem beginCycle_fifoMem (s : State) : (beginCycle s).fifoMem = s.fifoMem := rfl
@[simp] theorem beginCycle_fifoRd (s : State) : (beginCycle s).fifoRd = s.fifoRd := rfl
@[simp] theorem beginCycle_fifoWr (s : State) : (beginCycle s).fifoWr = s.fifoWr := rfl
@[simp] theorem beginCycle_fifoCnt (s : State) : (beginCycle s).fifoCnt = s.fifoCnt := rfl
@[simp] theorem beginCycle_pendValid (s : State) : (beginCycle s).pendValid = s.pendValid := rfl
@[simp] theorem beginCycle_pendEv (s : State) : (beginCycle s).pendEv = s.pendEv := rfl
@[simp] theorem beginCycle_dstate (s : State) : (beginCycle s).dstate = s.dstate := rfl
@[simp] theorem beginCycle_holdCnt (s : State) : (beginCycle s).holdCnt = s.holdCnt := rfl
@[simp] theorem beginCycle_msCount (s : State) : (beginCycle s).msCount = s.msCount := rfl
@[simp] theorem beginCycle_pins (s : State) : (beginCycle s).pins = s.pins := rfl
@[simp] theorem beginCycle_out (s : State) : (beginCycle s).out = Outputs.quiet s.settled s.fifoCnt (stalled s) (busy s) := rfl
@[simp] theorem beginCycle_wires (s : State) : (beginCycle s).wires = Wires.clear := rfl
@[simp] theorem beginCycle_stim (s : State) : (beginCycle s).stim = s.stim := rfl
@[simp] theorem beginCycle_cycle (s : State) : (beginCycle s).cycle = s.cycle := rfl

@[simp] theorem drive_cfg (iv : Word) (s : State) : (drive iv s).cfg = s.cfg := rfl
@[simp] theorem drive_debSr (iv : Word) (s : State) : (drive iv s).debSr = s.debSr := rfl
@[simp] theorem drive_settled (iv : Word) (s : State) : (drive iv s).settled = s.settled := rfl
@[simp] theorem drive_decPrev (iv : Word) (s : State) : (drive iv s).decPrev = s.decPrev := rfl
@[simp] theorem drive_tLast (iv : Word) (s : State) : (drive iv s).tLast = s.tLast := rfl
@[simp] theorem drive_symBuf (iv : Word) (s : State) : (drive iv s).symBuf = s.symBuf := rfl
@[simp] theorem drive_symIdx (iv : Word) (s : State) : (drive iv s).symIdx = s.symIdx := rfl
@[simp] theorem drive_fifoMem (iv : Word) (s : State) : (drive iv s).fifoMem = s.fifoMem := rfl
@[simp] theorem drive_fifoRd (iv : Word) (s : State) : (drive iv s).fifoRd = s.fifoRd := rfl
@[simp] theorem drive_fifoWr (iv : Word) (s : State) : (drive iv s).fifoWr = s.fifoWr := rfl
@[simp] theorem drive_fifoCnt (iv : Word) (s : State) : (drive iv s).fifoCnt = s.fifoCnt := rfl
@[simp] theorem drive_pendValid (iv : Word) (s : State) : (drive iv s).pendValid = s.pendValid := rfl
@[simp] theorem drive_pendEv (iv : Word) (s : State) : (drive iv s).pendEv = s.pendEv := rfl
@[simp] theorem drive_dstate (iv : Word) (s : State) : (drive iv s).dstate = s.dstate := rfl
@[simp] theorem drive_holdCnt (iv : Word) (s : State) : (drive iv s).holdCnt = s.holdCnt := rfl
@[simp] theorem drive_msCount (iv : Word) (s : State) : (drive iv s).msCount = s.msCount := rfl
@[simp] theorem drive_pins (iv : Word) (s : State) : (drive iv s).pins = s.pins := rfl
@[simp] theorem drive_out (iv : Word) (s : State) : (drive iv s).out = s.out := rfl
@[simp] theorem drive_wires (iv : Word) (s : State) : (drive iv s).wires = s.wires := rfl
@[simp] theorem drive_stim (iv : Word) (s : State) : (drive iv s).stim = iv :: s.stim := rfl
@[simp] theorem drive_cycle (iv : Word) (s : State) : (drive iv s).cycle = s.cycle := rfl

@[simp] theorem adjustCount_cfg (p q : Bool) (s : State) : (adjustCount p q s).cfg = s.cfg := rfl
@[simp] theorem adjustCount_debSr (p q : Bool) (s : State) : (adjustCount p q s).debSr = s.debSr := rfl
@[simp] theorem adjustCount_settled (p q : Bool) (s : State) : (adjustCount p q s).settled = s.settled := rfl
@[simp] theorem adjustCount_decPrev (p q : Bool) (s : State) : (adjustCount p q s).decPrev = s.decPrev := rfl
@[simp] theorem adjustCount_tLast (p q : Bool) (s : State) : (adjustCount p q s).tLast = s.tLast := rfl
@[simp] theorem adjustCount_symBuf (p q : Bool) (s : State) : (adjustCount p q s).symBuf = s.symBuf := rfl
@[simp] theorem adjustCount_symIdx (p q : Bool) (s : State) : (adjustCount p q s).symIdx = s.symIdx := rfl
@[simp] theorem adjustCount_fifoMem (p q : Bool) (s : State) : (adjustCount p q s).fifoMem = s.fifoMem := rfl
@[simp] theorem adjustCount_fifoRd (p q : Bool) (s : State) : (adjustCount p q s).fifoRd = s.fifoRd := rfl
@[simp] theorem adjustCount_fifoWr (p q : Bool) (s : State) : (adjustCount p q s).fifoWr = s.fifoWr := rfl
@[simp] theorem adjustCount_pendValid (p q : Bool) (s : State) : (adjustCount p q s).pendValid = s.pendValid := rfl
@[simp] theorem adjustCount_pendEv (p q : Bool) (s : State) : (adjustCount p q s).pendEv = s.pendEv := rfl
@[simp] theorem adjustCount_dstate (p q : Bool) (s : State) : (adjustCount p q s).dstate = s.dstate := rfl
@[simp] theorem adjustCount_holdCnt (p q : Bool) (s : State) : (adjustCount p q s).holdCnt = s.holdCnt := rfl
@[simp] theorem adjustCount_msCount (p q : Bool) (s : State) : (adjustCount p q s).msCount = s.msCount := rfl
@[simp] theorem adjustCount_pins (p q : Bool) (s : State) : (adjustCount p q s).pins = s.pins := rfl
@[simp] theorem adjustCount_out (p q : Bool) (s : State) : (adjustCount p q s).out = s.out := rfl
@[simp] theorem adjustCount_wires (p q : Bool) (s : State) : (adjustCount p q s).wires = s.wires := rfl
@[simp] theorem adjustCount_stim (p q : Bool) (s : State) : (adjustCount p q s).stim = s.stim := rfl
@[simp] theorem adjustCount_cycle (p q : Bool) (s : State) : (adjustCount p q s).cycle = s.cycle := rfl

/-- The count after a push, a pop, both or neither (R173). -/
@[simp] theorem adjustCount_fifoCnt (p q : Bool) (s : State) :
    (adjustCount p q s).fifoCnt = s.fifoCnt + (if p then 1 else 0) - (if q then 1 else 0) := by
  cases p <;> cases q <;> simp [adjustCount]

@[simp] theorem signal_cfg (st : Status) (s : State) : (signal st s).cfg = s.cfg := by cases st <;> rfl
@[simp] theorem signal_debSr (st : Status) (s : State) : (signal st s).debSr = s.debSr := by cases st <;> rfl
@[simp] theorem signal_settled (st : Status) (s : State) : (signal st s).settled = s.settled := by cases st <;> rfl
@[simp] theorem signal_decPrev (st : Status) (s : State) : (signal st s).decPrev = s.decPrev := by cases st <;> rfl
@[simp] theorem signal_tLast (st : Status) (s : State) : (signal st s).tLast = s.tLast := by cases st <;> rfl
@[simp] theorem signal_symBuf (st : Status) (s : State) : (signal st s).symBuf = s.symBuf := by cases st <;> rfl
@[simp] theorem signal_symIdx (st : Status) (s : State) : (signal st s).symIdx = s.symIdx := by cases st <;> rfl
@[simp] theorem signal_fifoMem (st : Status) (s : State) : (signal st s).fifoMem = s.fifoMem := by cases st <;> rfl
@[simp] theorem signal_fifoRd (st : Status) (s : State) : (signal st s).fifoRd = s.fifoRd := by cases st <;> rfl
@[simp] theorem signal_fifoWr (st : Status) (s : State) : (signal st s).fifoWr = s.fifoWr := by cases st <;> rfl
@[simp] theorem signal_fifoCnt (st : Status) (s : State) : (signal st s).fifoCnt = s.fifoCnt := by cases st <;> rfl
@[simp] theorem signal_pendValid (st : Status) (s : State) : (signal st s).pendValid = s.pendValid := by cases st <;> rfl
@[simp] theorem signal_pendEv (st : Status) (s : State) : (signal st s).pendEv = s.pendEv := by cases st <;> rfl
@[simp] theorem signal_dstate (st : Status) (s : State) : (signal st s).dstate = s.dstate := by cases st <;> rfl
@[simp] theorem signal_holdCnt (st : Status) (s : State) : (signal st s).holdCnt = s.holdCnt := by cases st <;> rfl
@[simp] theorem signal_msCount (st : Status) (s : State) : (signal st s).msCount = s.msCount := by cases st <;> rfl
@[simp] theorem signal_pins (st : Status) (s : State) : (signal st s).pins = s.pins := by cases st <;> rfl
@[simp] theorem signal_wires (st : Status) (s : State) : (signal st s).wires = s.wires := by cases st <;> rfl
@[simp] theorem signal_stim (st : Status) (s : State) : (signal st s).stim = s.stim := by cases st <;> rfl
@[simp] theorem signal_cycle (st : Status) (s : State) : (signal st s).cycle = s.cycle := by cases st <;> rfl

@[simp] theorem signal_noMatch_out (s : State) : (signal .noMatch s).out = { s.out with noMatch := true } := rfl
@[simp] theorem signal_unsupported_out (s : State) : (signal .unsupported s).out = { s.out with unsup := true } := rfl

@[simp] theorem resetRegisters_cfg (b : Bool) (s : State) : (resetRegisters b s).cfg = s.cfg := rfl
@[simp] theorem resetRegisters_debSr (b : Bool) (s : State) : (resetRegisters b s).debSr = if b then 0xFFFF else 0x0000 := rfl
@[simp] theorem resetRegisters_settled (b : Bool) (s : State) : (resetRegisters b s).settled = b := rfl
@[simp] theorem resetRegisters_decPrev (b : Bool) (s : State) : (resetRegisters b s).decPrev = b := rfl
@[simp] theorem resetRegisters_tLast (b : Bool) (s : State) : (resetRegisters b s).tLast = 0 := rfl
@[simp] theorem resetRegisters_symBuf (b : Bool) (s : State) : (resetRegisters b s).symBuf = emptyBuf := rfl
@[simp] theorem resetRegisters_symIdx (b : Bool) (s : State) : (resetRegisters b s).symIdx = 0 := rfl
@[simp] theorem resetRegisters_fifoMem (b : Bool) (s : State) : (resetRegisters b s).fifoMem = s.fifoMem := rfl
@[simp] theorem resetRegisters_fifoRd (b : Bool) (s : State) : (resetRegisters b s).fifoRd = 0 := rfl
@[simp] theorem resetRegisters_fifoWr (b : Bool) (s : State) : (resetRegisters b s).fifoWr = 0 := rfl
@[simp] theorem resetRegisters_fifoCnt (b : Bool) (s : State) : (resetRegisters b s).fifoCnt = 0 := rfl
@[simp] theorem resetRegisters_pendValid (b : Bool) (s : State) : (resetRegisters b s).pendValid = false := rfl
@[simp] theorem resetRegisters_pendEv (b : Bool) (s : State) : (resetRegisters b s).pendEv = 0 := rfl
@[simp] theorem resetRegisters_dstate (b : Bool) (s : State) : (resetRegisters b s).dstate = .idle := rfl
@[simp] theorem resetRegisters_holdCnt (b : Bool) (s : State) : (resetRegisters b s).holdCnt = 0 := rfl
@[simp] theorem resetRegisters_msCount (b : Bool) (s : State) : (resetRegisters b s).msCount = 0 := rfl
@[simp] theorem resetRegisters_pins (b : Bool) (s : State) : (resetRegisters b s).pins = s.pins := rfl
@[simp] theorem resetRegisters_out (b : Bool) (s : State) : (resetRegisters b s).out = s.out := rfl
@[simp] theorem resetRegisters_wires (b : Bool) (s : State) : (resetRegisters b s).wires = s.wires := rfl
@[simp] theorem resetRegisters_stim (b : Bool) (s : State) : (resetRegisters b s).stim = s.stim := rfl
@[simp] theorem resetRegisters_cycle (b : Bool) (s : State) : (resetRegisters b s).cycle = s.cycle := rfl

@[simp] theorem latchInputs_cfg (s : State) : (latchInputs s).cfg = s.cfg := by unfold latchInputs; split <;> rfl
@[simp] theorem latchInputs_debSr (s : State) : (latchInputs s).debSr = s.debSr := by unfold latchInputs; split <;> rfl
@[simp] theorem latchInputs_settled (s : State) : (latchInputs s).settled = s.settled := by unfold latchInputs; split <;> rfl
@[simp] theorem latchInputs_decPrev (s : State) : (latchInputs s).decPrev = s.decPrev := by unfold latchInputs; split <;> rfl
@[simp] theorem latchInputs_tLast (s : State) : (latchInputs s).tLast = s.tLast := by unfold latchInputs; split <;> rfl
@[simp] theorem latchInputs_symBuf (s : State) : (latchInputs s).symBuf = s.symBuf := by unfold latchInputs; split <;> rfl
@[simp] theorem latchInputs_symIdx (s : State) : (latchInputs s).symIdx = s.symIdx := by unfold latchInputs; split <;> rfl
@[simp] theorem latchInputs_fifoMem (s : State) : (latchInputs s).fifoMem = s.fifoMem := by unfold latchInputs; split <;> rfl
@[simp] theorem latchInputs_fifoRd (s : State) : (latchInputs s).fifoRd = s.fifoRd := by unfold latchInputs; split <;> rfl
@[simp] theorem latchInputs_fifoWr (s : State) : (latchInputs s).fifoWr = s.fifoWr := by unfold latchInputs; split <;> rfl
@[simp] theorem latchInputs_fifoCnt (s : State) : (latchInputs s).fifoCnt = s.fifoCnt := by unfold latchInputs; split <;> rfl
@[simp] theorem latchInputs_pendValid (s : State) : (latchInputs s).pendValid = s.pendValid := by unfold latchInputs; split <;> rfl
@[simp] theorem latchInputs_pendEv (s : State) : (latchInputs s).pendEv = s.pendEv := by unfold latchInputs; split <;> rfl
@[simp] theorem latchInputs_dstate (s : State) : (latchInputs s).dstate = s.dstate := by unfold latchInputs; split <;> rfl
@[simp] theorem latchInputs_holdCnt (s : State) : (latchInputs s).holdCnt = s.holdCnt := by unfold latchInputs; split <;> rfl
@[simp] theorem latchInputs_msCount (s : State) : (latchInputs s).msCount = s.msCount := by unfold latchInputs; split <;> rfl
@[simp] theorem latchInputs_out (s : State) : (latchInputs s).out = s.out := by unfold latchInputs; split <;> rfl
@[simp] theorem latchInputs_wires (s : State) : (latchInputs s).wires = s.wires := by unfold latchInputs; split <;> rfl
@[simp] theorem latchInputs_cycle (s : State) : (latchInputs s).cycle = s.cycle + 1 := by unfold latchInputs; split <;> rfl

end Sys2Proof.Machine
end

