-- ==== Sys2Proof/Laws/Ops.lean ====
section
/-! SUPPORT. One lemma per shared operation: what it answers, once and for all. -/

namespace Sys2Proof.Machine

@[simp] theorem andThen_next (s : State) (k : State → Answer) : andThen (.next s) k = k s := rfl
@[simp] theorem andThen_fault (f : Fault) (k : State → Answer) : andThen (.fault f) k = .fault f := rfl
@[simp] theorem andThen_refused (r : Refusal) (k : State → Answer) : andThen (.refused r) k = .refused r := rfl

/-- A sequence goes on to `t` exactly when its first part goes on to some state from which the rest goes on to `t`. -/
theorem andThen_eq_next {a : Answer} {k : State → Answer} {t : State} :
    andThen a k = .next t ↔ ∃ s, a = .next s ∧ k s = .next t := by
  cases a <;> simp

/-- A selected operation of a legal block is performed. -/
theorem perform_of_selected {i : Instr} {s : State} (k : State → Answer) (hc : s.cfg.legal = true)
    (hs : selected i s = true) : perform i s k = k s := by
  simp [perform, hc, hs]

/-- What `perform` can answer with a next state: only a selected operation of a legal block does. -/
theorem perform_eq_next {i : Instr} {s t : State} {k : State → Answer} :
    perform i s k = .next t ↔ s.cfg.legal = true ∧ selected i s = true ∧ k s = .next t := by
  unfold perform
  split <;> rename_i hc
  · split <;> rename_i hs <;> simp [hc, hs]
  · simp [hc]

/-- What `require` can answer with a next state. -/
theorem require_eq_next {ok : Bool} {s t : State} {k : State → Answer} :
    require ok s k = .next t ↔ ok = true ∧ k s = .next t := by
  cases ok <;> simp [require]

@[simp] theorem require_true (s : State) (k : State → Answer) : require true s k = k s := rfl
@[simp] theorem require_false (s : State) (k : State → Answer) : require false s k = .fault .outsideDomain := rfl

/-- Reading the entry just written gives the value written. -/
@[simp] theorem fifoRead_fifoWrite_same (m : Vector Event 32) (i : BitVec 5) (e : Event) :
    fifoRead (fifoWrite m i e) i = e := by
  simp [fifoRead, fifoWrite]

/-- A write leaves every other entry alone. -/
theorem fifoRead_fifoWrite_other (m : Vector Event 32) {i j : BitVec 5} (e : Event) (h : i ≠ j) :
    fifoRead (fifoWrite m i e) j = fifoRead m j := by
  have : i.toNat ≠ j.toNat := fun h' => h (BitVec.eq_of_toNat_eq h')
  simp [fifoRead, fifoWrite, this]

/-- The character of an event. -/
@[simp] theorem eventChar_eventOf (b : Bool) (c : Char8) : eventChar (eventOf b c) = c := by
  apply BitVec.eq_of_getLsbD_eq
  intro i hi
  have h : (eventOf b c).getLsbD i = if i < 8 then c.getLsbD i else (BitVec.ofBool b).getLsbD (i - 8) :=
    BitVec.getLsbD_append
  rw [eventChar, BitVec.getLsbD_setWidth, h]
  simp [hi]

/-- The shift bit of an event. -/
@[simp] theorem eventShift_eventOf (b : Bool) (c : Char8) : eventShift (eventOf b c) = b := by
  have h : (eventOf b c).getLsbD 8 = if 8 < 8 then c.getLsbD 8 else (BitVec.ofBool b).getLsbD (8 - 8) :=
    BitVec.getLsbD_append
  rw [eventShift, h]
  simp

/-- A filled index of at most 6 is 6 or below 6. -/
theorem symIdx_lt_six {i : BitVec 3} (hi : i.toNat ≤ 6) (h : i ≠ 6#3) : i < 6#3 := by
  have h6 : i.toNat ≠ 6 := fun h' => h (BitVec.eq_of_toNat_eq (by simpa using h'))
  rw [BitVec.lt_def, BitVec.toNat_ofNat]
  omega

/-- `pushedSyms` with six slots filled (R122). -/
theorem pushedSyms_full {b : Vector Symbol 6} {i : BitVec 3} (x : Symbol) (h : i = 6#3) :
    pushedSyms b i x = evictSym b x := if_pos h

/-- `pushedSyms` with a free slot (R121). -/
theorem pushedSyms_room {b : Vector Symbol 6} {i : BitVec 3} (x : Symbol) (h : i.toNat < 6) :
    pushedSyms b i x = appendSym b i x := by
  have h6 : ¬ i = 6 := fun h' => by rw [h'] at h; simp at h
  unfold pushedSyms
  rw [if_neg h6, dif_pos h]
  simp [appendSym, Vector.setIfInBounds, Vector.set, Array.setIfInBounds, h]

/-- `push_sym` yields the buffer and index of R121 or R122, and changes nothing but its local values. -/
theorem pushSym_eq (x : Symbol) (s : State) (hc : s.cfg.legal = true) (hr : s.pins.rst = false)
    (hi : s.symIdx.toNat ≤ 6) :
    pushSym x s = .next { s with wires := { s.wires with
      symIn := some x
      bufNext := (pushedSyms s.symBuf s.symIdx x).1
      idxNext := (pushedSyms s.symBuf s.symIdx x).2 } } := by
  by_cases h : s.symIdx = 6#3
  · have hs : selection .sym (offerSymbol x s) = .symEvict := by simp [selection, bufFull, h]
    have hp : selected .symEvict (offerSymbol x s) = true := by
      rw [selected_iff]; exact ⟨by simp [formatOf, offered, hr], hs⟩
    rw [pushedSyms_full x h]
    simp only [pushSym, decode_selectorWord, hs, execSymEvict]
    rw [perform_of_selected (s := offerSymbol x s) _ hc hp]
    rfl
  · have hs : selection .sym (offerSymbol x s) = .symAppend := by simp [selection, bufFull, h]
    have hp : selected .symAppend (offerSymbol x s) = true := by
      rw [selected_iff]; exact ⟨by simp [formatOf, offered, hr], hs⟩
    have hlt : decide ((offerSymbol x s).symIdx < 6) = true := decide_eq_true (symIdx_lt_six hi h)
    have h6 : s.symIdx.toNat < 6 := by simpa [BitVec.lt_def] using symIdx_lt_six hi h
    rw [pushedSyms_room x h6]
    simp only [pushSym, decode_selectorWord, hs, execSymAppend]
    rw [perform_of_selected (s := offerSymbol x s) _ hc hp]
    simp only [offerSymbol_wires, hlt, require_true]
    rfl

/-- Resolving a word completes its character (R134) or raises `NOMATCH` (R135), and changes no register. -/
theorem resolveBuffer_eq (w : SymWord) (s : State) (hc : s.cfg.legal = true) (hr : s.pins.rst = false) :
    resolveBuffer w s = .next { s with
      wires := { s.wires with resIn := some w, done := resolveWord w }
      out := resolvedOut s.out (resolveWord w) } := by
  cases h : resolveWord w with
  | some c =>
    have hs : selection .res (offerWord w s) = .resMatch := by simp [selection, wordHit, h]
    have hp : selected .resMatch (offerWord w s) = true := by
      rw [selected_iff]; exact ⟨by simp [formatOf, offered, hr], hs⟩
    simp only [resolveBuffer, decode_selectorWord, hs, execResMatch]
    rw [perform_of_selected (s := offerWord w s) _ hc hp]
    simp only [offerWord_wires, Option.bind_some, h]
    rfl
  | none =>
    have hs : selection .res (offerWord w s) = .resNomatch := by simp [selection, wordHit, h]
    have hp : selected .resNomatch (offerWord w s) = true := by
      rw [selected_iff]; exact ⟨by simp [formatOf, offered, hr], hs⟩
    simp only [resolveBuffer, decode_selectorWord, hs, execResNomatch]
    rw [perform_of_selected (s := offerWord w s) _ hc hp]
    rfl

/-- `do_break` (R123): the buffer word with its `BREAK` is resolved and the buffer is cleared. -/
theorem doBreak_eq (s : State) (hc : s.cfg.legal = true) (hr : s.pins.rst = false) (hi : s.symIdx.toNat ≤ 6) :
    doBreak s = .next { s with
      symBuf := emptyBuf
      symIdx := 0
      wires := { s.wires with
        symIn := some .brk
        bufNext := (pushedSyms s.symBuf s.symIdx .brk).1
        idxNext := (pushedSyms s.symBuf s.symIdx .brk).2
        resIn := some (packWord (pushedSyms s.symBuf s.symIdx .brk).1)
        done := resolveWord (packWord (pushedSyms s.symBuf s.symIdx .brk).1) }
      out := resolvedOut s.out (resolveWord (packWord (pushedSyms s.symBuf s.symIdx .brk).1)) } := by
  simp only [doBreak, pushSym_eq .brk s hc hr hi, andThen_next]
  rw [resolveBuffer_eq]
  · rfl
  · exact hc
  · exact hr

/-- Recording a mark writes what `push_sym` yields to the symbol registers (R125, R126). -/
theorem recordMark_eq (x : Symbol) (s : State) (hc : s.cfg.legal = true) (hr : s.pins.rst = false)
    (hi : s.symIdx.toNat ≤ 6) :
    recordMark x s = .next { s with
      symBuf := (pushedSyms s.symBuf s.symIdx x).1
      symIdx := (pushedSyms s.symBuf s.symIdx x).2
      wires := { s.wires with
        symIn := some x
        bufNext := (pushedSyms s.symBuf s.symIdx x).1
        idxNext := (pushedSyms s.symBuf s.symIdx x).2 } } := by
  simp only [recordMark, pushSym_eq x s hc hr hi, andThen_next]
  rfl

/-- `to_scan_code` (R161, R162) as a local value of the cycle. -/
theorem lookUp_eq (c : Char8) (s : State) (hc : s.cfg.legal = true) (hr : s.pins.rst = false) :
    lookUp c s = .next { s with wires := { s.wires with lookup := some c, code := scanCode s.cfg.keymap c } } := by
  cases h : (keymapEntry s.cfg.keymap c).valid with
  | true =>
    have hs : selection .kmap (offerChar c s) = .kmapHit := by simp [selection, lookupValid, h]
    have hp : selected .kmapHit (offerChar c s) = true := by
      rw [selected_iff]; exact ⟨by simp [formatOf, offered, hr], hs⟩
    simp only [lookUp, decode_selectorWord, hs, execKmapHit]
    rw [perform_of_selected (s := offerChar c s) _ hc hp]
    simp only [scanCode, h, if_true]
    rfl
  | false =>
    have hs : selection .kmap (offerChar c s) = .kmapMiss := by simp [selection, lookupValid, h]
    have hp : selected .kmapMiss (offerChar c s) = true := by
      rw [selected_iff]; exact ⟨by simp [formatOf, offered, hr], hs⟩
    simp only [lookUp, decode_selectorWord, hs, execKmapMiss]
    rw [perform_of_selected (s := offerChar c s) _ hc hp]
    simp only [scanCode, h, Bool.false_eq_true, if_false]
    rfl

/-- The inputs of a cycle whose byte is lined up. -/
theorem latchInputs_cons {s : State} {iv : Word} {rest : List Word} (h : s.stim = iv :: rest) :
    latchInputs s = { s with pins := inputsOfByte iv, stim := rest, cycle := s.cycle + 1 } := by
  simp [latchInputs, h]

/-- The inputs of a cycle for which nothing is lined up: the free value of its number. -/
theorem latchInputs_nil {s : State} (h : s.stim = []) :
    latchInputs s = { s with pins := inputsOfByte (Config.hostInput s.cycle), cycle := s.cycle + 1 } := by
  simp [latchInputs, h]

end Sys2Proof.Machine
end

