-- ==== Sys2Proof/Laws/PerInstr.lean ====
section
/-! SUPPORT. The family `EncodeDecode`: a fact about each operation as syntax, one lemma per constructor of `Instr`. -/

namespace Sys2Proof.Laws.EncodeDecode

/-- The operation's encoding fits its format (R82), decodes to the operation, and is the word of its row with every
open bit 0. -/
def Statement (i : Instr) : Prop :=
  (formatOf i).fits (encode i) = true ∧ decode (formatOf i) (encode i) = .op i ∧
    ∃ r ∈ rowsOf (formatOf i), r.instr = i ∧ encode i = r.bits ∧ r.bits &&& r.mask = r.bits

theorem cycReset : Statement .cycReset := by unfold Statement; decide
theorem cycRun : Statement .cycRun := by unfold Statement; decide
theorem debFrozen : Statement .debFrozen := by unfold Statement; decide
theorem debUnavail : Statement .debUnavail := by unfold Statement; decide
theorem debSet1 : Statement .debSet1 := by unfold Statement; decide
theorem debSet0 : Statement .debSet0 := by unfold Statement; decide
theorem debKeep : Statement .debKeep := by unfold Statement; decide
theorem decOff : Statement .decOff := by unfold Statement; decide
theorem decMarkHold : Statement .decMarkHold := by unfold Statement; decide
theorem decMarkEndDit : Statement .decMarkEndDit := by unfold Statement; decide
theorem decMarkEndDah : Statement .decMarkEndDah := by unfold Statement; decide
theorem decBeginGap : Statement .decBeginGap := by unfold Statement; decide
theorem decBeginBreak : Statement .decBeginBreak := by unfold Statement; decide
theorem decBeginBreakEmpty : Statement .decBeginBreakEmpty := by unfold Statement; decide
theorem decIdleBreak : Statement .decIdleBreak := by unfold Statement; decide
theorem decIdleWait : Statement .decIdleWait := by unfold Statement; decide
theorem decIdleEmpty : Statement .decIdleEmpty := by unfold Statement; decide
theorem symAppend : Statement .symAppend := by unfold Statement; decide
theorem symEvict : Statement .symEvict := by unfold Statement; decide
theorem resMatch : Statement .resMatch := by unfold Statement; decide
theorem resNomatch : Statement .resNomatch := by unfold Statement; decide
theorem kmapHit : Statement .kmapHit := by unfold Statement; decide
theorem kmapMiss : Statement .kmapMiss := by unfold Statement; decide
theorem prodIdle : Statement .prodIdle := by unfold Statement; decide
theorem prodTickNoev : Statement .prodTickNoev := by unfold Statement; decide
theorem prodEnq : Statement .prodEnq := by unfold Statement; decide
theorem prodStall : Statement .prodStall := by unfold Statement; decide
theorem prodPendPush : Statement .prodPendPush := by unfold Statement; decide
theorem prodPendWait : Statement .prodPendWait := by unfold Statement; decide
theorem drnIdleWait : Statement .drnIdleWait := by unfold Statement; decide
theorem drnIdleEmpty : Statement .drnIdleEmpty := by unfold Statement; decide
theorem drnPopPress : Statement .drnPopPress := by unfold Statement; decide
theorem drnPopSkip : Statement .drnPopSkip := by unfold Statement; decide
theorem drnHoldCount : Statement .drnHoldCount := by unfold Statement; decide
theorem drnHoldWait : Statement .drnHoldWait := by unfold Statement; decide
theorem drnRelease : Statement .drnRelease := by unfold Statement; decide
theorem fifoNone : Statement .fifoNone := by unfold Statement; decide
theorem fifoPush : Statement .fifoPush := by unfold Statement; decide
theorem fifoPop : Statement .fifoPop := by unfold Statement; decide
theorem fifoPushPop : Statement .fifoPushPop := by unfold Statement; decide
theorem tbCount : Statement .tbCount := by unfold Statement; decide
theorem tbIdle : Statement .tbIdle := by unfold Statement; decide

end Sys2Proof.Laws.EncodeDecode
end

