-- ==== Sys2Proof/Laws/Units.lean ====
section
/-! SUPPORT. One lemma per unit of the cycle: what it answers on a block with a legal configuration in a cycle with
`rst` = 0, as one update of the state it starts from. -/

namespace Sys2Proof.Machine

/-- An offered format performs its selection. -/
theorem perform_selection {f : Format} {i : Instr} {s : State} (k : State → Answer) (hc : s.cfg.legal = true)
    (ho : offered f s = true) (h : selection f s = i) (hf : formatOf i = f := by rfl) : perform i s k = k s := by
  subst hf
  exact perform_of_selected k hc ((selected_iff i s).2 ⟨ho, h⟩)

/-- `sr_n` of R100 as a shift and an or. -/
theorem srNext_eq (s : State) : srNext s = specSr s := by
  apply BitVec.eq_of_getLsbD_eq
  intro i hi
  have h : (srNext s).getLsbD i =
      if i < 1 then (BitVec.ofBool s.pins.keyIn).getLsbD i else (s.debSr.setWidth 15).getLsbD (i - 1) :=
    BitVec.getLsbD_append
  rw [h]
  unfold specSr sampleBit
  cases s.pins.keyIn <;> rcases i with _ | i <;> simp <;> simp [hi] <;> omega

/-- DEB (R100 to R106): an accepted, available sample is shifted in, and the level is passed on. -/
theorem debUnit_eq (s : State) (hc : s.cfg.legal = true) (hr : s.pins.rst = false) :
    debUnit s = .next { s with
      debSr := if specShift s then specSr s else s.debSr
      settled := specLevel s
      wires := { s.wires with level := specLevel s } } := by
  have ho : offered .deb s = true := by simp [offered, hr]
  have he : specAcc s = acc s := rfl
  unfold debUnit
  rw [decode_selectorWord]
  cases ha : acc s
  · have hs : selection .deb s = .debFrozen := by simp [selection, ha]
    rw [hs]
    change execDebFrozen s = _
    rw [execDebFrozen, perform_selection _ hc ho hs]
    simp [specLevel, specShift, he, ha, passLevel]
  · cases hk : s.pins.keyValid
    · have hs : selection .deb s = .debUnavail := by simp [selection, ha, hk]
      rw [hs]
      change execDebUnavail s = _
      rw [execDebUnavail, perform_selection _ hc ho hs]
      simp [specLevel, specShift, hk, passLevel]
    · have h1 : specShift s = true := by simp [specShift, he, ha, hk]
      cases h2 : srOnes s
      · have h2' : (specSr s == 0xFFFF) = false := by rw [← srNext_eq]; exact h2
        cases h3 : srZeros s
        · have h3' : (specSr s == 0x0000) = false := by rw [← srNext_eq]; exact h3
          have hs : selection .deb s = .debKeep := by simp [selection, ha, hk, h2, h3]
          rw [hs]
          change execDebKeep s = _
          rw [execDebKeep, perform_selection _ hc ho hs]
          simp only [specLevel, h1, h2', h3', takeSample, passLevel, srNext_eq]
          simp
        · have h3' : (specSr s == 0x0000) = true := by rw [← srNext_eq]; exact h3
          have hs : selection .deb s = .debSet0 := by simp [selection, ha, hk, h2, h3]
          rw [hs]
          change execDebSet0 s = _
          rw [execDebSet0, perform_selection _ hc ho hs]
          simp only [specLevel, h1, h2', h3', takeSample, passLevel, settle, srNext_eq]
          simp
      · have h2' : (specSr s == 0xFFFF) = true := by rw [← srNext_eq]; exact h2
        have hs : selection .deb s = .debSet1 := by simp [selection, ha, hk, h2]
        rw [hs]
        change execDebSet1 s = _
        rw [execDebSet1, perform_selection _ hc ho hs]
        simp only [specLevel, h1, h2', takeSample, passLevel, settle, srNext_eq]
        simp

/-- The mark that ends is recorded by its length (R125, R126). -/
def markSymbol (s : State) : Symbol := if specUnits s ≤ s.cfg.ditMaxUnits then .dit else .dah

/-- DEC (R120 to R136) at the level `s.wires.level`: a mark end records, a break resolves and clears, and an accepted
tick stores the level. -/
theorem decUnit_eq (s : State) (hc : s.cfg.legal = true) (hr : s.pins.rst = false) (hi : s.symIdx.toNat ≤ 6)
    (hd : s.wires.done = none) :
    ∃ w, decUnit s = .next { s with
      decPrev := if acc s then s.wires.level else s.decPrev
      tLast := if acc s && s.decPrev != s.wires.level then s.msCount else s.tLast
      symBuf := if acc s && s.decPrev && !s.wires.level then (pushedSyms s.symBuf s.symIdx (markSymbol s)).1
        else if specBreak s then emptyBuf else s.symBuf
      symIdx := if acc s && s.decPrev && !s.wires.level then (pushedSyms s.symBuf s.symIdx (markSymbol s)).2
        else if specBreak s then 0 else s.symIdx
      wires := w
      out := if specBreak s then resolvedOut s.out (resolveWord (specWord s)) else s.out } ∧
      w.level = s.wires.level ∧ w.push = s.wires.push ∧ w.pop = s.wires.pop ∧
      w.done = if specBreak s then resolveWord (specWord s) else none := by
  have ho : offered .dec s = true := by simp [offered, hr]
  have hB : specBreak s = (acc s && !s.decPrev && longGap s && hasMarks s) := rfl
  unfold decUnit
  rw [decode_selectorWord]
  cases ha : acc s
  · have hs : selection .dec s = .decOff := by simp [selection, ha]
    rw [hs]
    change ∃ w, execDecOff s = _ ∧ _
    rw [execDecOff, perform_selection _ hc ho hs]
    refine ⟨s.wires, ?_, rfl, rfl, rfl, ?_⟩ <;> simp [hB, ha, hd]
  · cases hP : s.decPrev <;> cases hL : s.wires.level
    · cases hg : longGap s
      · have hs : selection .dec s = .decIdleWait := by simp [selection, ha, hP, hL, hg]
        rw [hs]
        change ∃ w, execDecIdleWait s = _ ∧ _
        rw [execDecIdleWait, perform_selection _ hc ho hs]
        refine ⟨s.wires, ?_, hL, rfl, rfl, ?_⟩ <;> simp [hB, hP, hg, hd, seeLevel]
      · cases hm : hasMarks s
        · have hs : selection .dec s = .decIdleEmpty := by simp [selection, ha, hP, hL, hg, hm]
          rw [hs]
          change ∃ w, execDecIdleEmpty s = _ ∧ _
          rw [execDecIdleEmpty, perform_selection _ hc ho hs]
          refine ⟨s.wires, ?_, hL, rfl, rfl, ?_⟩ <;> simp [hB, hP, hm, hd, seeLevel]
        · have hs : selection .dec s = .decIdleBreak := by simp [selection, ha, hP, hL, hg, hm]
          rw [hs]
          change ∃ w, execDecIdleBreak s = _ ∧ _
          rw [execDecIdleBreak, perform_selection _ hc ho hs, doBreak_eq _ hc hr hi]
          refine ⟨{ s.wires with
            symIn := some .brk
            bufNext := (pushedSyms s.symBuf s.symIdx .brk).1
            idxNext := (pushedSyms s.symBuf s.symIdx .brk).2
            resIn := some (specWord s)
            done := resolveWord (specWord s) }, ?_, hL, rfl, rfl, ?_⟩
          · simp [hB, ha, hP, hg, hm, seeLevel, specWord]
          · simp [hB, ha, hP, hg, hm]
    · cases hg : longGap s
      · have hs : selection .dec s = .decBeginGap := by simp [selection, ha, hP, hL, hg]
        rw [hs]
        change ∃ w, execDecBeginGap s = _ ∧ _
        rw [execDecBeginGap, perform_selection _ hc ho hs]
        refine ⟨s.wires, ?_, hL, rfl, rfl, ?_⟩ <;> simp [hB, hP, hg, hd, seeLevel, markEdge]
      · cases hm : hasMarks s
        · have hs : selection .dec s = .decBeginBreakEmpty := by simp [selection, ha, hP, hL, hg, hm]
          rw [hs]
          change ∃ w, execDecBeginBreakEmpty s = _ ∧ _
          rw [execDecBeginBreakEmpty, perform_selection _ hc ho hs]
          refine ⟨s.wires, ?_, hL, rfl, rfl, ?_⟩ <;> simp [hB, hP, hm, hd, seeLevel, markEdge]
        · have hs : selection .dec s = .decBeginBreak := by simp [selection, ha, hP, hL, hg, hm]
          rw [hs]
          change ∃ w, execDecBeginBreak s = _ ∧ _
          rw [execDecBeginBreak, perform_selection _ hc ho hs, doBreak_eq _ hc hr hi]
          refine ⟨{ s.wires with
            symIn := some .brk
            bufNext := (pushedSyms s.symBuf s.symIdx .brk).1
            idxNext := (pushedSyms s.symBuf s.symIdx .brk).2
            resIn := some (specWord s)
            done := resolveWord (specWord s) }, ?_, hL, rfl, rfl, ?_⟩
          · simp [hB, ha, hP, hg, hm, seeLevel, markEdge, specWord]
          · simp [hB, ha, hP, hg, hm]
    · cases hm : shortMark s
      · have hs : selection .dec s = .decMarkEndDah := by simp [selection, ha, hP, hL, hm]
        have hx : markSymbol s = .dah := if_neg (of_decide_eq_false hm)
        rw [hs]
        change ∃ w, execDecMarkEndDah s = _ ∧ _
        rw [execDecMarkEndDah, perform_selection _ hc ho hs, recordMark_eq _ _ hc hr hi]
        refine ⟨{ s.wires with
          symIn := some .dah
          bufNext := (pushedSyms s.symBuf s.symIdx .dah).1
          idxNext := (pushedSyms s.symBuf s.symIdx .dah).2 }, ?_, hL, rfl, rfl, ?_⟩
        · simp [hB, hP, hx, seeLevel, markEdge]
        · simp [hB, hP, hd]
      · have hs : selection .dec s = .decMarkEndDit := by simp [selection, ha, hP, hL, hm]
        have hx : markSymbol s = .dit := if_pos (of_decide_eq_true hm)
        rw [hs]
        change ∃ w, execDecMarkEndDit s = _ ∧ _
        rw [execDecMarkEndDit, perform_selection _ hc ho hs, recordMark_eq _ _ hc hr hi]
        refine ⟨{ s.wires with
          symIn := some .dit
          bufNext := (pushedSyms s.symBuf s.symIdx .dit).1
          idxNext := (pushedSyms s.symBuf s.symIdx .dit).2 }, ?_, hL, rfl, rfl, ?_⟩
        · simp [hB, hP, hx, seeLevel, markEdge]
        · simp [hB, hP, hd]
    · have hs : selection .dec s = .decMarkHold := by simp [selection, ha, hP, hL]
      rw [hs]
      change ∃ w, execDecMarkHold s = _ ∧ _
      rw [execDecMarkHold, perform_selection _ hc ho hs]
      refine ⟨s.wires, ?_, hL, rfl, rfl, ?_⟩ <;> simp [hB, hP, hd, seeLevel]

/-- The producer's update with the values the state already has. -/
theorem prod_unchanged (s : State) {v : Bool} {e : Event} {p : Option Event} (hv : v = s.pendValid)
    (he : e = s.pendEv) (hp : p = s.wires.push) :
    s = { s with pendValid := v, pendEv := e, wires := { s.wires with push := p } } := by
  subst hv he hp; rfl

/-- PROD (R170, R174 to R180): a completion or a held event is pushed where there is room, and held where there is
none. -/
theorem prodUnit_eq (s : State) (hc : s.cfg.legal = true) (hr : s.pins.rst = false)
    (hd : acc s = false → s.wires.done = none) (hp : s.wires.push = none) :
    prodUnit s = .next { s with
      pendValid := if s.pendValid then s.fifoCnt == 32 else s.wires.done.isSome && s.fifoCnt == 32
      pendEv := (match (if s.pendValid then none else s.wires.done) with
        | some c => if s.fifoCnt = 32 then eventOf (shiftBit s) c else s.pendEv
        | none => s.pendEv)
      wires := { s.wires with
        push := if s.fifoCnt = 32 then none else if s.pendValid then some s.pendEv
          else s.wires.done.map (eventOf (shiftBit s)) } } := by
  have ho : offered .prod s = true := by simp [offered, hr]
  unfold prodUnit
  rw [decode_selectorWord]
  rcases Bool.eq_false_or_eq_true s.pendValid with hv | hv
  · cases hf : fifoFull s
    · have hf' : ¬ s.fifoCnt = 32#6 := by simpa [fifoFull] using hf
      have hs : selection .prod s = .prodPendPush := by simp [selection, hv, hf]
      rw [hs]
      change execProdPendPush s = _
      rw [execProdPendPush, perform_selection _ hc ho hs]
      simp [hf', hv, requestPush, resumeProducer]
    · have hf' : s.fifoCnt = 32#6 := by simpa [fifoFull] using hf
      have hs : selection .prod s = .prodPendWait := by simp [selection, hv, hf]
      rw [hs]
      change execProdPendWait s = _
      rw [execProdPendWait, perform_selection _ hc ho hs]
      exact congrArg _ (prod_unchanged s (by simp [hv, hf']) (by simp [hv]) (by simp [hf', hp]))
  · rcases Option.eq_none_or_eq_some s.wires.done with hn | ⟨c, hn⟩
    · have hdn : charDone s = false := by simp [charDone, hn]
      have hw : ∀ (x : Option Event), (if s.fifoCnt = 32 then none else if s.pendValid then x
          else s.wires.done.map (eventOf (shiftBit s))) = s.wires.push := by simp [hv, hn, hp]
      cases ht : s.pins.sampleTick
      · have hs : selection .prod s = .prodIdle := by simp [selection, hv, ht]
        rw [hs]
        change execProdIdle s = _
        rw [execProdIdle, perform_selection _ hc ho hs]
        exact congrArg _ (prod_unchanged s (by simp [hv, hn]) (by simp [hv, hn]) (hw _))
      · have hs : selection .prod s = .prodTickNoev := by simp [selection, hv, ht, hdn]
        rw [hs]
        change execProdTickNoev s = _
        rw [execProdTickNoev, perform_selection _ hc ho hs]
        exact congrArg _ (prod_unchanged s (by simp [hv, hn]) (by simp [hv, hn]) (hw _))
    · have hdn : charDone s = true := by simp [charDone, hn]
      have ht : s.pins.sampleTick = true := by
        cases ht : s.pins.sampleTick
        · rw [hd (by simp [acc, ht])] at hn; cases hn
        · rfl
      cases hf : fifoFull s
      · have hf' : ¬ s.fifoCnt = 32#6 := by simpa [fifoFull] using hf
        have hs : selection .prod s = .prodEnq := by simp [selection, hv, ht, hdn, hf]
        rw [hs]
        change execProdEnq s = _
        rw [execProdEnq, perform_selection _ hc ho hs]
        simp [hn, hf', hv, requestPush]
      · have hf' : s.fifoCnt = 32#6 := by simpa [fifoFull] using hf
        have hs : selection .prod s = .prodStall := by simp [selection, hv, ht, hdn, hf]
        have hw : { s.wires with push := none } = s.wires := by rw [← hp]
        rw [hs]
        change execProdStall s = _
        rw [execProdStall, perform_selection _ hc ho hs]
        simp only [hn, hv, Bool.false_eq_true, if_false]
        simp [hf', holdEvent, ← hn, hw]
        rw [hn]; rfl

/-- The drain FSM's update with the values the state already has. -/
theorem drn_unchanged (s : State) {d : DrainState} {n : BitVec 16} {v u : Bool} {c m : BitVec 8} (hd : d = s.dstate)
    (hn : n = s.holdCnt) (hv : v = s.out.repValid) (hc : c = s.out.repCode) (hm : m = s.out.repMod)
    (hu : u = s.out.unsup) :
    s = { s with
      dstate := d
      holdCnt := n
      out := { s.out with repValid := v, repCode := c, repMod := m, unsup := u } } := by
  subst hd hn hv hc hm hu; rfl

/-- DRN (R181 to R189): a drain tick in `IDLE` pops the head and presses it or drops it; `HOLD` counts down and
releases. -/
theorem drnUnit_eq (s : State) (hc : s.cfg.legal = true) (hr : s.pins.rst = false) (hp : s.wires.pop = none)
    (h1 : s.out.repValid = false) (h2 : s.out.repCode = 0) (h3 : s.out.repMod = 0) (h4 : s.out.unsup = false) :
    ∃ w, drnUnit s = .next { s with
      dstate := if (specCode s).isSome then .hold else if specRelease s then .idle else s.dstate
      holdCnt := if (specCode s).isSome then s.cfg.holdMs
        else if s.dstate == .hold && s.holdCnt != 0 && s.pins.msTick then s.holdCnt - 1 else s.holdCnt
      wires := w
      out := { s.out with
        repValid := (specCode s).isSome || specRelease s
        repCode := (specCode s).getD 0x00
        repMod := if (specCode s).isSome && ((specPop s).getD 0).getLsbD 8 then s.cfg.shiftMod else 0x00
        unsup := (specPop s).isSome && (specCode s).isNone } } ∧
      w.level = s.wires.level ∧ w.done = s.wires.done ∧ w.push = s.wires.push ∧ w.pop = specPop s := by
  have ho : offered .drn s = true := by simp [offered, hr]
  unfold drnUnit
  rw [decode_selectorWord]
  cases hd : s.dstate
  · have hb : busy s = false := by simp [busy, hd]
    have hrel : specRelease s = false := by simp [specRelease, hd]
    have quiet : specPop s = none → ∀ a : Answer, a = .next s → ∃ w : Wires, a = .next { s with
        dstate := if (specCode s).isSome then .hold else if specRelease s then .idle else .idle
        holdCnt := if (specCode s).isSome then s.cfg.holdMs
          else if DrainState.idle == .hold && s.holdCnt != 0 && s.pins.msTick then s.holdCnt - 1 else s.holdCnt
        wires := w
        out := { s.out with
          repValid := (specCode s).isSome || specRelease s
          repCode := (specCode s).getD 0x00
          repMod := if (specCode s).isSome && ((specPop s).getD 0).getLsbD 8 then s.cfg.shiftMod else 0x00
          unsup := (specPop s).isSome && (specCode s).isNone } } ∧
        w.level = s.wires.level ∧ w.done = s.wires.done ∧ w.push = s.wires.push ∧ w.pop = specPop s := by
      rintro hn a rfl
      have hcode : specCode s = none := by simp [specCode, hn]
      exact ⟨s.wires, congrArg _ (drn_unchanged s (by simp [hcode, hrel, hd]) (by simp [hcode])
        (by simp [hcode, hrel, h1]) (by simp [hcode, h2]) (by simp [hcode, h3]) (by simp [hn, h4])),
        rfl, rfl, rfl, by rw [hn, hp]⟩
    cases ht : s.pins.drainTick
    · have hs : selection .drn s = .drnIdleWait := by simp [selection, hb, ht]
      rw [hs]
      refine quiet (by simp [specPop, ht]) (execDrnIdleWait s) ?_
      rw [execDrnIdleWait, perform_selection _ hc ho hs]
    · cases he : fifoEmpty s
      · have hne : ¬ s.fifoCnt = 0#6 := by simpa [fifoEmpty] using he
        have hpop : specPop s = some (fifoRead s.fifoMem s.fifoRd) := by simp [specPop, hd, ht, hne]
        cases hv : headValid s
        · have hv' : (keymapEntry s.cfg.keymap ((fifoRead s.fifoMem s.fifoRd).setWidth 8)).valid = false := by
            simpa [headValid, he, eventChar, fifoHead] using hv
          have hcode : specCode s = none := by simp [specCode, hpop, scanCode, hv']
          have hs : selection .drn s = .drnPopSkip := by simp [selection, hb, ht, he, hv]
          rw [hs]
          change ∃ w, execDrnPopSkip s = _ ∧ _
          rw [execDrnPopSkip, perform_selection _ hc ho hs, lookUp_eq _ _ (by exact hc) (by exact hr)]
          refine ⟨{ s.wires with
            pop := some (fifoRead s.fifoMem s.fifoRd)
            lookup := some ((fifoRead s.fifoMem s.fifoRd).setWidth 8)
            code := none }, ?_, rfl, rfl, rfl, hpop.symm⟩
          simp [hcode, hpop, hrel, requestPop, fifoHead, eventChar, scanCode, hv', signal, hd, h1, h2, h3]
        · have hv' : (keymapEntry s.cfg.keymap ((fifoRead s.fifoMem s.fifoRd).setWidth 8)).valid = true := by
            simpa [headValid, he, eventChar, fifoHead] using hv
          have hcode : specCode s =
              some (keymapEntry s.cfg.keymap ((fifoRead s.fifoMem s.fifoRd).setWidth 8)).code := by
            simp [specCode, hpop, scanCode, hv']
          have hs : selection .drn s = .drnPopPress := by simp [selection, hb, ht, he, hv]
          rw [hs]
          change ∃ w, execDrnPopPress s = _ ∧ _
          rw [execDrnPopPress, perform_selection _ hc ho hs, lookUp_eq _ _ (by exact hc) (by exact hr)]
          refine ⟨{ s.wires with
            pop := some (fifoRead s.fifoMem s.fifoRd)
            lookup := some ((fifoRead s.fifoMem s.fifoRd).setWidth 8)
            code := some (keymapEntry s.cfg.keymap ((fifoRead s.fifoMem s.fifoRd).setWidth 8)).code },
            ?_, rfl, rfl, rfl, hpop.symm⟩
          simp [hcode, hpop, hrel, requestPop, fifoHead, eventChar, scanCode, hv', startHold, emitReport,
            pressModifier, eventShift, h4]
      · have hne : s.fifoCnt = 0#6 := by simpa [fifoEmpty] using he
        have hs : selection .drn s = .drnIdleEmpty := by simp [selection, hb, ht, he]
        rw [hs]
        refine quiet (by simp [specPop, hne]) (execDrnIdleEmpty s) ?_
        rw [execDrnIdleEmpty, perform_selection _ hc ho hs]
  · have hb : busy s = true := by simp [busy, hd]
    have hn : specPop s = none := by simp [specPop, hd]
    have hcode : specCode s = none := by simp [specCode, hn]
    cases hz : holdZero s
    · have hz' : ¬ s.holdCnt = 0#16 := by simpa [holdZero] using hz
      have hrel : specRelease s = false := by simp [specRelease, hz']
      cases hm : s.pins.msTick
      · have hs : selection .drn s = .drnHoldWait := by simp [selection, hb, hz, hm]
        rw [hs]
        change ∃ w, execDrnHoldWait s = _ ∧ _
        rw [execDrnHoldWait, perform_selection _ hc ho hs]
        exact ⟨s.wires, congrArg _ (drn_unchanged s (by simp [hcode, hrel, hd]) (by simp [hcode])
          (by simp [hcode, hrel, h1]) (by simp [hcode, h2]) (by simp [hcode, h3]) (by simp [hn, h4])),
          rfl, rfl, rfl, by rw [hn, hp]⟩
      · have hs : selection .drn s = .drnHoldCount := by simp [selection, hb, hz, hm]
        rw [hs]
        change ∃ w, execDrnHoldCount s = _ ∧ _
        rw [execDrnHoldCount, perform_selection _ hc ho hs]
        exact ⟨s.wires, congrArg _ (drn_unchanged (countHold s) (by simp [hcode, hrel, hd]) (by simp [hcode, hz'])
          (by simp [hcode, hrel, h1]) (by simp [hcode, h2]) (by simp [hcode, h3]) (by simp [hn, h4])),
          rfl, rfl, rfl, by rw [hn, hp]⟩
    · have hz' : s.holdCnt = 0#16 := by simpa [holdZero] using hz
      have hrel : specRelease s = true := by simp [specRelease, hd, hz']
      have hs : selection .drn s = .drnRelease := by simp [selection, hb, hz]
      rw [hs]
      change ∃ w, execDrnRelease s = _ ∧ _
      rw [execDrnRelease, perform_selection _ hc ho hs]
      refine ⟨s.wires, ?_, rfl, rfl, rfl, by rw [hn, hp]⟩
      simp [hcode, hn, hrel, hz', endHold, emitReport, h4]

/-- TB (R190, R191): a millisecond tick advances the timestamp. -/
theorem tbUnit_eq (s : State) (hc : s.cfg.legal = true) (hr : s.pins.rst = false) :
    tbUnit s = .next { s with msCount := if s.pins.msTick then s.msCount + 1 else s.msCount } := by
  have ho : offered .tb s = true := by simp [offered, hr]
  unfold tbUnit
  rw [decode_selectorWord]
  cases hm : s.pins.msTick
  · have hs : selection .tb s = .tbIdle := by simp [selection, hm]
    rw [hs]
    change execTbIdle s = _
    rw [execTbIdle, perform_selection _ hc ho hs]
    rfl
  · have hs : selection .tb s = .tbCount := by simp [selection, hm]
    rw [hs]
    change execTbCount s = _
    rw [execTbCount, perform_selection _ hc ho hs]
    rfl

/-- FIFO (R171 to R173): a push stores at the tail, a pop drops the head, and the count follows both. -/
theorem fifoUnit_eq (s : State) (hc : s.cfg.legal = true) (hr : s.pins.rst = false)
    (h1 : s.wires.push.isSome = true → s.fifoCnt.toNat < 32) (h2 : s.wires.pop.isSome = true → s.fifoCnt ≠ 0) :
    fifoUnit s = .next { s with
      fifoMem := (match s.wires.push with
        | some e => fifoWrite s.fifoMem s.fifoWr e
        | none => s.fifoMem)
      fifoWr := if s.wires.push.isSome then s.fifoWr + 1 else s.fifoWr
      fifoRd := if s.wires.pop.isSome then s.fifoRd + 1 else s.fifoRd
      fifoCnt := s.fifoCnt + (if s.wires.push.isSome then 1 else 0) - (if s.wires.pop.isSome then 1 else 0) } := by
  have ho : offered .fifo s = true := by simp [offered, hr]
  have hpos : s.fifoCnt ≠ 0 → decide (0 < s.fifoCnt) = true := by
    intro h
    have := mt BitVec.eq_of_toNat_eq h
    apply decide_eq_true
    rw [BitVec.lt_def]
    simp at *
    omega
  have hlt : s.fifoCnt.toNat < 32 → decide (s.fifoCnt < 32) = true := by
    intro h
    apply decide_eq_true
    rw [BitVec.lt_def]
    simpa using h
  unfold fifoUnit
  rw [decode_selectorWord]
  rcases Option.eq_none_or_eq_some s.wires.push with hp | ⟨e, hp⟩ <;>
    rcases Option.eq_none_or_eq_some s.wires.pop with hq | ⟨q, hq⟩
  · have hs : selection .fifo s = .fifoNone := by simp [selection, pushing, popping, hp, hq]
    rw [hs]
    change execFifoNone s = _
    rw [execFifoNone, perform_selection _ hc ho hs]
    simp [hp, hq, adjustCount]
  · have hs : selection .fifo s = .fifoPop := by simp [selection, pushing, popping, hp, hq]
    rw [hs]
    change execFifoPop s = _
    rw [execFifoPop, perform_selection _ hc ho hs, hpos (h2 (by simp [hq]))]
    simp [hp, hq, adjustCount, dropHead]
  · have hs : selection .fifo s = .fifoPush := by simp [selection, pushing, popping, hp, hq]
    rw [hs]
    change execFifoPush s = _
    rw [execFifoPush, perform_selection _ hc ho hs, hp, hlt (h1 (by simp [hp]))]
    simp [hq, adjustCount, storeTail]
  · have hs : selection .fifo s = .fifoPushPop := by simp [selection, pushing, popping, hp, hq]
    rw [hs]
    change execFifoPushPop s = _
    rw [execFifoPushPop, perform_selection _ hc ho hs, hp, hlt (h1 (by simp [hp])), hpos (h2 (by simp [hq]))]
    simp [hq, adjustCount, dropHead, storeTail]

end Sys2Proof.Machine
end

