-- ==== Sys2Proof/Tests/Slice0.lean ====
section
/-! SUPPORT. The model's own tests. Expected results come from spec/95_test_vectors.md (the vector is named in each
docstring) and from the selecting bits of spec/30_encoding.md section 5. The last part gives, for each obligation that
has hypotheses, a concrete state that meets them, clause by clause. -/

namespace Sys2Proof.Tests

open Sys2Proof Sys2Proof.Machine

/-- The state with the input ports of one cycle, given as a byte `iv` (R83). -/
abbrev on (iv : Word) (s : State) : State := { s with pins := inputsOfByte iv }

/-- The level DEB passes to DEC. -/
abbrev seeing (lvl : Bool) (s : State) : State := { s with wires := { Wires.clear with level := lvl } }

/-- A timestamp and the time of the last edge. -/
abbrev at_ (last now : Millis) (s : State) : State := { s with tLast := last, msCount := now }

/-- The answer goes on, and the next state passes the check. -/
def ends (a : Answer) (p : State → Bool) : Bool :=
  match a with
  | .next t => p t
  | .fault _ => false
  | .refused _ => false

/-- The answer refuses for the given reason. -/
def refuses (a : Answer) (r : Refusal) : Bool :=
  match a with
  | .next _ => false
  | .fault _ => false
  | .refused q => q == r

/-- The answer is the domain fault. -/
def faults (a : Answer) : Bool :=
  match a with
  | .next _ => false
  | .fault f => f == .outsideDomain
  | .refused _ => false

/-- The reset state. -/
abbrev r0 : State := State.reset

/-- One accepted sample, the key up: `sample_tick`, `key_valid` and `shift_valid`. -/
abbrev tick0 (s : State) : State := on 0xA2 s

/-- One accepted sample, the key down. -/
abbrev tick1 (s : State) : State := on 0xB2 s

/-! ### Well-formedness: each check refuses an ill-formed term -/

theorem test_word_above_its_format_is_refused :
    Format.rst.fits 2 = false ∧ Format.deb.fits 16 = false ∧ Format.dec.fits 64 = false ∧ Format.fifo.fits 4 = false ∧
    decode .tb 2 = .rejected .bitsAboveWidth := by decide

theorem test_dit_ms_zero_is_illegal : { exampleConfig with ditMs := 0 }.legal = false := by decide

theorem test_break_units_zero_is_illegal : { exampleConfig with breakUnits := 0 }.legal = false := by decide

theorem test_example_config_is_legal : exampleConfig.legal = true := by decide

theorem test_illegal_block_performs_nothing :
    refuses (exec .cycRun { r0 with cfg := { exampleConfig with ditMs := 0 } }) .illegalConfig = true := by decide

/-! ### Decoding: every row's word from its selecting bits (section 5), open bits at 0 and at 1 -/

theorem test_decode_rst : decode .rst 0b1 = .op .cycReset ∧ decode .rst 0b0 = .op .cycRun := by decide

/-- Bits 3 to 0: `zeros`, `ones`, `key_valid`, `acc`. -/
theorem test_decode_deb :
    decode .deb 0b0000 = .op .debFrozen ∧ decode .deb 0b1110 = .op .debFrozen ∧
    decode .deb 0b0001 = .op .debUnavail ∧ decode .deb 0b1101 = .op .debUnavail ∧
    decode .deb 0b0111 = .op .debSet1 ∧ decode .deb 0b1011 = .op .debSet0 ∧
    decode .deb 0b0011 = .op .debKeep := by decide

/-- Bits 5 to 0: `acc`, `nz`, `ge`, `le`, `P`, `L`. -/
theorem test_decode_dec_marks :
    decode .dec 0b000000 = .op .decOff ∧ decode .dec 0b011111 = .op .decOff ∧
    decode .dec 0b100011 = .op .decMarkHold ∧ decode .dec 0b111111 = .op .decMarkHold ∧
    decode .dec 0b100110 = .op .decMarkEndDit ∧ decode .dec 0b111110 = .op .decMarkEndDit ∧
    decode .dec 0b100010 = .op .decMarkEndDah ∧ decode .dec 0b111010 = .op .decMarkEndDah := by decide

theorem test_decode_dec_silences :
    decode .dec 0b100001 = .op .decBeginGap ∧ decode .dec 0b110101 = .op .decBeginGap ∧
    decode .dec 0b111001 = .op .decBeginBreak ∧ decode .dec 0b101001 = .op .decBeginBreakEmpty ∧
    decode .dec 0b111000 = .op .decIdleBreak ∧ decode .dec 0b100000 = .op .decIdleWait ∧
    decode .dec 0b110100 = .op .decIdleWait ∧ decode .dec 0b101000 = .op .decIdleEmpty ∧
    decode .dec 0b101100 = .op .decIdleEmpty := by decide

theorem test_decode_sym_res_kmap :
    decode .sym 0b0 = .op .symAppend ∧ decode .sym 0b1 = .op .symEvict ∧
    decode .res 0b1 = .op .resMatch ∧ decode .res 0b0 = .op .resNomatch ∧
    decode .kmap 0b1 = .op .kmapHit ∧ decode .kmap 0b0 = .op .kmapMiss := by decide

/-- Bits 3 to 0: `done`, `fifo_full`, `pend_valid`, `sample_tick`. -/
theorem test_decode_prod :
    decode .prod 0b0000 = .op .prodIdle ∧ decode .prod 0b0100 = .op .prodIdle ∧
    decode .prod 0b0001 = .op .prodTickNoev ∧ decode .prod 0b0101 = .op .prodTickNoev ∧
    decode .prod 0b1001 = .op .prodEnq ∧ decode .prod 0b1101 = .op .prodStall ∧
    decode .prod 0b0010 = .op .prodPendPush ∧ decode .prod 0b0011 = .op .prodPendPush ∧
    decode .prod 0b0110 = .op .prodPendWait ∧ decode .prod 0b0111 = .op .prodPendWait := by decide

/-- Bits 5 to 0: `kv`, `ms_tick`, `hz`, `fifo_empty`, `drain_tick`, `ds`. -/
theorem test_decode_drn :
    decode .drn 0b000000 = .op .drnIdleWait ∧ decode .drn 0b111100 = .op .drnIdleWait ∧
    decode .drn 0b000110 = .op .drnIdleEmpty ∧ decode .drn 0b011110 = .op .drnIdleEmpty ∧
    decode .drn 0b100010 = .op .drnPopPress ∧ decode .drn 0b111010 = .op .drnPopPress ∧
    decode .drn 0b000010 = .op .drnPopSkip ∧ decode .drn 0b010001 = .op .drnHoldCount ∧
    decode .drn 0b110011 = .op .drnHoldCount ∧ decode .drn 0b000001 = .op .drnHoldWait ∧
    decode .drn 0b001001 = .op .drnRelease ∧ decode .drn 0b111111 = .op .drnRelease := by decide

theorem test_decode_fifo_tb :
    decode .fifo 0b00 = .op .fifoNone ∧ decode .fifo 0b01 = .op .fifoPush ∧ decode .fifo 0b10 = .op .fifoPop ∧
    decode .fifo 0b11 = .op .fifoPushPop ∧ decode .tb 0b1 = .op .tbCount ∧ decode .tb 0b0 = .op .tbIdle := by decide

/-- R83's examples: `RESET k=1` is 0xB1, `TICK k=1` is 0xB6, `DRAIN` is 0xA8. -/
theorem test_input_bytes :
    unroll (expandLines [.reset true, .mark 2 false, .gap 1 false, .drain, .ms 1, .nop 1]) =
      [0xB1, 0xB6, 0xB6, 0xA6, 0xA8, 0xA4, 0xA0] := by decide

/-- A bare table word that only one format reads (notes/assumptions/10.md). -/
theorem test_bare_words :
    decodeTableWord 8 0x39 = some .decBeginBreak ∧ decodeTableWord 8 0xd = some .prodStall ∧
    decodeTableWord 8 0x11 = some .drnHoldCount ∧ decodeTableWord 8 0x1 = some .cycReset ∧
    decodeTableWord 8 0x100 = none := by decide

/-! ### DEB -/

/-- DEB-1. -/
theorem test_deb_keep : ends (exec .debKeep (tick0 { r0 with debSr := 0x00FF, settled := true, decPrev := true }))
    (fun t => t.debSr == 0x01FE && t.settled && t.wires.level) = true := by decide

/-- DEB-5. -/
theorem test_deb_keep_shifts_in_one : ends (exec .debKeep (tick1 { r0 with debSr := 0x7FFE }))
    (fun t => t.debSr == 0xFFFD && !t.settled && !t.wires.level) = true := by decide

/-- DEB-2. -/
theorem test_deb_set1 : ends (exec .debSet1 (tick1 { r0 with debSr := 0x7FFF }))
    (fun t => t.debSr == 0xFFFF && t.settled && t.wires.level) = true := by decide

/-- DEB-4. -/
theorem test_deb_set0 : ends (exec .debSet0 (tick0 { r0 with debSr := 0x8000, settled := true, decPrev := true }))
    (fun t => t.debSr == 0x0000 && !t.settled && !t.wires.level) = true := by decide

/-- DEB-6. -/
theorem test_deb_unavail : ends (exec .debUnavail (on 0x92 { r0 with debSr := 0x0F0F, settled := true }))
    (fun t => t.debSr == 0x0F0F && t.wires.level) = true := by decide

/-- DEB-7. -/
theorem test_deb_frozen : ends (exec .debFrozen (on 0xB0 { r0 with debSr := 0x0F0F, settled := true }))
    (fun t => t.debSr == 0x0F0F && t.wires.level) = true := by decide

/-- DEB-8: the producer is suspended, so the tick is dropped. -/
theorem test_deb_frozen_when_suspended :
    ends (exec .debFrozen (tick1 { r0 with debSr := 0x7FFF, pendValid := true, pendEv := 0x065, fifoCnt := 32 }))
      (fun t => t.debSr == 0x7FFF && !t.settled) = true := by decide

/-! ### DEC -/

/-- DEC-1. -/
theorem test_mark_end_dit : ends (exec .decMarkEndDit (tick0 (seeing false (at_ 15 75 { r0 with decPrev := true }))))
    (fun t => t.symBuf == bufE && t.symIdx == 1 && t.tLast == 75 && !t.decPrev) = true := by decide

/-- DEC-14: the interval is measured across the wrap of `ms_count`. -/
theorem test_mark_end_dit_across_wrap :
    ends (exec .decMarkEndDit (tick0 (seeing false (at_ 0xFFFFFFF0 0x20 { r0 with decPrev := true }))))
      (fun t => t.symIdx == 1 && t.tLast == 0x20) = true := by decide

/-- DEC-4; DEC-3 is the other side of the threshold. -/
theorem test_mark_end_dah : ends (exec .decMarkEndDah (tick0 (seeing false (at_ 0 180 { r0 with decPrev := true }))))
    (fun t => t.symBuf[0] == .dah && t.symIdx == 1 && t.tLast == 180) = true := by decide

/-- DEC-3: 179 ms are two units, so the Dah's row is not selected. -/
theorem test_mark_end_dah_needs_three_units :
    refuses (exec .decMarkEndDah (tick0 (seeing false (at_ 0 179 { r0 with decPrev := true }))))
      (.notSelected .decMarkEndDah) = true := by decide

/-- One Dah in the buffer. -/
abbrev withDah (s : State) : State :=
  { s with symBuf := #v[.dah, .empty, .empty, .empty, .empty, .empty], symIdx := 1 }

/-- Two Dits in the buffer. -/
abbrev withDits (s : State) : State :=
  { s with symBuf := #v[.dit, .dit, .empty, .empty, .empty, .empty], symIdx := 2 }

/-- DEC-6. -/
theorem test_begin_gap : ends (exec .decBeginGap (tick1 (seeing true (at_ 196 615 (withDah r0)))))
    (fun t => t.symIdx == 1 && t.tLast == 615 && t.decPrev) = true := by decide

/-- DEC-7. -/
theorem test_begin_break : ends (exec .decBeginBreak (tick1 (seeing true (at_ 196 616 (withDah r0)))))
    (fun t => t.out.charValid && t.out.char == 0x74 && t.symIdx == 0 && t.tLast == 616) = true := by decide

/-- DEC-8. -/
theorem test_begin_break_empty : ends (exec .decBeginBreakEmpty (tick1 (seeing true (at_ 0 5000 r0))))
    (fun t => t.tLast == 5000 && t.decPrev && !t.out.charValid && !t.out.noMatch) = true := by decide

/-- DEC-9. -/
theorem test_idle_break : ends (exec .decIdleBreak (tick0 (seeing false (at_ 195 615 (withDits r0)))))
    (fun t => t.out.char == 0x69 && t.symBuf == emptyBuf && t.tLast == 195) = true := by decide

/-- DEC-15. -/
theorem test_idle_break_without_match :
    ends (exec .decIdleBreak (tick0 (seeing false (at_ 100 520 { r0 with symBuf := bufNone, symIdx := 4 }))))
      (fun t => t.out.noMatch && !t.out.charValid && t.symIdx == 0) = true := by decide

/-- DEC-10. -/
theorem test_idle_wait : ends (exec .decIdleWait (tick0 (seeing false (at_ 195 614 (withDits r0)))))
    (fun t => t.symIdx == 2 && t.tLast == 195) = true := by decide

/-- DEC-11. -/
theorem test_idle_empty : ends (exec .decIdleEmpty (tick0 (seeing false (at_ 0 1000 r0))))
    (fun t => t.tLast == 0 && !t.out.noMatch) = true := by decide

/-- DEC-12. -/
theorem test_mark_hold : ends (exec .decMarkHold (tick1 (seeing true (at_ 0 99999 { r0 with decPrev := true }))))
    (fun t => t.tLast == 0 && t.decPrev) = true := by decide

/-- DEC-13. -/
theorem test_dec_off : ends (exec .decOff (on 0xA0 (seeing true r0))) (fun t => !t.decPrev) = true := by decide

/-! ### SYM and RES -/

/-- A symbol offered to `push_sym`. -/
abbrev offering (x : Symbol) (s : State) : State := { s with wires := { s.wires with symIn := some x } }

/-- A word offered to the resolution. -/
abbrev resolving (w : SymWord) (s : State) : State := { s with wires := { s.wires with resIn := some w } }

/-- SYM-1. -/
theorem test_sym_append : ends (exec .symAppend (tick0 (offering .dah (withDits r0))))
    (fun t => t.wires.bufNext == #v[.dit, .dit, .dah, .empty, .empty, .empty] && t.wires.idxNext == 3) = true := by decide

/-- SYM-2: slot 5. -/
theorem test_sym_append_last_slot :
    ends (exec .symAppend (tick0 (offering .dit { r0 with symBuf := #v[.dah, .dit, .dah, .dit, .dah, .empty], symIdx := 5 })))
      (fun t => t.wires.bufNext[5] == .dit && t.wires.idxNext == 6) = true := by decide

/-- SYM-3. -/
theorem test_sym_evict : ends (exec .symEvict (tick0 (offering .dah { r0 with symBuf := bufFullDits, symIdx := 6 })))
    (fun t => t.wires.bufNext == #v[.dit, .dit, .dit, .dit, .dit, .dah] && t.wires.idxNext == 6) = true := by decide

/-- SYM-5: a Dit and five Dahs, then a `BREAK`. -/
theorem test_sym_evict_then_match :
    ends (doBreak (tick0 { r0 with symBuf := #v[.dit, .dah, .dah, .dah, .dah, .dah], symIdx := 6 }))
      (fun t => t.wires.resIn == some 0xEAA && t.out.char == 0x30 && t.symIdx == 0) = true := by decide

/-- RES-2 and RES-4. -/
theorem test_res_match :
    ends (exec .resMatch (tick0 (resolving 0x039 r0))) (fun t => t.wires.done == some 0x61) = true ∧
    ends (exec .resMatch (tick0 (resolving 0xD55 r0))) (fun t => t.out.charValid && t.out.char == 0x35) = true := by
  decide

/-- RES-5 and RES-6. -/
theorem test_res_nomatch :
    ends (exec .resNomatch (tick0 (resolving 0x3A5 r0))) (fun t => t.out.noMatch) = true ∧
    ends (exec .resNomatch (tick0 (resolving 0xD99 r0))) (fun t => t.out.noMatch && !t.out.charValid) = true := by
  decide

/-! ### KMAP -/

/-- A character offered to the key map. -/
abbrev asking (c : Char8) (s : State) : State := { s with wires := { s.wires with lookup := some c } }

/-- KMAP-1 and KMAP-6. -/
theorem test_kmap_hit :
    ends (exec .kmapHit (tick0 (asking 0x69 r0))) (fun t => t.wires.code == some 0x0C) = true ∧
    ends (exec .kmapHit (tick0 (asking 0x30 r0))) (fun t => t.wires.code == some 0x27) = true := by decide

/-- KMAP-8 and KMAP-9. -/
theorem test_kmap_miss :
    ends (exec .kmapMiss (tick0 (asking 0x41 r0))) (fun t => t.wires.code == none) = true ∧
    ends (exec .kmapMiss (tick0 (asking 0x00 r0))) (fun t => t.wires.code == none) = true := by decide

/-! ### PROD -/

/-- A character completed this cycle. -/
abbrev completing (c : Char8) (s : State) : State := { s with wires := { s.wires with done := some c } }

/-- PROD-1, with `shift_in` and `shift_valid`. -/
theorem test_prod_enq : ends (exec .prodEnq (on 0xE2 (completing 0x69 r0)))
    (fun t => t.wires.push == some 0x169) = true := by decide

/-- PROD-2: the shift line is unavailable. -/
theorem test_prod_enq_shift_unavailable : ends (exec .prodEnq (on 0x62 (completing 0x69 r0)))
    (fun t => t.wires.push == some 0x069) = true := by decide

/-- PROD-3. -/
theorem test_prod_stall : ends (exec .prodStall (on 0xE2 (completing 0x65 { r0 with fifoCnt := 32 })))
    (fun t => t.pendValid && t.pendEv == 0x165 && t.wires.push == none) = true := by decide

/-- PROD-5. -/
theorem test_prod_pend_push :
    ends (exec .prodPendPush (tick0 { r0 with pendValid := true, pendEv := 0x165, fifoCnt := 31, fifoRd := 1 }))
      (fun t => !t.pendValid && t.wires.push == some 0x165) = true := by decide

/-- PROD-6. -/
theorem test_prod_pend_wait : ends (exec .prodPendWait (tick0 { r0 with pendValid := true, fifoCnt := 32 }))
    (fun t => t.pendValid && t.wires.push == none) = true := by decide

/-- PROD-7. -/
theorem test_prod_idle : ends (exec .prodIdle (on 0xA0 r0)) (fun t => t == on 0xA0 r0) = true := by decide

/-- PROD-8. -/
theorem test_prod_tick_noev : ends (exec .prodTickNoev (tick0 r0)) (fun t => t == tick0 r0) = true := by decide

/-! ### DRN -/

/-- The FIFO with one event at the head. -/
abbrev holding (e : Event) (s : State) : State :=
  { s with fifoMem := s.fifoMem.set 0 e, fifoRd := 0, fifoWr := 1, fifoCnt := 1 }

/-- DRN-1, in the vector's own state (`fifo_wr` = 0 beside `fifo_cnt` = 1, notes/assumptions/6.md). -/
theorem test_drn_idle_wait : ends (exec .drnIdleWait (on 0xA0 { r0 with fifoCnt := 1 }))
    (fun t => t == on 0xA0 { r0 with fifoCnt := 1 }) = true := by decide

/-- DRN-2. -/
theorem test_drn_idle_empty : ends (exec .drnIdleEmpty (on 0xA8 r0)) (fun t => t == on 0xA8 r0) = true := by decide

/-- DRN-3. -/
theorem test_drn_pop_press : ends (exec .drnPopPress (on 0xA8 (holding 0x169 r0)))
    (fun t => t.out.repValid && t.out.repCode == 0x0C && t.out.repMod == 0x02 && t.holdCnt == 10) = true := by decide

/-- DRN-4. -/
theorem test_drn_pop_press_unshifted : ends (exec .drnPopPress (on 0xA8 (holding 0x030 r0)))
    (fun t => t.out.repCode == 0x27 && t.out.repMod == 0x00 && t.dstate == .hold) = true := by decide

/-- DRN-5. -/
theorem test_drn_pop_skip : ends (exec .drnPopSkip (on 0xA8 (holding 0x041 r0)))
    (fun t => t.out.unsup && !t.out.repValid && t.dstate == .idle && t.wires.pop == some 0x041) = true := by decide

/-- DRN-6. -/
theorem test_drn_hold_count : ends (exec .drnHoldCount (on 0xA4 { r0 with dstate := .hold, holdCnt := 10 }))
    (fun t => t.holdCnt == 9) = true := by decide

/-- DRN-7. -/
theorem test_drn_hold_count_to_zero : ends (exec .drnHoldCount (on 0xA4 { r0 with dstate := .hold, holdCnt := 1 }))
    (fun t => t.holdCnt == 0 && !t.out.repValid && t.dstate == .hold) = true := by decide

/-- DRN-8. -/
theorem test_drn_hold_wait : ends (exec .drnHoldWait (on 0xA8 { r0 with dstate := .hold, holdCnt := 4 }))
    (fun t => t.holdCnt == 4 && t.wires.pop == none) = true := by decide

/-- DRN-9, in the vector's own state (notes/assumptions/6.md). -/
theorem test_drn_release : ends (exec .drnRelease (on 0xAC { r0 with dstate := .hold, fifoCnt := 3 }))
    (fun t => t.out.repValid && t.out.repCode == 0x00 && t.dstate == .idle && t.wires.pop == none) = true := by decide

/-! ### FIFO and TB -/

/-- A push and a pop asked for this cycle. -/
abbrev moving (push pop : Option Event) (s : State) : State :=
  { s with wires := { s.wires with push := push, pop := pop } }

/-- FIFO-1. -/
theorem test_fifo_push :
    ends (exec .fifoPush (on 0xA0 (moving (some 0x065) none { r0 with fifoWr := 31, fifoRd := 31 })))
      (fun t => t.fifoMem[31] == 0x065 && t.fifoWr == 0 && t.fifoCnt == 1) = true := by decide

/-- FIFO-2. -/
theorem test_fifo_pop :
    ends (exec .fifoPop (on 0xA0 (moving none (some 0) { r0 with fifoRd := 31, fifoCnt := 1 })))
      (fun t => t.fifoRd == 0 && t.fifoCnt == 0) = true := by decide

/-- FIFO-3. -/
theorem test_fifo_push_pop :
    ends (exec .fifoPushPop (on 0xA0 (moving (some 0x074) (some 0) { r0 with fifoRd := 3, fifoWr := 8, fifoCnt := 5 })))
      (fun t => t.fifoMem[8] == 0x074 && t.fifoWr == 9 && t.fifoRd == 4 && t.fifoCnt == 5) = true := by decide

/-- FIFO-5. -/
theorem test_fifo_none : ends (exec .fifoNone (on 0xA0 r0)) (fun t => t == on 0xA0 r0) = true := by decide

/-- A push into a full FIFO is outside the domain (R171's precondition). -/
theorem test_fifo_push_when_full :
    faults (exec .fifoPush (on 0xA0 (moving (some 0x065) none { r0 with fifoCnt := 32 }))) = true := by decide

/-- TB-1 and TB-2. -/
theorem test_tb_count :
    ends (exec .tbCount (on 0xA4 (at_ 0 614 r0))) (fun t => t.msCount == 615) = true ∧
    ends (exec .tbCount (on 0xA4 (at_ 0 0xFFFFFFFF r0))) (fun t => t.msCount == 0) = true := by decide

/-- TB-3. -/
theorem test_tb_idle : ends (exec .tbIdle (on 0xA0 (at_ 0 614 r0))) (fun t => t.msCount == 614) = true := by decide

/-! ### The cycle -/

/-- RST-1, from a state with a key held (RST-3: no report is emitted). -/
theorem test_cyc_reset_seed_one :
    ends (step (drive 0xB1 { r0 with dstate := .hold, holdCnt := 7, msCount := 5 }))
      (fun t => t.debSr == 0xFFFF && t.settled && t.decPrev && t.dstate == .idle && !t.out.repValid) = true := by decide

/-- RST-4: the strobes of a reset cycle are ignored. -/
theorem test_cyc_reset_ignores_strobes :
    ends (step (drive 0xAF r0)) (fun t => t.msCount == 0 && !t.settled && t.debSr == 0) = true := by decide

/-- PROD-4: the pop makes no room in the same cycle, so the completed event is held. -/
theorem test_cycle_stall_beside_pop :
    ends (step (drive 0xEA (at_ 100 520
        { r0 with symBuf := bufE, symIdx := 1, fifoMem := r0.fifoMem.set 0 0x061, fifoCnt := 32 })))
      (fun t => t.pendValid && t.pendEv == 0x165 && t.fifoCnt == 31 && t.fifoRd == 1 && t.out.repCode == 0x04) = true := by
  decide

/-- TB-4: the decoder reads the start-of-cycle `ms_count`, so the break waits for the next tick. -/
theorem test_cycle_decoder_reads_old_time :
    ends (step (drive 0xA6 (at_ 195 614 (withDits r0)))) (fun t => t.msCount == 615 && t.symIdx == 2) = true := by decide

/-- A state outside R33 has no meaning in a cycle with `rst` = 0 (R80, D31). -/
theorem test_cycle_outside_the_domain : faults (step (drive 0x00 { r0 with symIdx := 7 })) = true := by decide

/-- Every operation can be set up as the first after reset, and the step goes on. -/
theorem test_every_operation_runs_first :
    ([.cycReset, .cycRun, .debFrozen, .debUnavail, .debSet1, .debSet0, .debKeep, .decOff, .decMarkHold, .decMarkEndDit,
      .decMarkEndDah, .decBeginGap, .decBeginBreak, .decBeginBreakEmpty, .decIdleBreak, .decIdleWait, .decIdleEmpty,
      .symAppend, .symEvict, .resMatch, .resNomatch] : List Instr).all
      (fun i => ends (step (setUpFor i r0)) (fun _ => true)) = true := by decide

theorem test_every_operation_runs_first_too :
    ([.kmapHit, .kmapMiss, .prodIdle, .prodTickNoev, .prodEnq, .prodStall, .prodPendPush, .prodPendWait, .drnIdleWait,
      .drnIdleEmpty, .drnPopPress, .drnPopSkip, .drnHoldCount, .drnHoldWait, .drnRelease, .fifoNone, .fifoPush, .fifoPop,
      .fifoPushPop, .tbCount, .tbIdle] : List Instr).all
      (fun i => ends (step (setUpFor i r0)) (fun _ => true)) = true := by decide

/-- The bare word of `DEC_IDLE_BREAK` placed after reset makes the very next step complete a character. -/
theorem test_with_fetch_word :
    ends (step (State.reset.withFetchWord 8 0x38)) (fun t => t.out.charValid && t.out.char == 0x65) = true := by decide

/-! ### Witnesses: for each obligation, states that meet its hypotheses together, one for each clause -/

theorem test_witness_DebKeepShiftsSampleAndHoldsLevel :
    let s := tick0 { r0 with debSr := 0xFFFF }
    Running s ∧ Accepted s ∧ s.pins.keyValid = true ∧ s.debSr <<< 1 ||| sampleBit s ≠ 0xFFFF ∧
    s.debSr <<< 1 ||| sampleBit s ≠ 0x0000 := by decide

theorem test_witness_DebSet1SettlesActive :
    let s := tick1 { r0 with debSr := 0x7FFF }
    Running s ∧ Accepted s ∧ s.pins.keyValid = true ∧ s.debSr <<< 1 ||| sampleBit s = 0xFFFF := by decide

theorem test_witness_DebSet0SettlesIdle :
    let s := tick0 { r0 with debSr := 0x8000, settled := true }
    Running s ∧ Accepted s ∧ s.pins.keyValid = true ∧ s.debSr <<< 1 ||| sampleBit s = 0x0000 := by decide

theorem test_witness_DebHoldsWhenUnavailableOrFrozen :
    (Running (on 0x92 r0) ∧ Accepted (on 0x92 r0) ∧ (on 0x92 r0).pins.keyValid = false) ∧
    (Running (on 0xB0 r0) ∧ ¬ Accepted (on 0xB0 r0)) ∧
    (Running (tick1 { r0 with pendValid := true }) ∧ ¬ Accepted (tick1 { r0 with pendValid := true })) := by decide

/-- The largest Dit, with the buffer full. -/
theorem test_witness_MarkEndRecordsDit :
    let s := tick0 (seeing false (at_ 0 179 { r0 with decPrev := true, symBuf := bufFullDits, symIdx := 6 }))
    Running s ∧ Accepted s ∧ s.decPrev = true ∧ s.wires.level = false ∧ s.symIdx.toNat ≤ 6 ∧
    (s.msCount - s.tLast) / s.cfg.ditMs ≤ s.cfg.ditMaxUnits := by decide

/-- The smallest Dah. -/
theorem test_witness_MarkEndRecordsDah :
    let s := tick0 (seeing false (at_ 0 180 { r0 with decPrev := true }))
    Running s ∧ Accepted s ∧ s.decPrev = true ∧ s.wires.level = false ∧ s.symIdx.toNat ≤ 6 ∧
    s.cfg.ditMaxUnits < (s.msCount - s.tLast) / s.cfg.ditMs := by decide

/-- The longest gap, and the shortest break. -/
theorem test_witness_MarkBeginWithoutBreakRestartsMeasurement :
    (let s := tick1 (seeing true (at_ 0 419 (withDah r0)));
      Running s ∧ Accepted s ∧ s.decPrev = false ∧ s.wires.level = true ∧
      (s.msCount - s.tLast) / s.cfg.ditMs < s.cfg.breakUnits) ∧
    (let s := tick1 (seeing true (at_ 0 420 r0));
      Running s ∧ Accepted s ∧ s.decPrev = false ∧ s.wires.level = true ∧
      s.cfg.breakUnits ≤ (s.msCount - s.tLast) / s.cfg.ditMs ∧ s.symIdx = 0) := by decide

theorem test_witness_MarkBeginBreakResolvesAndClears :
    let s := tick1 (seeing true (at_ 0 420 (withDah r0)))
    Running s ∧ Accepted s ∧ s.decPrev = false ∧ s.wires.level = true ∧ s.symIdx ≠ 0 ∧ s.symIdx.toNat ≤ 6 ∧
    s.cfg.breakUnits ≤ (s.msCount - s.tLast) / s.cfg.ditMs := by decide

/-- With one mark and with six. -/
theorem test_witness_IdleBreakResolvesAndClears :
    ∀ s ∈ [tick0 (seeing false (at_ 0 420 (withDah r0))),
        tick0 (seeing false (at_ 0 420 { r0 with symBuf := bufFullDits, symIdx := 6 }))],
      Running s ∧ Accepted s ∧ s.decPrev = false ∧ s.wires.level = false ∧ s.symIdx ≠ 0 ∧ s.symIdx.toNat ≤ 6 ∧
      s.cfg.breakUnits ≤ (s.msCount - s.tLast) / s.cfg.ditMs := by decide

theorem test_witness_QuietDecoderOperationsChangeNothing :
    (Running (on 0xA0 r0) ∧ ¬ Accepted (on 0xA0 r0)) ∧
    (let s := tick1 (seeing true { r0 with decPrev := true });
      Running s ∧ Accepted s ∧ s.decPrev = true ∧ s.wires.level = true) ∧
    (let s := tick0 (seeing false (at_ 0 419 (withDits r0)));
      Running s ∧ Accepted s ∧ s.decPrev = false ∧ s.wires.level = false ∧
      (s.msCount - s.tLast) / s.cfg.ditMs < s.cfg.breakUnits) ∧
    (let s := tick0 (seeing false (at_ 0 420 r0));
      Running s ∧ Accepted s ∧ s.decPrev = false ∧ s.wires.level = false ∧
      s.cfg.breakUnits ≤ (s.msCount - s.tLast) / s.cfg.ditMs ∧ s.symIdx = 0) := by decide

/-- The first slot and the last. -/
theorem test_witness_SymAppendFillsTheNextSlot :
    ∀ i ∈ [0#3, 5#3], i.toNat < 6 ∧ Running (on 0xA2 (offering .dit { r0 with symIdx := i })) ∧
      (on 0xA2 (offering .dit { r0 with symIdx := i })).wires.symIn = some .dit := by decide

theorem test_witness_SymEvictDropsTheOldest :
    let s := tick0 (offering .brk { r0 with symBuf := bufFullDits, symIdx := 6 })
    Running s ∧ s.symIdx = 6 ∧ s.wires.symIn = some .brk := by decide

theorem test_witness_ResolutionCompletesOrSignalsNoMatch :
    (Running (on 0xA2 (resolving 0xEAA r0)) ∧ ⟨0x30, 0xEAA⟩ ∈ morseTable) ∧
    (Running (on 0xA2 (resolving 0x3A5 r0)) ∧ ∀ e ∈ morseTable, e.word ≠ 0x3A5) := by decide

theorem test_witness_KeymapLookupReturnsCodeOrNone :
    (Running (on 0xA8 (asking 0x20 r0)) ∧ (keymapEntry r0.cfg.keymap 0x20).valid = true) ∧
    (Running (on 0xA8 (asking 0x00 r0)) ∧ (keymapEntry r0.cfg.keymap 0x00).valid = false) := by decide

theorem test_witness_ProducerPushesCompletedEvent :
    let s := on 0xE2 (completing 0x69 { r0 with fifoCnt := 31 })
    Running s ∧ Accepted s ∧ s.wires.done = some 0x69 ∧ s.fifoCnt ≠ 32 := by decide

theorem test_witness_ProducerHoldsEventWhenFull :
    let s := on 0xE2 (completing 0x69 { r0 with fifoCnt := 32 })
    Running s ∧ Accepted s ∧ s.wires.done = some 0x69 ∧ s.fifoCnt = 32 := by decide

theorem test_witness_ProducerPushesHeldEventAndResumes :
    let s := on 0xA0 { r0 with pendValid := true, pendEv := 0x165, fifoCnt := 31 }
    Running s ∧ s.pendValid = true ∧ s.fifoCnt ≠ 32 := by decide

theorem test_witness_QuietProducerOperationsChangeNothing :
    (let s := tick0 { r0 with pendValid := true, fifoCnt := 32 };
      Running s ∧ s.pendValid = true ∧ s.fifoCnt = 32) ∧
    (Running (on 0xA0 r0) ∧ r0.pendValid = false ∧ (on 0xA0 r0).pins.sampleTick = false) ∧
    (Running (tick0 r0) ∧ Accepted (tick0 r0) ∧ (tick0 r0).wires.done = none) := by decide

theorem test_witness_DrainPressesTheHead :
    let s := on 0xA8 (holding 0x169 r0)
    Running s ∧ s.dstate = .idle ∧ s.pins.drainTick = true ∧ s.fifoCnt ≠ 0 ∧
    (keymapEntry s.cfg.keymap ((fifoRead s.fifoMem s.fifoRd).setWidth 8)).valid = true := by decide

theorem test_witness_DrainDropsUnsupportedHead :
    let s := on 0xA8 (holding 0x041 r0)
    Running s ∧ s.dstate = .idle ∧ s.pins.drainTick = true ∧ s.fifoCnt ≠ 0 ∧
    (keymapEntry s.cfg.keymap ((fifoRead s.fifoMem s.fifoRd).setWidth 8)).valid = false := by decide

theorem test_witness_DrainHoldCountsDownAndReleases :
    (let s := on 0xA4 { r0 with dstate := .hold, holdCnt := 1 };
      Running s ∧ s.dstate = .hold ∧ s.holdCnt ≠ 0 ∧ s.pins.msTick = true) ∧
    (let s := on 0xA8 { r0 with dstate := .hold, holdCnt := 1 };
      Running s ∧ s.dstate = .hold ∧ s.holdCnt ≠ 0 ∧ s.pins.msTick = false) ∧
    (let s := on 0xA4 { r0 with dstate := .hold };
      Running s ∧ s.dstate = .hold ∧ s.holdCnt = 0) := by decide

theorem test_witness_QuietDrainOperationsChangeNothing :
    (Running (on 0xA0 (holding 0x169 r0)) ∧ (on 0xA0 r0).pins.drainTick = false ∧ r0.dstate = .idle) ∧
    (Running (on 0xA8 r0) ∧ (on 0xA8 r0).pins.drainTick = true ∧ r0.fifoCnt = 0) := by decide

theorem test_witness_FifoPushStoresAtTheTail :
    ∀ n ∈ [0#6, 31#6], let s := on 0xA0 (moving (some 0x065) none { r0 with fifoCnt := n });
      Running s ∧ s.wires.push = some 0x065 ∧ s.wires.pop = none ∧ s.fifoCnt.toNat < 32 := by decide

theorem test_witness_FifoPopRemovesTheHead :
    ∀ n ∈ [1#6, 32#6], let s := on 0xA8 (moving none (some 0x065) { r0 with fifoCnt := n });
      Running s ∧ s.wires.push = none ∧ s.wires.pop = some 0x065 ∧ s.fifoCnt ≠ 0 := by decide

theorem test_witness_FifoNoneAndPushPop :
    (Running (on 0xA0 r0) ∧ r0.wires.push = none ∧ r0.wires.pop = none) ∧
    ∀ n ∈ [1#6, 31#6], let s := on 0xA8 (moving (some 0x065) (some 0x074) { r0 with fifoCnt := n });
      Running s ∧ s.wires.push = some 0x065 ∧ s.wires.pop = some 0x074 ∧ 0 < s.fifoCnt.toNat ∧
      s.fifoCnt.toNat < 32 := by decide

theorem test_witness_TimebaseCountsMilliseconds :
    (Running (on 0xA4 r0) ∧ (on 0xA4 r0).pins.msTick = true) ∧
    (Running (on 0xA0 r0) ∧ (on 0xA0 r0).pins.msTick = false) := by decide

/-- Each clause runs: a push, a pop and both, on a FIFO whose pointers agree with its count. -/
theorem test_witness_FifoOperationsActOnAQueue :
    (let s := on 0xA0 (moving (some 0x065) none (holding 0x169 r0));
      Running s ∧ FifoOk s.fifoRd s.fifoWr s.fifoCnt ∧ ends (exec .fifoPush s) (fun _ => true) = true) ∧
    (let s := on 0xA8 (moving none (some 0x169) (holding 0x169 r0));
      Running s ∧ FifoOk s.fifoRd s.fifoWr s.fifoCnt ∧ ends (exec .fifoPop s) (fun _ => true) = true) ∧
    (let s := on 0xA8 (moving (some 0x065) (some 0x169) (holding 0x169 r0));
      Running s ∧ FifoOk s.fifoRd s.fifoWr s.fifoCnt ∧ ends (exec .fifoPushPop s) (fun _ => true) = true) := by decide

theorem test_witness_ResetFromAnyState :
    let s := on 0xB1 { r0 with dstate := .hold, holdCnt := 7 }
    s.cfg.legal = true ∧ s.pins.rst = true := by decide

/-- Both operations of the second clause are reached for some byte the host drives. -/
theorem test_witness_StepRunsTheDecodedCycle :
    (drive 0xB1 r0).stim = 0xB1 :: [] ∧ decode .rst (0xB1 &&& 1) = .op .cycReset ∧
    decode .rst (0xB6 &&& 1) = .op .cycRun ∧ r0.stim = [] ∧
    (∀ iv : Word, decode .rst (iv &&& 1) = .op .cycReset ∨ decode .rst (iv &&& 1) = .op .cycRun) := by decide

theorem test_witness_CycleComposesTheSelectedOperations :
    Running (on 0xBE (holding 0x169 r0)) ∧ InDomain (on 0xBE (holding 0x169 r0)) := by decide

theorem test_witness_CycleIsTheSimultaneousStep :
    let s := on 0xEA (at_ 100 520 { r0 with symBuf := bufE, symIdx := 1, fifoCnt := 32 })
    Running s ∧ InDomain s := by decide

theorem test_witness_EachFormatSelectsExactlyOneRow :
    r0.cfg.legal = true ∧ (on 0xA0 r0).pins.rst = false ∧ (on 0xA1 r0).pins.rst = true := by decide

theorem test_witness_EveryStepGoesOnAndKeepsTheInvariants :
    Safe r0 ∧ Safe { r0 with symBuf := bufFullDits, symIdx := 6, fifoCnt := 32, dstate := .hold, holdCnt := 10 } := by
  decide

/-- Reset goes on even from a state outside R33. -/
theorem test_witness_ResetEstablishesTheInvariants :
    ends (exec .cycReset (on 0xB1 { r0 with symIdx := 7 })) (fun _ => true) = true := by decide

/-- The words of a format and the words above it. -/
theorem test_witness_EncodingsDecodeToTheirOperations :
    (63 : Nat) < 2 ^ Format.dec.width ∧ 2 ^ Format.dec.width ≤ (64 : Nat) := by decide

/-- A state whose next sixteen lined-up bytes are accepted samples of 1. -/
abbrev sixteenOnes : State := { r0 with stim := List.replicate 16 0xB2 }

theorem test_witness_SixteenEqualSamplesSettle :
    Safe sixteenOnes ∧ (cyclesFrom 16 sixteenOnes).any (fun ts =>
      ts.all (fun t => !t.pins.rst && t.pins.keyIn) && ts.countP tookSample == 16) = true := by decide

theorem test_witness_FewerThanSixteenSamplesKeepTheLevel :
    Safe sixteenOnes ∧ sixteenOnes.debSr = replicated sixteenOnes.settled ∧
    (cyclesFrom 15 sixteenOnes).any (fun ts =>
      ts.all (fun t => !t.pins.rst) && ts.countP tookSample == 15) = true := by decide

theorem test_witness_ThresholdsAreProducts : r0.cfg.ditMs ≠ 0 := by decide

/-- Six marks: more than the five that are resolved. -/
theorem test_witness_BreakResolvesTheLastFiveMarks :
    let ms : List Symbol := [.dit, .dah, .dah, .dah, .dah, .dah]
    Running (on 0xA2 r0) ∧ r0.symBuf = emptyBuf ∧ r0.symIdx = 0 ∧ ms ≠ [] ∧ ∀ x ∈ ms, x = .dit ∨ x = .dah := by decide

/-- `a` at the edges of the thresholds: the longest Dit, the longest inner gap, the shortest Dah and break. -/
theorem test_witness_KeyedCharacterCompletesItself :
    let ks : List (Millis × Millis) := [(0, 179), (419, 180)]
    r0.cfg.legal = true ∧ r0.pendValid = false ∧ r0.decPrev = false ∧ r0.symBuf = emptyBuf ∧ r0.symIdx = 0 ∧
    ⟨0x61, 0x039⟩ ∈ morseTable ∧ ks ≠ [] ∧ ks.length ≤ 5 ∧
    wordOfMarks (ks.map fun k => markOf r0.cfg k.2) = 0x039 ∧
    ks.tail.all (fun k => decide (k.1 / r0.cfg.ditMs < r0.cfg.breakUnits)) = true ∧ r0.cfg.breakUnits ≤ 420 / r0.cfg.ditMs := by decide

/-- A suspended producer, with the FIFO full and with room. -/
theorem test_witness_SuspendedProducerIsFrozen :
    ∀ n ∈ [31#6, 32#6],
      let s := drive 0xB6 { r0 with pendValid := true, pendEv := 0x065, fifoCnt := n, fifoWr := n.setWidth 5 }
      Safe s ∧ s.pendValid = true ∧ ends (step s) (fun t => !t.pins.rst) = true := by decide

/-- A run of three cycles that pushes, pops and holds. -/
theorem test_witness_NoEventIsLostDuplicatedOrReordered :
    let s := { (holding 0x169 r0) with pendValid := true, pendEv := 0x065, stim := [0xA8, 0xA4, 0xA2] }
    Safe s ∧ (cyclesFrom 3 s).any (fun ts => ts.all (fun t => !t.pins.rst) &&
      !(ts.flatMap pushedIn).isEmpty && !(ts.flatMap poppedIn).isEmpty) = true := by decide

theorem test_witness_NoSameCycleBypass :
    let s := drive 0xA8 { (holding 0x169 r0) with pendValid := true, pendEv := 0x065 }
    Safe s ∧ ends (step s) (fun t => !t.pins.rst && t.wires.pop == some 0x169 && t.wires.push == some 0x065) = true := by
  decide

/-- A press, a release and a cycle with no report. -/
theorem test_witness_ReportsAlternatePressAndRelease :
    (Safe (drive 0xA8 (holding 0x169 r0)) ∧
      ends (step (drive 0xA8 (holding 0x169 r0))) (fun t => !t.pins.rst && t.out.repValid) = true) ∧
    (Safe (drive 0xA0 { r0 with dstate := .hold }) ∧
      ends (step (drive 0xA0 { r0 with dstate := .hold })) (fun t => !t.pins.rst && t.out.repValid) = true) ∧
    ends (step (drive 0xA0 r0)) (fun t => !t.pins.rst && !t.out.repValid) = true := by decide

/-- Two milliseconds of a hold of two: the last cycle is the one of the second tick. -/
theorem test_witness_HoldLastsItsMilliseconds :
    (let s := { r0 with dstate := .hold, holdCnt := 2, stim := [0xA4, 0xA4] };
      Safe s ∧ s.dstate = .hold ∧ (cyclesFrom 2 s).any (fun ts => ts.all (fun t => !t.pins.rst) &&
        decide (ts.dropLast.countP (fun t => t.pins.msTick) < s.holdCnt.toNat)) = true) ∧
    (let s := drive 0xA4 { r0 with dstate := .hold };
      Safe s ∧ s.dstate = .hold ∧ s.holdCnt = 0 ∧ ends (step s) (fun t => !t.pins.rst) = true) := by decide

theorem test_witness_DrainTickInHoldHasNoEffect :
    let s := on 0xA8 { (holding 0x169 r0) with dstate := .hold, holdCnt := 4 }
    Running s ∧ InDomain s ∧ s.dstate = .hold := by decide

/-- A cycle with a report and a reset cycle. -/
theorem test_witness_OutputsFollowTheirStrobes :
    ends (step (drive 0xA8 (holding 0x169 r0))) (fun t => t.out.repValid && !t.pins.rst) = true ∧
    ends (step (drive 0xA1 (holding 0x169 r0))) (fun t => t.pins.rst) = true := by decide

/-- An entry behind the queue differs. -/
theorem test_witness_StaleStorageIsNotRead :
    let s := on 0xA8 (holding 0x169 r0)
    let m := s.fifoMem.set 1 0x1FF
    Running s ∧ InDomain s ∧ m ≠ s.fifoMem ∧ queued { s with fifoMem := m } = queued s := by decide

theorem test_witness_StalePendingEventIsNotRead :
    Running (on 0xA8 r0) ∧ InDomain (on 0xA8 r0) ∧ (on 0xA8 r0).pendValid = false := by decide

theorem test_witness_IdleTimestampIsNotObservable :
    let s := tick1 { r0 with debSr := 0x7FFF }
    Running s ∧ InDomain s ∧ s.decPrev = false ∧ s.symIdx = 0 := by decide

theorem test_witness_OperationsKeepTheConfiguration :
    ends (exec .cycRun (on 0xA4 r0)) (fun _ => true) = true := by decide

theorem test_witness_IllegalConfigurationIsRefused :
    (let s : State := { r0 with cfg := { exampleConfig with ditMs := 0 } };
      s.cfg.ditMs = 0 ∨ s.cfg.breakUnits = 0) ∧
    (let s : State := { r0 with cfg := { exampleConfig with breakUnits := 0 } };
      s.cfg.ditMs = 0 ∨ s.cfg.breakUnits = 0) := by decide

theorem test_witness_StatesOutsideTheDomainFault :
    (let s := on 0xA0 { r0 with symIdx := 7 };
      s.cfg.legal = true ∧ ¬ InDomain s ∧ s.pins.rst = false) ∧
    (let s := on 0xA1 { r0 with fifoCnt := 33 };
      s.cfg.legal = true ∧ ¬ InDomain s ∧ s.pins.rst = true) := by decide

end Sys2Proof.Tests
end

/-! ## The cycle as one update

What a running cycle answers: `CYC_RUN` makes exactly the writes of `cycleSpec` (spec/44_cycle.md R210). The
units' lemmas of Laws/Units.lean are chained in their order, over the state each of them leaves; every unit reads only
registers no earlier one wrote (R211), so each reads the start-of-cycle values `cycleSpec` reads. -/

namespace Sys2Proof.Machine

/-- A FIFO count that R33 (e) bounds leaves room unless the FIFO is full. -/
theorem fifoCnt_lt_of_ne {c : BitVec 6} (hle : c.toNat ≤ 32) (h : c ≠ 32) : c.toNat < 32 :=
  lt_of_le_of_ne hle fun h' => h (BitVec.eq_of_toNat_eq h')

/-- A character completes only on an accepted tick (R100, R124). -/
theorem specDone_of_not_acc {s : State} (h : acc s = false) : specDone s = none := by
  have hb : specBreak s = false := by simp [specBreak, show specAcc s = acc s from rfl, h]
  rw [specDone, hb]; rfl

/-- A push is requested only when the FIFO is not full at the start of the cycle (R174, R177). -/
theorem fifoCnt_ne_of_specPush {s : State} (h : (specPush s).isSome = true) : s.fifoCnt ≠ 32 := by
  intro hfull
  simp [specPush, hfull] at h

/-- A popped event is the head of a FIFO that is not empty at the start of the cycle (R182, R183). -/
theorem specPop_eq_some {s : State} {e : Event} (h : specPop s = some e) : e = fifoHead s ∧ s.fifoCnt ≠ 0 := by
  rw [specPop] at h
  split at h
  next hpop =>
    obtain ⟨-, -, hne⟩ := hpop
    exact ⟨(Option.some.inj h).symm, hne⟩
  next => cases h

/-- A pop is requested only when the FIFO is not empty at the start of the cycle (R182, R183, R187). -/
theorem fifoCnt_ne_of_specPop {s : State} (h : (specPop s).isSome = true) : s.fifoCnt ≠ 0 := by
  obtain ⟨e, he⟩ := Option.isSome_iff_exists.mp h
  exact (specPop_eq_some he).2

/-- The cycle from `s` after DEB and DEC: their registers are written, with the combinational values `w` and the
outputs `o` so far. -/
def afterKeying (s : State) (w : Wires) (o : Outputs) : State :=
  { s with
    debSr := (cycleSpec s).debSr
    settled := (cycleSpec s).settled
    decPrev := (cycleSpec s).decPrev
    tLast := (cycleSpec s).tLast
    symBuf := (cycleSpec s).symBuf
    symIdx := (cycleSpec s).symIdx
    wires := w
    out := o }

/-- The cycle from `s` after PROD. -/
def afterProducer (s : State) (w : Wires) (o : Outputs) : State :=
  { afterKeying s w o with pendValid := (cycleSpec s).pendValid, pendEv := (cycleSpec s).pendEv }

/-- The cycle from `s` after DRN: only the registers of FIFO and TB are still as they were. -/
def afterDrain (s : State) (w : Wires) : State :=
  { cycleSpec s with
    fifoMem := s.fifoMem
    fifoRd := s.fifoRd
    fifoWr := s.fifoWr
    fifoCnt := s.fifoCnt
    msCount := s.msCount
    wires := w }

/-- The outputs after DEC: the level outputs and the decoder's (R136, R212, R231). -/
def keyingOut (s : State) : Outputs :=
  { Outputs.quiet s.settled s.fifoCnt (stalled s) (busy s) with
    charValid := (specDone s).isSome
    char := (specDone s).getD 0x00
    noMatch := specBreak s && (resolveWord (specWord s)).isNone }

/-- The outputs DEC leaves, whether or not a break is resolved. -/
theorem resolvedOut_eq_keyingOut (s : State) :
    (if specBreak s then resolvedOut (beginCycle s).out (resolveWord (specWord s)) else (beginCycle s).out) =
      keyingOut s := by
  unfold keyingOut specDone
  cases specBreak s with
  | false => rfl
  | true => cases resolveWord (specWord s) <;> rfl

/-- DEB and DEC from the start of the cycle. -/
theorem keyingUnits_eq (s : State) (hc : s.cfg.legal = true) (hr : s.pins.rst = false) (hi : s.symIdx.toNat ≤ 6) :
    ∃ w, andThen (debUnit (beginCycle s)) decUnit = .next (afterKeying s w (keyingOut s)) ∧
      w.level = specLevel s ∧ w.done = specDone s ∧ w.push = none ∧ w.pop = none := by
  rw [debUnit_eq (beginCycle s) hc hr, andThen_next, ← resolvedOut_eq_keyingOut]
  obtain ⟨w, hdec, hlevel, hpush, hpop, hdone⟩ := decUnit_eq
    { beginCycle s with
      debSr := (cycleSpec s).debSr
      settled := specLevel s
      wires := { Wires.clear with level := specLevel s } } hc hr hi rfl
  exact ⟨w, hdec, hlevel, hdone, hpush, hpop⟩

/-- PROD after DEB and DEC. -/
theorem prodUnit_afterKeying (s : State) (w : Wires) (o : Outputs) (hc : s.cfg.legal = true)
    (hr : s.pins.rst = false) (hdone : w.done = specDone s) (hpush : w.push = none) :
    prodUnit (afterKeying s w o) = .next (afterProducer s { w with push := specPush s } o) := by
  have hnodone : acc s = false → w.done = none := fun h => by rw [hdone, specDone_of_not_acc h]
  have hheld : (if s.pendValid then none else specDone s) = specDone s := by
    cases hv : s.pendValid with
    | false => rfl
    | true => exact (specDone_of_not_acc (by simp [acc, hv])).symm
  rw [prodUnit_eq (afterKeying s w o) hc hr hnodone hpush]
  simp only [afterKeying, hdone, hheld]
  rfl

/-- DRN after PROD. -/
theorem drnUnit_afterProducer (s : State) (w : Wires) (hc : s.cfg.legal = true) (hr : s.pins.rst = false)
    (hpop : w.pop = none) :
    ∃ w', drnUnit (afterProducer s w (keyingOut s)) = .next (afterDrain s w') ∧
      w'.level = w.level ∧ w'.done = w.done ∧ w'.push = w.push ∧ w'.pop = specPop s :=
  drnUnit_eq (afterProducer s w (keyingOut s)) hc hr hpop rfl rfl rfl rfl

/-- FIFO and TB after DRN complete the update. -/
theorem storageUnits_eq (s : State) (w : Wires) (hc : s.cfg.legal = true) (hr : s.pins.rst = false)
    (hcnt : s.fifoCnt.toNat ≤ 32) (hpush : w.push = specPush s) (hpop : w.pop = specPop s) :
    andThen (fifoUnit (afterDrain s w)) tbUnit = .next { cycleSpec s with wires := w } := by
  have hroom : w.push.isSome = true → s.fifoCnt.toNat < 32 := by
    rw [hpush]; exact fun h => fifoCnt_lt_of_ne hcnt (fifoCnt_ne_of_specPush h)
  have hsome : w.pop.isSome = true → s.fifoCnt ≠ 0 := by
    rw [hpop]; exact fifoCnt_ne_of_specPop
  rw [fifoUnit_eq (afterDrain s w) hc hr hroom hsome, andThen_next, tbUnit_eq]
  · simp only [afterDrain, hpush, hpop]
    rfl
  · exact hc
  · exact hr

/-- A sequence of three is the same grouped either way. -/
theorem andThen_assoc (a : Answer) (k l : State → Answer) :
    andThen (andThen a k) l = andThen a fun s => andThen (k s) l := by
  cases a <;> rfl

/-- The units of a running cycle together make the simultaneous update of R210. -/
theorem runUnits_beginCycle_eq (s : State) (hc : s.cfg.legal = true) (hr : s.pins.rst = false) (hd : InDomain s) :
    ∃ w, runUnits (beginCycle s) = .next { cycleSpec s with wires := w } ∧
      w.level = specLevel s ∧ w.done = specDone s ∧ w.push = specPush s ∧ w.pop = specPop s := by
  obtain ⟨⟨hidx, -⟩, -, ⟨hcnt, -⟩, -⟩ := hd
  obtain ⟨w, hkeying, hlevel, hdone, hpush, hpop⟩ := keyingUnits_eq s hc hr hidx
  obtain ⟨w', hdrain, hlevel', hdone', hpush', hpop'⟩ :=
    drnUnit_afterProducer s { w with push := specPush s } hc hr hpop
  refine ⟨w', ?_, hlevel'.trans hlevel, hdone'.trans hdone, hpush', hpop'⟩
  rw [runUnits, ← andThen_assoc, hkeying, andThen_next, prodUnit_afterKeying s w _ hc hr hdone hpush, andThen_next,
    hdrain, andThen_next, storageUnits_eq s w' hc hr hcnt hpush' hpop']

/-- `CYC_RUN` on a state of the domain makes the simultaneous update of R210. -/
theorem execCycRun_eq (s : State) (hc : s.cfg.legal = true) (hr : s.pins.rst = false) (hd : InDomain s) :
    ∃ w, execCycRun s = .next { cycleSpec s with wires := w } ∧
      w.level = specLevel s ∧ w.done = specDone s ∧ w.push = specPush s ∧ w.pop = specPop s := by
  have hsel : selection .rst s = .cycRun := by simp [selection, hr]
  have hin : inDomain s = true := decide_eq_true hd
  rw [execCycRun, perform_selection _ hc rfl hsel, hin, require_true]
  exact runUnits_beginCycle_eq s hc hr hd

/-- A step performs the cycle operation that the sampled `rst` selects (R79). -/
theorem step_eq_exec (s : State) :
    step s = if (latchInputs s).pins.rst then execCycReset (latchInputs s) else execCycRun (latchInputs s) := by
  simp only [step, decode_selectorWord, selection]
  cases (latchInputs s).pins.rst <;> rfl

/-- A reset cycle leaves the inputs it sampled. -/
theorem execCycReset_pins {s t : State} (h : execCycReset s = .next t) : t.pins = s.pins := by
  obtain ⟨-, -, ht⟩ := perform_eq_next.mp h
  cases ht
  rfl

/-- `t` is what a running cycle makes of the start-of-cycle state `s`, whose inputs are sampled: the update of R210,
with the combinational values it passes between the units. -/
structure RunsTo (s t : State) : Prop where
  safe : Safe s
  rst : s.pins.rst = false
  update : t = { cycleSpec s with wires := t.wires }
  level : t.wires.level = specLevel s
  done : t.wires.done = specDone s
  push : t.wires.push = specPush s
  pop : t.wires.pop = specPop s

/-- A `CYC_RUN` that goes on started in a safe state (D31: any other state faults) and made the update of R210. -/
theorem RunsTo.of_execCycRun {s t : State} (hr : s.pins.rst = false) (h : execCycRun s = .next t) : RunsTo s t := by
  obtain ⟨hc, -, hreq⟩ := perform_eq_next.mp h
  obtain ⟨hin, -⟩ := require_eq_next.mp hreq
  have hd : InDomain s := of_decide_eq_true hin
  obtain ⟨w, hrun, hlevel, hdone, hpush, hpop⟩ := execCycRun_eq s hc hr hd
  obtain rfl : t = { cycleSpec s with wires := w } := Host.Outcome.next.inj (h.symm.trans hrun)
  exact ⟨⟨hc, hd⟩, hr, rfl, hlevel, hdone, hpush, hpop⟩

/-- Everything a step without a reset can do: a running cycle on the sampled inputs. -/
theorem RunsTo.of_step {s t : State} (h : step s = .next t) (hr : t.pins.rst = false) : RunsTo (latchInputs s) t := by
  rw [step_eq_exec] at h
  split at h
  next hrst =>
    rw [execCycReset_pins h, hrst] at hr
    cases hr
  next hrst => exact .of_execCycRun (by simpa using hrst) h

end Sys2Proof.Machine

/-! ## Conservation of events

The FIFO as a queue (spec/20_memory.md R57 to R59): what a push and a pop make of the list `queued`, and that
a cycle, and so every run, conserves the events. -/

namespace Sys2Proof.Machine

/-- The queue depends on the storage, the read pointer and the count alone. -/
theorem queued_congr {s t : State} (hmem : s.fifoMem = t.fifoMem) (hrd : s.fifoRd = t.fifoRd)
    (hcnt : s.fifoCnt = t.fifoCnt) : queued s = queued t := by
  simp only [queued, hmem, hrd, hcnt]

/-- Sampling the inputs leaves the queue alone. -/
@[simp] theorem queued_latchInputs (s : State) : queued (latchInputs s) = queued s :=
  queued_congr (by simp) (by simp) (by simp)

/-- The first `n` entries of the storage from slot `rd` on. -/
def entriesFrom (m : Vector Event 32) (rd : BitVec 5) (n : Nat) : List Event :=
  (List.range n).map fun k => fifoRead m (rd + BitVec.ofNat 5 k)

/-- The queue is the `fifo_cnt` entries from the read pointer on (R30). -/
theorem queued_eq_entriesFrom (s : State) : queued s = entriesFrom s.fifoMem s.fifoRd s.fifoCnt.toNat := rfl

/-- The first entry, and the entries after it. -/
theorem entriesFrom_succ (m : Vector Event 32) (rd : BitVec 5) (n : Nat) :
    entriesFrom m rd (n + 1) = fifoRead m rd :: entriesFrom m (rd + 1) n := by
  have hnext : ∀ k : Nat, rd + BitVec.ofNat 5 (k + 1) = rd + 1 + BitVec.ofNat 5 k := fun k => by
    rw [Nat.add_comm, BitVec.ofNat_add, ← BitVec.add_assoc]; rfl
  have hfirst : rd + BitVec.ofNat 5 0 = rd := BitVec.add_zero rd
  simp only [entriesFrom, List.range_succ_eq_map, List.map_cons, List.map_map, Function.comp_def, hfirst, hnext]

/-- A write behind the last of at most 31 entries appends to them: it overwrites none. -/
theorem entriesFrom_fifoWrite (m : Vector Event 32) (rd : BitVec 5) (e : Event) {n : Nat} (hn : n < 32) :
    entriesFrom (fifoWrite m (rd + BitVec.ofNat 5 n) e) rd (n + 1) = entriesFrom m rd n ++ [e] := by
  have hkept : ∀ k ∈ List.range n, fifoRead (fifoWrite m (rd + BitVec.ofNat 5 n) e) (rd + BitVec.ofNat 5 k) =
      fifoRead m (rd + BitVec.ofNat 5 k) := fun k hk => by
    have hlt : k < n := List.mem_range.mp hk
    exact fifoRead_fifoWrite_other m e (by bv_omega)
  unfold entriesFrom
  rw [List.range_succ, List.map_append, List.map_congr_left hkept, List.map_singleton, fifoRead_fifoWrite_same]

/-- A pop takes the oldest event of the queue (R172). -/
theorem queued_dropHead {s : State} (h : s.fifoCnt ≠ 0) :
    queued s = fifoHead s :: queued (adjustCount false true (dropHead s)) := by
  have hcnt : s.fifoCnt.toNat = (s.fifoCnt + 0 - 1).toNat + 1 := by bv_omega
  rw [queued_eq_entriesFrom s, hcnt, entriesFrom_succ]
  rfl

/-- A push appends its event to the queue: the tail slot is none of those the queue occupies (R171). -/
theorem queued_storeTail {s : State} (e : Event) (hok : FifoOk s.fifoRd s.fifoWr s.fifoCnt)
    (h : s.fifoCnt.toNat < 32) : queued (adjustCount true false (storeTail e s)) = queued s ++ [e] := by
  obtain ⟨-, hwr⟩ := hok
  have hcnt : (s.fifoCnt + 1 - 0).toNat = s.fifoCnt.toNat + 1 := by bv_omega
  have htail : s.fifoWr = s.fifoRd + BitVec.ofNat 5 s.fifoCnt.toNat := by rw [hwr]; bv_omega
  rw [queued_eq_entriesFrom s, ← entriesFrom_fifoWrite _ _ e h, ← htail, ← hcnt]
  rfl

/-- The cycle from `s` with its pop alone. -/
def afterPop (s : State) : State :=
  { s with
    fifoRd := if (specPop s).isSome then s.fifoRd + 1 else s.fifoRd
    fifoCnt := s.fifoCnt - if (specPop s).isSome then 1 else 0 }

/-- The pop of a cycle takes the oldest event, and R33 (e) holds of what is left. -/
theorem queued_afterPop {s : State} (hok : FifoOk s.fifoRd s.fifoWr s.fifoCnt) :
    queued s = (specPop s).toList ++ queued (afterPop s) ∧
      FifoOk (afterPop s).fifoRd s.fifoWr (afterPop s).fifoCnt ∧ (afterPop s).fifoCnt.toNat ≤ s.fifoCnt.toNat := by
  cases hpop : specPop s with
  | none =>
    have hsame : afterPop s = s := by simp [afterPop, hpop]
    rw [hsame]
    exact ⟨rfl, hok, le_rfl⟩
  | some e =>
    obtain ⟨rfl, hne⟩ := specPop_eq_some hpop
    have hrd : (afterPop s).fifoRd = s.fifoRd + 1 := by simp [afterPop, hpop]
    have hcnt : (afterPop s).fifoCnt = s.fifoCnt - 1 := by simp [afterPop, hpop]
    have hq : queued (afterPop s) = queued (adjustCount false true (dropHead s)) :=
      queued_congr rfl hrd (by simp [hcnt, dropHead])
    obtain ⟨hle, hwr⟩ := hok
    refine ⟨by rw [hq, queued_dropHead hne]; rfl, ⟨?_, ?_⟩, ?_⟩
    · rw [hcnt]; bv_omega
    · rw [hcnt, hrd, hwr]; bv_omega
    · rw [hcnt]; bv_omega

/-- A cycle conserves the queue: its events and the one pushed are the one popped and the next state's (R57). -/
theorem queued_cycleSpec {s : State} (hok : FifoOk s.fifoRd s.fifoWr s.fifoCnt) :
    queued s ++ (specPush s).toList = (specPop s).toList ++ queued (cycleSpec s) := by
  obtain ⟨hqueue, hok', hle⟩ := queued_afterPop hok
  have hpushed : queued (cycleSpec s) = queued (afterPop s) ++ (specPush s).toList := by
    cases hpush : specPush s with
    | none =>
      have hsame : queued (cycleSpec s) = queued (afterPop s) :=
        queued_congr (by simp [cycleSpec, afterPop, hpush]) rfl (by simp [cycleSpec, afterPop, hpush])
      simp [hsame]
    | some e =>
      have hroom : s.fifoCnt.toNat < 32 :=
        fifoCnt_lt_of_ne hok.1 (fifoCnt_ne_of_specPush (by rw [hpush]; rfl))
      have hcomm : ∀ q : BitVec 6, s.fifoCnt + 1 - q = s.fifoCnt - q + 1 - 0 := fun q => by bv_omega
      have hstored : queued (cycleSpec s) = queued (adjustCount true false (storeTail e (afterPop s))) :=
        queued_congr (by simp [cycleSpec, afterPop, hpush, storeTail]) rfl
          (by simp only [cycleSpec, adjustCount_fifoCnt, hpush]; exact hcomm _)
      rw [hstored, queued_storeTail e hok' (hle.trans_lt hroom)]
      rfl
  rw [hqueue, hpushed, List.append_assoc]

/-- The event the producer holds (R31, R175). -/
def heldEvent (s : State) : List Event := if s.pendValid then [s.pendEv] else []

/-- The completed events are the queue's and then the held one (R58). -/
theorem owed_eq (s : State) : owed s = queued s ++ heldEvent s := rfl

/-- A cycle conserves the producer's events: the held one and the completed one are the one pushed and the one held
after it (R58, R174 to R178). -/
theorem heldEvent_cycleSpec (s : State) :
    heldEvent s ++ (specDone s).toList.map (eventOf (shiftBit s)) = (specPush s).toList ++ heldEvent (cycleSpec s) := by
  cases hv : s.pendValid with
  | true =>
    have hdone : specDone s = none := specDone_of_not_acc (by simp [acc, hv])
    by_cases hfull : s.fifoCnt = 32#6 <;> simp [heldEvent, cycleSpec, specPush, hv, hdone, hfull]
  | false =>
    cases hdone : specDone s with
    | none => simp [heldEvent, cycleSpec, specPush, hv, hdone]
    | some c => by_cases hfull : s.fifoCnt = 32#6 <;> simp [heldEvent, cycleSpec, specPush, shiftBit, hv, hdone, hfull]

/-- A step without a reset conserves the queue (R57). -/
theorem queued_step {s t : State} (h : step s = .next t) (hr : t.pins.rst = false) :
    queued s ++ pushedIn t = poppedIn t ++ queued t := by
  have hrun := RunsTo.of_step h hr
  obtain ⟨-, -, -, hok, -⟩ := hrun.safe
  have hnext : queued t = queued (cycleSpec (latchInputs s)) := by rw [hrun.update]; rfl
  rw [hnext, pushedIn, poppedIn, hrun.push, hrun.pop, ← queued_cycleSpec hok, queued_latchInputs]

/-- A step without a reset conserves the completed events, the held one counted with the queue (R58). -/
theorem owed_step {s t : State} (h : step s = .next t) (hr : t.pins.rst = false) :
    owed s ++ completedIn t = poppedIn t ++ owed t := by
  have hrun := RunsTo.of_step h hr
  have hheld : heldEvent s ++ completedIn t = pushedIn t ++ heldEvent t := by
    have hnext : heldEvent t = heldEvent (cycleSpec (latchInputs s)) := by rw [hrun.update]; rfl
    have hbit : shiftBit t = shiftBit (latchInputs s) := by rw [hrun.update]; rfl
    rw [hnext, completedIn, pushedIn, hrun.done, hrun.push, hbit, ← heldEvent_cycleSpec]
    simp [heldEvent]
  calc owed s ++ completedIn t
      = queued s ++ (heldEvent s ++ completedIn t) := by rw [owed_eq, List.append_assoc]
    _ = (queued s ++ pushedIn t) ++ heldEvent t := by rw [hheld, List.append_assoc]
    _ = poppedIn t ++ owed t := by rw [queued_step h hr, List.append_assoc, owed_eq]

/-- A run of one more cycle is a step and the run from its state. -/
theorem cyclesFrom_succ {n : Nat} {s : State} {ts : List State} (h : cyclesFrom (n + 1) s = some ts) :
    ∃ t rest, step s = .next t ∧ cyclesFrom n t = some rest ∧ ts = t :: rest := by
  rw [cyclesFrom] at h
  split at h
  next t hstep =>
    obtain ⟨rest, hrest, rfl⟩ := Option.map_eq_some_iff.mp h
    exact ⟨t, rest, hstep, hrest, rfl⟩
  next => cases h
  next => cases h

/-- A run ends where the run from its first state ends. -/
theorem lastOf_cons (s t : State) (ts : List State) : lastOf s (t :: ts) = lastOf t ts := by
  rw [lastOf, List.getLast?_cons]; rfl

/-- What every step without a reset conserves, every run without one conserves. -/
theorem run_conserves {content entering leaving : State → List Event}
    (hstep : ∀ {s t}, step s = .next t → t.pins.rst = false →
      content s ++ entering t = leaving t ++ content t) :
    ∀ (n : Nat) (s : State) (ts : List State), cyclesFrom n s = some ts → (∀ t ∈ ts, t.pins.rst = false) →
      content s ++ ts.flatMap entering = ts.flatMap leaving ++ content (lastOf s ts)
  | 0, s, ts, hrun, _ => by
    obtain rfl : [] = ts := Option.some.inj hrun
    exact List.append_nil _
  | n + 1, s, ts, hrun, hr => by
    obtain ⟨t, rest, hfirst, hrest, rfl⟩ := cyclesFrom_succ hrun
    obtain ⟨hrt, hrr⟩ := List.forall_mem_cons.mp hr
    have ih := run_conserves hstep n t rest hrest hrr
    rw [List.flatMap_cons, List.flatMap_cons, lastOf_cons, ← List.append_assoc, hstep hfirst hrt, List.append_assoc,
      ih, List.append_assoc]

/-- Settles O46, by conservation over each step and induction on the run. That the run goes on already says that each
of its cycles starts in a state of R33, so the safety of the first state is not needed. -/
theorem noEventIsLostDuplicatedOrReordered : Obligations.NoEventIsLostDuplicatedOrReordered := by
  intro n s ts _ hrun hr
  exact ⟨run_conserves queued_step n s ts hrun hr, run_conserves owed_step n s ts hrun hr⟩

/-- Settles O47: the pop and the push of R210 are functions of the start-of-cycle FIFO. -/
theorem noSameCycleBypass : Obligations.NoSameCycleBypass := by
  rintro s t ⟨-, -, -, ⟨hcnt, -⟩, -⟩ h hr
  have hrun := RunsTo.of_step h hr
  constructor
  · intro e hpop
    obtain ⟨rfl, hne⟩ := specPop_eq_some (hrun.pop.symm.trans hpop)
    rw [← queued_latchInputs, queued_dropHead hne]
    rfl
  · intro e hpush
    have hsome : (specPush (latchInputs s)).isSome = true := by rw [← hrun.push, hpush]; rfl
    have hne := fifoCnt_ne_of_specPush hsome
    rw [latchInputs_fifoCnt] at hne
    exact fifoCnt_lt_of_ne hcnt hne

end Sys2Proof.Machine

/-! ## The debounce filter

The five operations of format `DEB` (spec/40_debounce.md R101 to R106) are the branches of one update, the filter
unit's. Over a run, the newest samples of the register are counted (R108). -/

namespace Sys2Proof.Machine

/-- The selected row of format `DEB` makes the filter unit's update. -/
theorem exec_selection_deb (s : State) (hrun : Running s) :
    exec (selection .deb s) s = .next { s with
      debSr := if specShift s then specSr s else s.debSr
      settled := specLevel s
      wires := { s.wires with level := specLevel s } } := by
  obtain ⟨hc, hr⟩ := hrun
  rw [← debUnit_eq s hc hr, debUnit, decode_selectorWord]
  simp only [selection]
  split_ifs <;> rfl

/-- The filter shifts on an accepted tick with the keying line available (R100). -/
theorem specShift_iff (s : State) : specShift s = true ↔ Accepted s ∧ s.pins.keyValid = true := by
  simp [specShift, specAcc]

/-- Without an accepted tick the filter is frozen (R105). -/
theorem selection_deb_of_not_accepted {s : State} (h : ¬ Accepted s) : selection .deb s = .debFrozen := by
  have hacc : acc s = false := by simpa [acc] using h
  simp [selection, hacc]

/-- An accepted tick with the keying line unavailable selects `DEB_UNAVAIL` (R104). -/
theorem selection_deb_of_unavailable {s : State} (ha : Accepted s) (hk : s.pins.keyValid = false) :
    selection .deb s = .debUnavail := by
  have hacc : acc s = true := by simpa [acc] using ha
  simp [selection, hacc, hk]

/-- A shift selects its row by the shifted register (R101 to R103). -/
theorem selection_deb_of_shift {s : State} (h : specShift s = true) :
    selection .deb s =
      if specSr s = 0xFFFF then .debSet1 else if specSr s = 0x0000 then .debSet0 else .debKeep := by
  obtain ⟨ha, hk⟩ := (specShift_iff s).mp h
  have hacc : acc s = true := by simpa [acc] using ha
  simp [selection, hacc, hk, srOnes, srZeros, srNext_eq]

/-- The level after a shift (R101 to R103, R106). -/
theorem specLevel_of_shift {s : State} (h : specShift s = true) :
    specLevel s = if specSr s = 0xFFFF then true else if specSr s = 0x0000 then false else s.settled := by
  simp [specLevel, h]

/-- Without a shift the level holds (R104 to R106). -/
theorem specLevel_of_not_shift {s : State} (h : specShift s = false) : specLevel s = s.settled := by
  simp [specLevel, h]

/-- A shift that makes the register unanimous settles its value (R102, R103). -/
theorem specLevel_of_replicated {s : State} {b : Bool} (h : specShift s = true) (hsr : specSr s = replicated b) :
    specLevel s = b := by
  rw [specLevel_of_shift h, hsr]
  cases b <;> rfl

/-- A shift that makes the register unanimous selects the row that settles its value (R102, R103). -/
theorem selection_deb_of_replicated {s : State} {b : Bool} (h : specShift s = true) (hsr : specSr s = replicated b) :
    selection .deb s = if b then .debSet1 else .debSet0 := by
  rw [selection_deb_of_shift h, hsr]
  cases b <;> rfl

/-- That row writes the unanimous register and its value, and passes the value on (R102, R103, R106). -/
theorem exec_selection_deb_of_replicated {s : State} {b : Bool} (hrun : Running s) (h : specShift s = true)
    (hsr : specSr s = replicated b) :
    exec (selection .deb s) s = .next { s with
      debSr := replicated b
      settled := b
      wires := { s.wires with level := b } } := by
  rw [exec_selection_deb s hrun, specLevel_of_replicated h hsr, h, hsr]
  rfl

/-- A cycle that shifts nothing passes the settled level on and changes nothing else (R104 to R106). -/
theorem exec_selection_deb_of_not_shift {s : State} (hrun : Running s) (h : specShift s = false) :
    exec (selection .deb s) s = .next { s with wires := { s.wires with level := s.settled } } := by
  rw [exec_selection_deb s hrun, specLevel_of_not_shift h, h]
  rfl

/-- Settles O1: the shifted register is in neither of the two unanimous branches. -/
theorem debKeepShiftsSampleAndHoldsLevel : Obligations.DebKeepShiftsSampleAndHoldsLevel := by
  intro s hrun ha hk hones hzeros
  have hshift : specShift s = true := (specShift_iff s).mpr ⟨ha, hk⟩
  have hsel : selection .deb s = .debKeep := by
    rw [selection_deb_of_shift hshift, specSr, if_neg hones, if_neg hzeros]
  have hlevel : specLevel s = s.settled := by
    rw [specLevel_of_shift hshift, specSr, if_neg hones, if_neg hzeros]
  rw [← hsel, exec_selection_deb s hrun, hlevel, hshift]
  rfl

/-- Settles O2: the shifted register is unanimously 1. -/
theorem debSet1SettlesActive : Obligations.DebSet1SettlesActive := by
  intro s hrun ha hk hones
  have hshift : specShift s = true := (specShift_iff s).mpr ⟨ha, hk⟩
  have hsr : specSr s = replicated true := hones
  have hsel : selection .deb s = .debSet1 := selection_deb_of_replicated hshift hsr
  rw [← hsel]
  exact exec_selection_deb_of_replicated hrun hshift hsr

/-- Settles O3: the shifted register is unanimously 0. -/
theorem debSet0SettlesIdle : Obligations.DebSet0SettlesIdle := by
  intro s hrun ha hk hzeros
  have hshift : specShift s = true := (specShift_iff s).mpr ⟨ha, hk⟩
  have hsr : specSr s = replicated false := hzeros
  have hsel : selection .deb s = .debSet0 := selection_deb_of_replicated hshift hsr
  rw [← hsel]
  exact exec_selection_deb_of_replicated hrun hshift hsr

/-- Settles O4: in both cases the filter does not shift. -/
theorem debHoldsWhenUnavailableOrFrozen : Obligations.DebHoldsWhenUnavailableOrFrozen := by
  intro s hrun
  constructor
  · intro ha hk
    have hshift : specShift s = false := by simp [specShift, hk]
    rw [← selection_deb_of_unavailable ha hk]
    exact exec_selection_deb_of_not_shift hrun hshift
  · intro ha
    have hshift : specShift s = false :=
      Bool.eq_false_iff.mpr fun h => ha ((specShift_iff s).mp h).1
    rw [← selection_deb_of_not_accepted ha]
    exact exec_selection_deb_of_not_shift hrun hshift

/-- The new sample enters bit 0 (R100). -/
theorem getLsbD_specSr_zero (s : State) : (specSr s).getLsbD 0 = s.pins.keyIn := by
  cases h : s.pins.keyIn <;> simp [specSr, sampleBit, h]

/-- Every older sample moves up by one bit (R100). -/
theorem getLsbD_specSr_succ (s : State) {i : Nat} (hi : i + 1 < 16) :
    (specSr s).getLsbD (i + 1) = s.debSr.getLsbD i := by
  rw [BitVec.getLsbD_eq_getElem (Nat.lt_of_succ_lt hi)]
  cases h : s.pins.keyIn <;> simp [specSr, sampleBit, h, hi]

/-- Each bit of a unanimous register is its value. -/
theorem getLsbD_replicated : ∀ (b : Bool) (i : Fin 16), (replicated b).getLsbD i = b := by decide

/-- A register with sixteen equal bits is unanimous. -/
theorem eq_replicated {sr : BitVec 16} {b : Bool} (h : ∀ i < 16, sr.getLsbD i = b) : sr = replicated b :=
  BitVec.eq_of_getLsbD_eq fun i hi => (h i hi).trans (getLsbD_replicated b ⟨i, hi⟩).symm

/-- The newest `c` samples in the register, or all sixteen, are `b`; and once there are sixteen, `b` is settled. -/
structure NewestSamples (b : Bool) (c : Nat) (s : State) : Prop where
  bits : ∀ i < 16, i < c → s.debSr.getLsbD i = b
  level : 16 ≤ c → s.settled = b

/-- A count of newest samples begins at 0 in any state. -/
theorem NewestSamples.zero (b : Bool) (s : State) : NewestSamples b 0 s where
  bits _ _ h := absurd h (Nat.not_lt_zero _)
  level h := absurd h (by decide)

/-- The filter's part of the state alone decides which samples are newest. -/
theorem NewestSamples.congr {b : Bool} {c : Nat} {s t : State} (h : NewestSamples b c s) (hsr : t.debSr = s.debSr)
    (hsettled : t.settled = s.settled) : NewestSamples b c t where
  bits i hi hc := by rw [hsr]; exact h.bits i hi hc
  level hc := by rw [hsettled]; exact h.level hc

/-- A unanimous register and its settled level are what sixteen or more newest samples are. -/
theorem NewestSamples.settles {b : Bool} {c : Nat} {s : State} (h : NewestSamples b c s) (hc : 16 ≤ c) :
    s.debSr = replicated b ∧ s.settled = b :=
  ⟨eq_replicated fun i hi => h.bits i hi (hi.trans_le hc), h.level hc⟩

/-- A cycle that shifts in `b` has one newest sample more (R101 to R103). -/
theorem NewestSamples.shift {b : Bool} {c : Nat} {s : State} (h : NewestSamples b c s) (hshift : specShift s = true)
    (hkey : s.pins.keyIn = b) : NewestSamples b (c + 1) (cycleSpec s) := by
  have hsr : (cycleSpec s).debSr = specSr s := by simp [cycleSpec, hshift]
  have hbits : ∀ i < 16, i < c + 1 → (specSr s).getLsbD i = b
    | 0, _, _ => (getLsbD_specSr_zero s).trans hkey
    | i + 1, hi, hc => (getLsbD_specSr_succ s hi).trans (h.bits i (by omega) (by omega))
  constructor
  · rwa [hsr]
  · intro hc
    exact specLevel_of_replicated hshift (eq_replicated fun i hi => hbits i hi (hi.trans_le hc))

/-- A cycle that shifts nothing in keeps the newest samples (R104, R105). -/
theorem NewestSamples.hold {b : Bool} {c : Nat} {s : State} (h : NewestSamples b c s) (hshift : specShift s = false) :
    NewestSamples b c (cycleSpec s) :=
  h.congr (by simp [cycleSpec, hshift]) (specLevel_of_not_shift hshift)

/-- A running cycle took a sample exactly when its filter shifted. -/
theorem RunsTo.tookSample_eq {s t : State} (h : RunsTo s t) : tookSample t = specShift s := by
  rw [h.update]
  exact Bool.and_right_comm _ _ _

/-- A step without a reset adds the sample it takes, if any, to the newest samples. -/
theorem NewestSamples.after_step {b : Bool} {c : Nat} {s t : State} (h : NewestSamples b c s) (hstep : step s = .next t)
    (hr : t.pins.rst = false) (hkey : tookSample t = true → t.pins.keyIn = b) :
    NewestSamples b (c + if tookSample t then 1 else 0) t := by
  have hrun := RunsTo.of_step hstep hr
  have hpins : t.pins = (latchInputs s).pins := by rw [hrun.update]; rfl
  have hlatched : NewestSamples b c (latchInputs s) := h.congr (by simp) (by simp)
  have hcycle : NewestSamples b (c + if tookSample t then 1 else 0) (cycleSpec (latchInputs s)) := by
    cases htook : tookSample t with
    | true => exact hlatched.shift (hrun.tookSample_eq.symm.trans htook) (hpins ▸ hkey htook)
    | false => exact hlatched.hold (hrun.tookSample_eq.symm.trans htook)
  exact hcycle.congr (by rw [hrun.update]) (by rw [hrun.update])

/-- A run without a reset adds each of its samples to the newest samples. -/
theorem NewestSamples.after_run {b : Bool} : ∀ (n : Nat) {c : Nat} {s : State} {ts : List State},
    NewestSamples b c s → cyclesFrom n s = some ts → (∀ t ∈ ts, t.pins.rst = false) →
    (∀ t ∈ ts, tookSample t = true → t.pins.keyIn = b) →
    NewestSamples b (c + ts.countP tookSample) (lastOf s ts)
  | 0, c, s, ts, h, hrun, _, _ => by
    obtain rfl : [] = ts := Option.some.inj hrun
    exact h
  | n + 1, c, s, ts, h, hrun, hr, hkey => by
    obtain ⟨t, rest, hfirst, hrest, rfl⟩ := cyclesFrom_succ hrun
    obtain ⟨hrt, hrr⟩ := List.forall_mem_cons.mp hr
    obtain ⟨hkt, hkr⟩ := List.forall_mem_cons.mp hkey
    have ih := NewestSamples.after_run n (h.after_step hfirst hrt hkt) hrest hrr hkr
    rwa [lastOf_cons, List.countP_cons, Nat.add_comm (rest.countP tookSample), ← Nat.add_assoc]

/-- Settles O40, by counting the newest equal samples over the run. That the run goes on already says that its cycles
start in states of R33, so the safety of the first state is not needed. -/
theorem sixteenEqualSamplesSettle : Obligations.SixteenEqualSamplesSettle := by
  intro n s ts b _ hrun hr hkey hcount
  have hnewest := NewestSamples.after_run n (.zero b s) hrun hr hkey
  exact hnewest.settles (by omega)

end Sys2Proof.Machine

/-! ## The decoder

The ten rows of format `DEC` (spec/41_decoder.md R124 to R133) by the kind of accepted tick: the level before and the
level now. Each row is then one of four updates: nothing, a restarted measurement, a recorded mark, a processed break.
The resolution of format `RES` (R134, R135) follows the Morse table. -/

namespace Sys2Proof.Machine

/-! ### Which row an accepted tick selects -/

/-- Format `DEC` selects a row in every running cycle (R79). -/
theorem offered_dec {s : State} (hrun : Running s) : offered .dec s = true := by
  simp [offered, hrun.2]

/-- The condition bit `acc` is set in the cycles of an accepted tick (R100). -/
theorem acc_iff (s : State) : acc s = true ↔ Accepted s := by
  simp [acc]

/-- The condition bit `le` (R120). -/
theorem shortMark_iff (s : State) : shortMark s = true ↔ specUnits s ≤ s.cfg.ditMaxUnits := decide_eq_true_iff

/-- The condition bit `ge` (R120). -/
theorem longGap_iff (s : State) : longGap s = true ↔ s.cfg.breakUnits ≤ specUnits s := decide_eq_true_iff

/-- The condition bit `nz` (R120). -/
theorem hasMarks_iff (s : State) : hasMarks s = true ↔ s.symIdx ≠ 0 := bne_iff_ne

/-- Without an accepted tick the comparator is off (R124). -/
theorem selection_dec_of_not_accepted {s : State} (h : ¬ Accepted s) : selection .dec s = .decOff := by
  simp [selection, acc_iff, h]

/-- The level stays 1: a mark is in progress (R133). -/
theorem selection_dec_of_markHold {s : State} (ha : Accepted s) (hprev : s.decPrev = true)
    (hlevel : s.wires.level = true) : selection .dec s = .decMarkHold := by
  simp [selection, (acc_iff s).mpr ha, hprev, hlevel]

/-- The level falls: the mark that ends is told by its length (R125, R126). -/
theorem selection_dec_of_markEnd {s : State} (ha : Accepted s) (hprev : s.decPrev = true)
    (hlevel : s.wires.level = false) :
    selection .dec s = if specUnits s ≤ s.cfg.ditMaxUnits then .decMarkEndDit else .decMarkEndDah := by
  simp [selection, (acc_iff s).mpr ha, shortMark_iff, hprev, hlevel]

/-- The level rises: the mark that begins is told by the silence before it and by the buffer (R127 to R129). -/
theorem selection_dec_of_markBegin {s : State} (ha : Accepted s) (hprev : s.decPrev = false)
    (hlevel : s.wires.level = true) :
    selection .dec s = if s.cfg.breakUnits ≤ specUnits s then
      (if s.symIdx = 0 then .decBeginBreakEmpty else .decBeginBreak) else .decBeginGap := by
  simp only [selection, hprev, hlevel, (acc_iff s).mpr ha, ← longGap_iff, hasMarks_iff, ite_not]
  cases longGap s <;> rfl

/-- The level stays 0: the idle tick is told by the silence so far and by the buffer (R130 to R132). -/
theorem selection_dec_of_idle {s : State} (ha : Accepted s) (hprev : s.decPrev = false)
    (hlevel : s.wires.level = false) :
    selection .dec s = if s.cfg.breakUnits ≤ specUnits s then
      (if s.symIdx = 0 then .decIdleEmpty else .decIdleBreak) else .decIdleWait := by
  simp only [selection, hprev, hlevel, (acc_iff s).mpr ha, ← longGap_iff, hasMarks_iff, ite_not]
  cases longGap s <;> rfl

/-! ### What the selected row answers -/

/-- A row with no procedure to run makes its writes `k` (R124, R127, R129, R131 to R133). -/
theorem perform_dec_writes {i : Instr} {s : State} (k : State → State) (hrun : Running s)
    (hsel : selection .dec s = i) (hf : formatOf i = .dec := by rfl) :
    perform i s (fun s => .next (k s)) = .next (k s) :=
  perform_selection _ hrun.1 (offered_dec hrun) hsel hf

/-- A row that only writes the level that `dec_prev` already holds changes nothing (R131 to R133). -/
theorem perform_seeLevel_of_decPrev {i : Instr} {s : State} {b : Bool} (hrun : Running s)
    (hsel : selection .dec s = i) (hprev : s.decPrev = b) (hf : formatOf i = .dec := by rfl) :
    perform i s (fun s => .next (seeLevel b s)) = .next s := by
  rw [perform_dec_writes (seeLevel b) hrun hsel hf, ← hprev]
  rfl

/-- A row that ends a mark records its symbol and restarts the measurement (R125, R126). -/
theorem perform_markEnd {i : Instr} {s : State} (x : Symbol) (hrun : Running s) (hidx : s.symIdx.toNat ≤ 6)
    (hsel : selection .dec s = i) (hf : formatOf i = .dec := by rfl) :
    perform i s (fun s => andThen (recordMark x s) fun s1 => .next (seeLevel false (markEdge s1))) = .next { s with
      symBuf := (pushedSyms s.symBuf s.symIdx x).1
      symIdx := (pushedSyms s.symBuf s.symIdx x).2
      tLast := s.msCount
      decPrev := false
      wires := { s.wires with
        symIn := some x
        bufNext := (pushedSyms s.symBuf s.symIdx x).1
        idxNext := (pushedSyms s.symBuf s.symIdx x).2 } } := by
  rw [perform_selection _ hrun.1 (offered_dec hrun) hsel hf, recordMark_eq x s hrun.1 hrun.2 hidx]
  rfl

/-- A row that processes a break resolves and clears the buffer, and then makes its own writes `k` (R128, R130). -/
theorem perform_break {i : Instr} {s : State} (k : State → State) (hrun : Running s) (hidx : s.symIdx.toNat ≤ 6)
    (hsel : selection .dec s = i) (hf : formatOf i = .dec := by rfl) :
    perform i s (fun s => andThen (doBreak s) fun s1 => .next (k s1)) = .next (k { s with
      symBuf := emptyBuf
      symIdx := 0
      wires := { s.wires with
        symIn := some .brk
        bufNext := (pushedSyms s.symBuf s.symIdx .brk).1
        idxNext := (pushedSyms s.symBuf s.symIdx .brk).2
        resIn := some (specWord s)
        done := resolveWord (specWord s) }
      out := resolvedOut s.out (resolveWord (specWord s)) }) := by
  rw [perform_selection _ hrun.1 (offered_dec hrun) hsel hf, doBreak_eq s hrun.1 hrun.2 hidx]
  rfl

/-! ### The obligations of format `DEC` -/

/-- Settles O8: a break, and then the writes of a mark begin. -/
theorem markBeginBreakResolvesAndClears : Obligations.MarkBeginBreakResolvesAndClears := by
  intro s hrun ha hprev hlevel hmarks hidx hgap
  have hsel : selection .dec s = .decBeginBreak := by
    rw [selection_dec_of_markBegin ha hprev hlevel, specUnits, if_pos hgap, if_neg hmarks]
  exact perform_break (fun s => seeLevel true (markEdge s)) hrun hidx hsel

/-- Settles O9: a break, and then only the idle level is written. -/
theorem idleBreakResolvesAndClears : Obligations.IdleBreakResolvesAndClears := by
  intro s hrun ha hprev hlevel hmarks hidx hgap
  have hsel : selection .dec s = .decIdleBreak := by
    rw [selection_dec_of_idle ha hprev hlevel, specUnits, if_pos hgap, if_neg hmarks]
  exact perform_break (seeLevel false) hrun hidx hsel

/-- Settles O5: the mark end at or below the threshold. -/
theorem markEndRecordsDit : Obligations.MarkEndRecordsDit := by
  intro s hrun ha hprev hlevel hidx hunits
  have hsel : selection .dec s = .decMarkEndDit := by
    rw [selection_dec_of_markEnd ha hprev hlevel, specUnits, if_pos hunits]
  exact perform_markEnd .dit hrun hidx hsel

/-- Settles O6: the mark end above the threshold. -/
theorem markEndRecordsDah : Obligations.MarkEndRecordsDah := by
  intro s hrun ha hprev hlevel hidx hunits
  have hsel : selection .dec s = .decMarkEndDah := by
    rw [selection_dec_of_markEnd ha hprev hlevel, specUnits, if_neg (BitVec.not_le.mpr hunits)]
  exact perform_markEnd .dah hrun hidx hsel

/-- Settles O7: the two mark begins with no break to process. -/
theorem markBeginWithoutBreakRestartsMeasurement : Obligations.MarkBeginWithoutBreakRestartsMeasurement := by
  intro s hrun ha hprev hlevel
  constructor
  · intro hgap
    have hsel : selection .dec s = .decBeginGap := by
      rw [selection_dec_of_markBegin ha hprev hlevel, specUnits, if_neg (BitVec.not_le.mpr hgap)]
    exact perform_dec_writes (fun s => seeLevel true (markEdge s)) hrun hsel
  · intro hgap hempty
    have hsel : selection .dec s = .decBeginBreakEmpty := by
      rw [selection_dec_of_markBegin ha hprev hlevel, specUnits, if_pos hgap, if_pos hempty]
    exact perform_dec_writes (fun s => seeLevel true (markEdge s)) hrun hsel

/-- Settles O10: `DEC_OFF` writes nothing, and the other three see the level that `dec_prev` holds. -/
theorem quietDecoderOperationsChangeNothing : Obligations.QuietDecoderOperationsChangeNothing := by
  intro s hrun
  refine ⟨?off, ?markHold, ?idleWait, ?idleEmpty⟩
  case off =>
    intro ha
    exact perform_dec_writes id hrun (selection_dec_of_not_accepted ha)
  case markHold =>
    intro ha hprev hlevel
    exact perform_seeLevel_of_decPrev hrun (selection_dec_of_markHold ha hprev hlevel) hprev
  case idleWait =>
    intro ha hprev hlevel hgap
    have hsel : selection .dec s = .decIdleWait := by
      rw [selection_dec_of_idle ha hprev hlevel, specUnits, if_neg (BitVec.not_le.mpr hgap)]
    exact perform_seeLevel_of_decPrev hrun hsel hprev
  case idleEmpty =>
    intro ha hprev hlevel hgap hempty
    have hsel : selection .dec s = .decIdleEmpty := by
      rw [selection_dec_of_idle ha hprev hlevel, specUnits, if_pos hgap, if_pos hempty]
    exact perform_seeLevel_of_decPrev hrun hsel hprev

/-! ### The resolution -/

/-- No two entries of `MORSE_TABLE` share a pattern (R76), so an entry's word resolves to its own character. -/
theorem resolveWord_of_mem : ∀ e ∈ morseTable, resolveWord e.word = some e.char := by decide

/-- A word that is no entry's pattern resolves to nothing (R135). -/
theorem resolveWord_eq_none {w : SymWord} (h : ∀ e ∈ morseTable, e.word ≠ w) : resolveWord w = none := by
  simpa [resolveWord] using h

/-- Format `RES` selects a row when a word is offered (R79). -/
theorem offered_res {s : State} {w : SymWord} (hrun : Running s) (hw : s.wires.resIn = some w) :
    offered .res s = true := by
  simp [offered, hrun.2, hw]

/-- The row of format `RES` by what the offered word resolves to (R134, R135). -/
theorem selection_res {s : State} {w : SymWord} (hw : s.wires.resIn = some w) :
    selection .res s = if (resolveWord w).isSome then .resMatch else .resNomatch := by
  simp [selection, wordHit, hw]

/-- Settles O13: the offered word resolves to its entry's character, or to nothing. -/
theorem resolutionCompletesOrSignalsNoMatch : Obligations.ResolutionCompletesOrSignalsNoMatch := by
  intro s w hrun hw
  have hoffered := offered_res hrun hw
  constructor
  · intro e he heq
    have hres : resolveWord w = some e.char := heq ▸ resolveWord_of_mem e he
    have hsel : selection .res s = .resMatch := by rw [selection_res hw, hres]; rfl
    change execResMatch s = _
    rw [execResMatch, perform_selection _ hrun.1 hoffered hsel, hw, Option.bind_some, hres]
    rfl
  · intro hno
    have hsel : selection .res s = .resNomatch := by rw [selection_res hw, resolveWord_eq_none hno]; rfl
    exact perform_selection (fun s => .next (signal .noMatch (completeNone s))) hrun.1 hoffered hsel

end Sys2Proof.Machine

/-! ## The key map

The two operations of format `KMAP` (spec/42_keymap.md R161, R162): the validity of the looked-up entry selects the
row, and the row hands the entry's code, or none, to the caller. -/

namespace Sys2Proof.Machine

/-- Format `KMAP` selects a row when a character is looked up (R79). -/
theorem offered_kmap {s : State} {c : Char8} (hrun : Running s) (hc : s.wires.lookup = some c) :
    offered .kmap s = true := by
  simp [offered, hrun.2, hc]

/-- The row of format `KMAP` by the validity of the looked-up entry (R161, R162). -/
theorem selection_kmap {s : State} {c : Char8} (hc : s.wires.lookup = some c) :
    selection .kmap s = if (keymapEntry s.cfg.keymap c).valid then .kmapHit else .kmapMiss := by
  simp [selection, lookupValid, hc]

/-- Settles O14: a valid entry yields its code, any other entry no code. -/
theorem keymapLookupReturnsCodeOrNone : Obligations.KeymapLookupReturnsCodeOrNone := by
  intro s c hrun hc
  have hoffered := offered_kmap hrun hc
  constructor
  · intro hvalid
    have hsel : selection .kmap s = .kmapHit := by rw [selection_kmap hc, hvalid]; rfl
    change execKmapHit s = _
    rw [execKmapHit, perform_selection _ hrun.1 hoffered hsel, hc]
    rfl
  · intro hinvalid
    have hsel : selection .kmap s = .kmapMiss := by rw [selection_kmap hc, hinvalid]; rfl
    exact perform_selection (fun s => .next (yieldCode none s)) hrun.1 hoffered hsel

end Sys2Proof.Machine

/-! ## The event pipeline

The operations of formats `PROD`, `DRN`, `FIFO` and `TB` (spec/43_pipeline.md R171 to R191): the conditions of the
cycle select the row of each format, and the selected row makes its writes. -/

namespace Sys2Proof.Machine

/-! ### The condition bits -/

/-- The condition bit `fifo_full` (R34). -/
theorem fifoFull_iff (s : State) : fifoFull s = true ↔ s.fifoCnt = 32 := beq_iff_eq

/-- The condition bit `fifo_empty` (R34). -/
theorem fifoEmpty_iff (s : State) : fifoEmpty s = true ↔ s.fifoCnt = 0 := beq_iff_eq

/-- The condition bit `ds` (R34). -/
theorem busy_iff (s : State) : busy s = true ↔ s.dstate = .hold := beq_iff_eq

/-- The condition bit `hz` (R77). -/
theorem holdZero_iff (s : State) : holdZero s = true ↔ s.holdCnt = 0 := beq_iff_eq

/-! ### Which row each format selects -/

/-- A suspended producer is told by the room in the FIFO, whether or not a tick arrives (R177, R178). -/
theorem selection_prod_of_pending {s : State} (h : s.pendValid = true) :
    selection .prod s = if s.fifoCnt = 32 then .prodPendWait else .prodPendPush := by
  simp only [selection, h, if_true, fifoFull_iff]

/-- With no tick and nothing held the producer is idle (R179). -/
theorem selection_prod_of_no_tick {s : State} (h : s.pendValid = false) (ht : s.pins.sampleTick = false) :
    selection .prod s = .prodIdle := by
  simp [selection, h, ht]

/-- An accepted tick that completes no character makes no event (R180). -/
theorem selection_prod_of_no_event {s : State} (ha : Accepted s) (hn : s.wires.done = none) :
    selection .prod s = .prodTickNoev := by
  obtain ⟨ht, hv⟩ := ha
  simp [selection, charDone, ht, hv, hn]

/-- A completed character is told by the room in the FIFO (R174, R175). -/
theorem selection_prod_of_done {s : State} {c : Char8} (ha : Accepted s) (hc : s.wires.done = some c) :
    selection .prod s = if s.fifoCnt = 32 then .prodStall else .prodEnq := by
  obtain ⟨ht, hv⟩ := ha
  simp [selection, charDone, fifoFull_iff, ht, hv, hc]

/-- In `HOLD` the row is told by the hold counter and the millisecond tick (R184 to R186). -/
theorem selection_drn_of_hold {s : State} (h : s.dstate = .hold) :
    selection .drn s =
      if s.holdCnt = 0 then .drnRelease else if s.pins.msTick then .drnHoldCount else .drnHoldWait := by
  simp only [selection, (busy_iff s).mpr h, if_true, holdZero_iff]

/-- In `IDLE` the row is told by the drain tick, the FIFO and the head's character (R181 to R183, R187). -/
theorem selection_drn_of_idle {s : State} (h : s.dstate = .idle) :
    selection .drn s = if s.pins.drainTick then
      (if s.fifoCnt = 0 then .drnIdleEmpty else if headValid s then .drnPopPress else .drnPopSkip)
      else .drnIdleWait := by
  cases ht : s.pins.drainTick <;> simp [selection, busy_iff, fifoEmpty_iff, h, ht]

/-- The row of format `FIFO` by the requests of the cycle (R171 to R173). -/
theorem selection_fifo (s : State) :
    selection .fifo s = if s.wires.push.isSome then (if s.wires.pop.isSome then .fifoPushPop else .fifoPush)
      else if s.wires.pop.isSome then .fifoPop else .fifoNone := rfl

/-- The row of format `TB` by the millisecond tick (R190, R191). -/
theorem selection_tb (s : State) : selection .tb s = if s.pins.msTick then .tbCount else .tbIdle := rfl

/-! ### What the selected row answers -/

/-- The selected row of a format that selects one in every running cycle is performed (R79). -/
theorem perform_unit {f : Format} {i : Instr} {s : State} (k : State → Answer) (hrun : Running s)
    (hsel : selection f s = i) (hf : formatOf i = f := by rfl) (hoffered : offered f s = !s.pins.rst := by rfl) :
    perform i s k = k s := by
  obtain ⟨hc, hr⟩ := hrun
  exact perform_selection k hc (by rw [hoffered, hr]; rfl) hsel hf

/-- A push alone raises the count by one (R173). -/
theorem adjustCount_push (s : State) : adjustCount true false s = { s with fifoCnt := s.fifoCnt + 1 } := by
  simp [adjustCount]

/-- A push into a FIFO with room stores its event at the tail and raises the count (R171, R173). -/
theorem exec_fifoPush {s : State} {e : Event} (hrun : Running s) (hpush : s.wires.push = some e)
    (hpop : s.wires.pop = none) (hroom : s.fifoCnt.toNat < 32) :
    exec .fifoPush s = .next { storeTail e s with fifoCnt := s.fifoCnt + 1 } := by
  have hsel : selection .fifo s = .fifoPush := by rw [selection_fifo, hpush, hpop]; rfl
  have hlt : s.fifoCnt < 32 := BitVec.lt_def.mpr hroom
  change execFifoPush s = _
  rw [execFifoPush, perform_unit _ hrun hsel]
  simp only [hpush, decide_eq_true hlt, require_true, adjustCount_push]
  rfl

/-! ### The obligations of the pipeline -/

/-- Settles O16: the completion finds the FIFO full. -/
theorem producerHoldsEventWhenFull : Obligations.ProducerHoldsEventWhenFull := by
  intro s c hrun ha hdone hfull
  have hsel : selection .prod s = .prodStall := by rw [selection_prod_of_done ha hdone, if_pos hfull]
  change execProdStall s = _
  rw [execProdStall, perform_unit _ hrun hsel, hdone]
  rfl

/-- Settles O18: each of the three rows, where it is selected, goes on with the state it is given. -/
theorem quietProducerOperationsChangeNothing : Obligations.QuietProducerOperationsChangeNothing := by
  intro s hrun
  refine ⟨?pendWait, ?idle, ?tickNoev⟩
  case pendWait =>
    intro hpend hfull
    have hsel : selection .prod s = .prodPendWait := by rw [selection_prod_of_pending hpend, if_pos hfull]
    exact perform_unit _ hrun hsel
  case idle =>
    intro hpend htick
    exact perform_unit _ hrun (selection_prod_of_no_tick hpend htick)
  case tickNoev =>
    intro ha hdone
    exact perform_unit _ hrun (selection_prod_of_no_event ha hdone)

/-- Settles O21: the three branches of a hold. -/
theorem drainHoldCountsDownAndReleases : Obligations.DrainHoldCountsDownAndReleases := by
  intro s hrun hhold
  have hsel := selection_drn_of_hold hhold
  refine ⟨?count, ?wait, ?release⟩
  case count =>
    intro hcnt htick
    rw [if_neg hcnt, if_pos htick] at hsel
    exact perform_unit (fun s => .next (countHold s)) hrun hsel
  case wait =>
    intro hcnt htick
    rw [if_neg hcnt, htick] at hsel
    exact perform_unit _ hrun hsel
  case release =>
    intro hcnt
    rw [if_pos hcnt] at hsel
    exact perform_unit (fun s => .next (endHold (emitReport 0x00 0x00 s))) hrun hsel

/-- Settles O22: the two rows of `IDLE` that pop nothing. -/
theorem quietDrainOperationsChangeNothing : Obligations.QuietDrainOperationsChangeNothing := by
  intro s hrun hidle
  have hsel := selection_drn_of_idle hidle
  constructor
  · intro htick
    rw [htick] at hsel
    exact perform_unit _ hrun hsel
  · intro htick hempty
    rw [if_pos htick, if_pos hempty] at hsel
    exact perform_unit _ hrun hsel

/-- Settles O23: the storage after the push is the written one, and a write changes its own entry alone. -/
theorem fifoPushStoresAtTheTail : Obligations.FifoPushStoresAtTheTail := by
  intro s e hrun hpush hpop hroom
  refine ⟨_, exec_fifoPush hrun hpush hpop hroom, rfl, ?_, ?_⟩
  · exact fifoRead_fifoWrite_same s.fifoMem s.fifoWr e
  · intro i hi
    exact fifoRead_fifoWrite_other s.fifoMem e hi.symm

/-- Settles O26: the millisecond tick selects the row. -/
theorem timebaseCountsMilliseconds : Obligations.TimebaseCountsMilliseconds := by
  intro s hrun
  have hsel := selection_tb s
  constructor
  · intro htick
    rw [htick] at hsel
    exact perform_unit (fun s => .next (countMs s)) hrun hsel
  · intro htick
    rw [htick] at hsel
    exact perform_unit _ hrun hsel

end Sys2Proof.Machine

/-! ## The whole cycle

The operation `CYC_RUN` against the one-shot step of spec/44_cycle.md R210. -/

namespace Sys2Proof.Machine

/-- Settles O31: the units, each on what the one before left, read only registers that no earlier unit wrote (R211),
so together they make the update of R210 (`execCycRun_eq`). -/
theorem cycleIsTheSimultaneousStep : Obligations.CycleIsTheSimultaneousStep := by
  intro s hrun hdomain
  obtain ⟨hlegal, hrst⟩ := hrun
  exact execCycRun_eq s hlegal hrst hdomain

end Sys2Proof.Machine

/-! ## The reset cycle

The operation `CYC_RESET` (spec/70_reset_and_hazards.md R260): `rst` alone selects it, so it is performed on any state
of a legal block, whether or not that state meets R33. -/

namespace Sys2Proof.Machine

/-- The row of format `RST` in a reset cycle (R79). -/
theorem selection_rst_of_rst {s : State} (hrst : s.pins.rst = true) : selection .rst s = .cycReset := if_pos hrst

/-- What a reset cycle answers: the reset writes, after the level outputs have shown the start-of-cycle state. -/
theorem execCycReset_eq {s : State} (hlegal : s.cfg.legal = true) (hrst : s.pins.rst = true) :
    execCycReset s = .next (resetRegisters (resetSeed s) (beginCycle s)) :=
  perform_selection (fun s => .next (resetRegisters (resetSeed s) (beginCycle s))) hlegal rfl
    (selection_rst_of_rst hrst)

/-- Settles O28: the writes of the reset are the reset values, the seed being formed from the inputs of the cycle, and
the start of the cycle has driven the outputs before any register is written. -/
theorem resetFromAnyState : Obligations.ResetFromAnyState := by
  intro s hlegal hrst
  exact ⟨_, execCycReset_eq hlegal hrst, rfl⟩

end Sys2Proof.Machine

/-! ## The invariants of reachable states

R33 (spec/10_state.md section 6) part by part: each part holds after a reset cycle (R262), and the update of R210 keeps
each part. A running cycle makes that update and any other cycle is a reset, so every step keeps R33. -/

namespace Sys2Proof.Machine

/-! ### The symbol buffer -/

/-- Reading slot `k` after `push_sym` appended (R121). -/
theorem appendSym_getElem (b : Vector Symbol 6) (i : BitVec 3) (x : Symbol) (k : Nat) (hk : k < 6) :
    (appendSym b i x).1[k] = if i.toNat = k then x else b[k] := by
  simp [appendSym, Vector.getElem_setIfInBounds]

/-- Reading slot `k` after `push_sym` evicted (R122): the last slot is the new symbol's, the others moved down. -/
theorem evictSym_getElem (b : Vector Symbol 6) (x : Symbol) :
    ∀ k : Fin 6, (evictSym b x).1[k.val] = if h : k.val + 1 < 6 then b[k.val + 1] else x
  | 0 | 1 | 2 | 3 | 4 | 5 => rfl

/-- Pushing a mark keeps R33 (a) and (b). -/
theorem BufferOk.pushedSyms {b : Vector Symbol 6} {i : BitVec 3} {x : Symbol} (h : BufferOk b i)
    (hx : x = .dit ∨ x = .dah) : BufferOk (pushedSyms b i x).1 (pushedSyms b i x).2 := by
  obtain ⟨hidx, hslots⟩ := h
  by_cases hfull : i = 6#3
  · subst hfull
    rw [pushedSyms_full x rfl]
    refine ⟨le_rfl, fun k => ?_⟩
    rw [if_pos (show k.val < (evictSym b x).2.toNat from k.isLt), evictSym_getElem]
    split
    next hk => exact (if_pos hk).mp (hslots ⟨k.val + 1, hk⟩)
    next => exact hx
  · have hroom : i.toNat < 6 := by simpa [BitVec.lt_def] using symIdx_lt_six hidx hfull
    have hnext : (i + 1).toNat = i.toNat + 1 := by bv_omega
    rw [pushedSyms_room x hroom]
    refine ⟨hnext.trans_le hroom, fun k => ?_⟩
    have hslot := hslots k
    rw [appendSym_getElem b i x k k.isLt, show (appendSym b i x).2.toNat = i.toNat + 1 from hnext]
    rcases Nat.lt_trichotomy k.val i.toNat with hlt | heq | hgt
    · rw [if_pos (by omega), if_neg (by omega)]
      simpa [hlt] using hslot
    · rw [if_pos (by omega), if_pos heq.symm]
      exact hx
    · rw [if_neg (by omega), if_neg (by omega)]
      simpa [hgt.not_gt] using hslot

/-- The empty buffer meets R33 (a) and (b). -/
theorem bufferOk_empty : BufferOk emptyBuf 0 := by decide

/-- A recorded mark is a Dit or a Dah (R125, R126). -/
theorem markSymbol_cases (s : State) : markSymbol s = .dit ∨ markSymbol s = .dah := by
  unfold markSymbol
  split
  · exact .inl rfl
  · exact .inr rfl

/-- A cycle keeps R33 (a) and (b): it pushes a mark, clears the buffer or leaves it. -/
theorem bufferOk_cycleSpec {s : State} (h : BufferOk s.symBuf s.symIdx) :
    BufferOk (cycleSpec s).symBuf (cycleSpec s).symIdx := by
  cases hend : specMarkEnd s with
  | true =>
    have hpushed := h.pushedSyms (markSymbol_cases s)
    simpa [cycleSpec, hend, markSymbol] using hpushed
  | false =>
    cases hbreak : specBreak s with
    | true => simpa [cycleSpec, hend, hbreak] using bufferOk_empty
    | false => simpa [cycleSpec, hend, hbreak] using h

/-! ### The levels -/

/-- A cycle keeps R33 (c) and (d): a tick stores the level just settled, and a shift settles a unanimous register. -/
theorem levelsOk_cycleSpec {s : State} (h : LevelsOk s.debSr s.settled s.decPrev) :
    LevelsOk (cycleSpec s).debSr (cycleSpec s).settled (cycleSpec s).decPrev := by
  obtain ⟨hprev, hones, hzeros⟩ := h
  have hlevel : (cycleSpec s).settled = specLevel s := rfl
  cases hshift : specShift s with
  | true =>
    have hacc : specAcc s = true := (acc_iff s).mpr ((specShift_iff s).mp hshift).1
    have hsr : (cycleSpec s).debSr = specSr s := by simp [cycleSpec, hshift]
    rw [hsr, hlevel]
    exact ⟨by simp [cycleSpec, hacc], specLevel_of_replicated (b := true) hshift,
      specLevel_of_replicated (b := false) hshift⟩
  | false =>
    have hsr : (cycleSpec s).debSr = s.debSr := by simp [cycleSpec, hshift]
    have hkept : specLevel s = s.settled := specLevel_of_not_shift hshift
    rw [hsr, hlevel, hkept]
    exact ⟨by simp [cycleSpec, hkept, hprev], hones, hzeros⟩

/-- A unanimous register that agrees with both levels meets R33 (c) and (d). -/
theorem levelsOk_replicated : ∀ b : Bool, LevelsOk (replicated b) b b := by decide

/-! ### The FIFO's pointers -/

/-- A cycle keeps R33 (e): its pop does, and its push finds the FIFO with room. -/
theorem fifoOk_cycleSpec {s : State} (h : FifoOk s.fifoRd s.fifoWr s.fifoCnt) :
    FifoOk (cycleSpec s).fifoRd (cycleSpec s).fifoWr (cycleSpec s).fifoCnt := by
  obtain ⟨-, hpopped, hle⟩ := queued_afterPop h
  have hrd : (cycleSpec s).fifoRd = (afterPop s).fifoRd := rfl
  cases hpush : specPush s with
  | none =>
    have hwr : (cycleSpec s).fifoWr = s.fifoWr := by simp [cycleSpec, hpush]
    have hcnt : (cycleSpec s).fifoCnt = (afterPop s).fifoCnt := by simp [cycleSpec, afterPop, hpush]
    rwa [hrd, hwr, hcnt]
  | some e =>
    have hroom : s.fifoCnt.toNat < 32 := fifoCnt_lt_of_ne h.1 (fifoCnt_ne_of_specPush (by rw [hpush]; rfl))
    have hwr : (cycleSpec s).fifoWr = s.fifoWr + 1 := by simp [cycleSpec, hpush]
    have hcomm : ∀ q : BitVec 6, s.fifoCnt + 1 - q = s.fifoCnt - q + 1 := fun q => by bv_omega
    have hcnt : (cycleSpec s).fifoCnt = (afterPop s).fifoCnt + 1 := by
      simp only [cycleSpec, afterPop, hpush]
      exact hcomm _
    obtain ⟨-, hptr⟩ := hpopped
    have hlt := hle.trans_lt hroom
    rw [hrd, hwr, hcnt, hptr]
    generalize (afterPop s).fifoCnt = n at hlt
    constructor <;> bv_omega

/-! ### The hold counter -/

/-- A cycle keeps R33 (f) and (g): a press starts the hold at `HOLD_MS`, a release leaves it at 0, and between them it
only counts down. -/
theorem holdOk_cycleSpec {s : State} (h : HoldOk s.dstate s.holdCnt s.cfg.holdMs) :
    HoldOk (cycleSpec s).dstate (cycleSpec s).holdCnt (cycleSpec s).cfg.holdMs := by
  obtain ⟨hidle, hhold⟩ := h
  cases hcode : specCode s with
  | some code => simp [HoldOk, cycleSpec, hcode]
  | none =>
    cases hd : s.dstate with
    | idle => simp [HoldOk, cycleSpec, hcode, specRelease, hd, hidle hd]
    | hold =>
      have hmax := hhold hd
      by_cases hz : s.holdCnt = 0#16
      · simp [HoldOk, cycleSpec, hcode, specRelease, hd, hz]
      · cases hm : s.pins.msTick with
        | false => simpa [HoldOk, cycleSpec, hcode, specRelease, hd, hz, hm] using hmax
        | true =>
          have hdown : s.holdCnt - 1#16 ≤ s.cfg.holdMs := by bv_omega
          simpa [HoldOk, cycleSpec, hcode, specRelease, hd, hz, hm] using hdown

/-! ### Every step -/

/-- The update of R210 keeps the legal configuration and R33. -/
theorem safe_cycleSpec {s : State} (h : Safe s) : Safe (cycleSpec s) := by
  obtain ⟨hlegal, hbuffer, hlevels, hfifo, hhold⟩ := h
  exact ⟨hlegal, bufferOk_cycleSpec hbuffer, levelsOk_cycleSpec hlevels, fifoOk_cycleSpec hfifo,
    holdOk_cycleSpec hhold⟩

/-- The registers a reset writes meet R33, whatever the seed and the state before (R262). -/
theorem inDomain_resetRegisters (seed : Bool) (s : State) : InDomain (resetRegisters seed s) :=
  ⟨bufferOk_empty, levelsOk_replicated seed, ⟨Nat.zero_le 32, rfl⟩, fun _ => rfl, fun h => by cases h⟩

/-- Sampling the inputs changes nothing that R33 speaks of. -/
theorem safe_latchInputs {s : State} (h : Safe s) : Safe (latchInputs s) := by
  simpa only [Safe, InDomain, latchInputs_cfg, latchInputs_debSr, latchInputs_settled, latchInputs_decPrev,
    latchInputs_symBuf, latchInputs_symIdx, latchInputs_fifoRd, latchInputs_fifoWr, latchInputs_fifoCnt,
    latchInputs_dstate, latchInputs_holdCnt] using h

/-- Settles O33: a reset cycle establishes R33, and a running cycle goes on from a state of R33 (R80) with the update of
R210, which keeps it. -/
theorem everyStepGoesOnAndKeepsTheInvariants : Obligations.EveryStepGoesOnAndKeepsTheInvariants := by
  intro s hsafe
  obtain ⟨hlegal, hdomain⟩ := safe_latchInputs hsafe
  rw [step_eq_exec]
  cases hrst : (latchInputs s).pins.rst with
  | true => exact ⟨_, execCycReset_eq hlegal hrst, hlegal, inDomain_resetRegisters _ _⟩
  | false =>
    obtain ⟨w, hrun, -⟩ := execCycRun_eq (latchInputs s) hlegal hrst hdomain
    exact ⟨_, hrun, safe_cycleSpec ⟨hlegal, hdomain⟩⟩

/-- Every next state of a reset cycle comes from the reset writes (R260). -/
theorem execCycReset_eq_next {s t : State} (h : execCycReset s = .next t) :
    s.cfg.legal = true ∧ t = resetRegisters (resetSeed s) (beginCycle s) := by
  obtain ⟨hlegal, -, ht⟩ := perform_eq_next.mp h
  exact ⟨hlegal, (Host.Outcome.next.inj ht).symm⟩

/-- Settles O34: the reset values are quiescent and meet R33 for either seed; `State.reset` is one such state. -/
theorem resetEstablishesTheInvariants : Obligations.ResetEstablishesTheInvariants := by
  refine ⟨?cycle, by decide, by decide, rfl, rfl, rfl, rfl⟩
  case cycle =>
    intro s t h
    obtain ⟨hlegal, rfl⟩ := execCycReset_eq_next h
    exact ⟨⟨hlegal, inDomain_resetRegisters _ _⟩, ⟨rfl, rfl, rfl, rfl⟩, rfl⟩

/-- Settles O58: `CYC_RUN` requires R33 of the state it starts from, `CYC_RESET` requires nothing of it. -/
theorem statesOutsideTheDomainFault : Obligations.StatesOutsideTheDomainFault := by
  intro s hlegal hout
  constructor
  · intro hrst
    have hsel : selection .rst s = .cycRun := by simp [selection, hrst]
    have hin : inDomain s = false := decide_eq_false hout
    change execCycRun s = _
    rw [execCycRun, perform_selection _ hlegal rfl hsel, hin, require_false]
  · intro hrst
    exact ⟨_, execCycReset_eq hlegal hrst, inDomain_resetRegisters _ _⟩

end Sys2Proof.Machine

/-! ## Words and tables

The encodings of spec/30_encoding.md: a word is the list of its bits, so the decoder's choice over the condition bits
(`decode_rst_bits` and its like) says what every word decodes to; and the two constant tables, entry by entry. -/

namespace Sys2Proof

/-- Bit `k` of a word written from a list of bits is the list's entry `k` (R77). -/
theorem getLsbD_wordOfBits : ∀ (bs : List Bool) (k : Nat), k < 8 → (wordOfBits bs).getLsbD k = bs.getD k false
  | [], k, _ => by simp [wordOfBits]
  | b :: bs, 0, _ => by cases b <;> simp [wordOfBits]
  | b :: bs, k + 1, hk => by
    have ih := getLsbD_wordOfBits bs k (by omega)
    rw [List.getD_cons_succ, ← ih, wordOfBits, BitVec.getLsbD_or, BitVec.getLsbD_shiftLeft]
    cases b <;> simp [hk]

/-- A word with no bit from bit `n` on is written from its lowest `n` bits. -/
theorem wordOfBits_getLsbD {w : Word} {n : Nat} (hw : w.toNat < 2 ^ n) :
    wordOfBits ((List.range n).map w.getLsbD) = w := by
  refine BitVec.eq_of_getLsbD_eq fun k hk => ?_
  rw [getLsbD_wordOfBits _ k hk]
  by_cases hkn : k < n
  · simp [hkn]
  · have hzero : w.getLsbD k = false :=
      Nat.testBit_lt_two_pow (hw.trans_le (Nat.pow_le_pow_right Nat.two_pos (not_lt.mp hkn)))
    simp [hkn, hzero]

/-- Settles O37: each side is the eight bits of R83. -/
theorem inputByteAndVectorAgree : Obligations.InputByteAndVectorAgree := by
  constructor
  · intro iv
    exact wordOfBits_getLsbD (n := 8) iv.isLt
  · rintro ⟨rst, sampleTick, msTick, drainTick, keyIn, keyValid, shiftIn, shiftValid⟩
    simp only [inputsOfByte, byteOfInputs, getLsbD_wordOfBits, Nat.reduceLT, List.getD_cons_zero, List.getD_cons_succ]

/-- Every row stands in its operation's format (section 5 of spec/30_encoding.md). -/
theorem formatOf_of_mem_rowsOf : ∀ (f : Format), ∀ r ∈ rowsOf f, formatOf r.instr = f := by
  intro f
  cases f <;> decide

/-- A format decodes a word to its own operations alone. -/
theorem formatOf_of_decode {f : Format} {w : Word} {i : Instr} (h : decode f w = .op i) : formatOf i = f := by
  unfold decode at h
  split at h
  next =>
    split at h
    next r hr =>
      obtain rfl : r.instr = i := Decoded.op.inj h
      exact formatOf_of_mem_rowsOf f r (List.mem_of_find?_eq_some hr)
    next => cases h
  next => cases h

/-- Every word of a format's width selects a row of it (section 4 of spec/30_encoding.md). -/
theorem exists_decode_of_fits {f : Format} {w : Word} (hw : w.toNat < 2 ^ f.width) : ∃ i, decode f w = .op i := by
  rw [← wordOfBits_getLsbD hw]
  cases f with
  | rst => exact ⟨_, Machine.decode_rst_bits _⟩
  | deb => exact ⟨_, Machine.decode_deb_bits _ _ _ _⟩
  | dec => exact ⟨_, Machine.decode_dec_bits _ _ _ _ _ _⟩
  | sym => exact ⟨_, Machine.decode_sym_bits _⟩
  | res => exact ⟨_, Machine.decode_res_bits _⟩
  | kmap => exact ⟨_, Machine.decode_kmap_bits _⟩
  | prod => exact ⟨_, Machine.decode_prod_bits _ _ _ _⟩
  | drn => exact ⟨_, Machine.decode_drn_bits _ _ _ _ _ _⟩
  | fifo => exact ⟨_, Machine.decode_fifo_bits _ _⟩
  | tb => exact ⟨_, Machine.decode_tb_bits _⟩

/-- A word with a bit above the format's width is rejected (R82). -/
theorem decode_of_not_fits {f : Format} {w : Word} (hw : 2 ^ f.width ≤ w.toNat) :
    decode f w = .rejected .bitsAboveWidth := by
  have hfits : f.fits w = false := decide_eq_false hw.not_gt
  simp [decode, hfits]

/-- Every operation's encoding decodes to it (section 5 of spec/30_encoding.md). -/
theorem decode_encode (i : Instr) : decode (formatOf i) (encode i) = .op i := by
  cases i <;> decide

/-- Settles O35: the encodings row by row, and the words of a format by their bits. -/
theorem encodingsDecodeToTheirOperations : Obligations.EncodingsDecodeToTheirOperations := by
  refine ⟨decode_encode, fun f w hw => ?_, fun f w hw => decode_of_not_fits hw⟩
  obtain ⟨i, hi⟩ := exists_decode_of_fits hw
  exact ⟨i, hi, formatOf_of_decode hi⟩

/-- Settles O36: each word's bits in the decoder's choice of its format, bit 0 first. -/
theorem wordsOfTheOperationMapDecode : Obligations.WordsOfTheOperationMapDecode :=
  ⟨Machine.decode_rst_bits true,
    Machine.decode_deb_bits true true true false,
    Machine.decode_deb_bits true true false true,
    Machine.decode_dec_bits false true true false false true,
    Machine.decode_dec_bits true false false true true true,
    Machine.decode_dec_bits false false false true true true,
    Machine.decode_sym_bits true,
    Machine.decode_res_bits true,
    Machine.decode_kmap_bits false,
    Machine.decode_prod_bits true false true true,
    Machine.decode_prod_bits false true false false,
    Machine.decode_drn_bits false true false false false true,
    Machine.decode_drn_bits true false false false true false,
    Machine.decode_fifo_bits true true,
    Machine.decode_tb_bits true⟩

end Sys2Proof

namespace Sys2Proof.Machine

/-! ### The Morse table -/

/-- The symbol of a two-bit code (R74). -/
def symbolOfCode (c : BitVec 2) : Symbol :=
  if c = 0b00 then .empty else if c = 0b01 then .dit else if c = 0b10 then .dah else .brk

/-- Reading a code gives the symbol it was written for. -/
theorem symbolOfCode_symbolCode (x : Symbol) : symbolOfCode (symbolCode x) = x := by
  cases x <;> rfl

/-- The marks a packed pattern begins with: its slots from slot 0 on, up to the first that is no mark (R74, R76). -/
def marksOfWord (w : SymWord) : List Symbol :=
  ((List.range 6).map fun k => symbolOfCode (w.extractLsb' (2 * k) 2)).takeWhile fun x => x = .dit ∨ x = .dah

/-- Each pattern of the table is the word of one to five marks (R76). -/
theorem wordOfMarks_marksOfWord : ∀ e ∈ morseTable,
    1 ≤ (marksOfWord e.word).length ∧ (marksOfWord e.word).length ≤ 5 ∧
      wordOfMarks (marksOfWord e.word) = e.word := by decide

/-- What `marksOfWord` reads are marks. -/
theorem mem_marksOfWord {w : SymWord} {x : Symbol} (h : x ∈ marksOfWord w) : x = .dit ∨ x = .dah := by
  simpa using List.mem_takeWhile_imp h

/-- Settles O38: the columns of the table are compared entry by entry, and the marks of each pattern read from it. -/
theorem morseEntriesAreDistinctAndResolve : Obligations.MorseEntriesAreDistinctAndResolve := by
  refine ⟨rfl, by decide, by decide, fun e he => ⟨resolveWord_of_mem e he, marksOfWord e.word, ?_⟩⟩
  obtain ⟨hmin, hmax, hword⟩ := wordOfMarks_marksOfWord e he
  exact ⟨hmin, hmax, fun x hx => mem_marksOfWord hx, hword⟩

/-! ### The default key map -/

/-- Only an entry of the map makes a character valid (R160). -/
theorem keymapEntry_mem_of_valid {km : List KeyEntry} {c : Char8} (h : (keymapEntry km c).valid = true) :
    keymapEntry km c ∈ km := by
  unfold keymapEntry at h ⊢
  split at h
  next e he => exact List.mem_of_find?_eq_some he
  next => cases h

/-- Settles O39: a valid character has an entry, and no entry has the code 0x00. -/
theorem defaultKeymapCoversTheAlphabet : Obligations.DefaultKeymapCoversTheAlphabet := by
  have hcodes : ∀ e ∈ defaultKeymap, e.code ≠ 0x00 := by decide
  exact ⟨rfl, by decide, fun c hvalid => hcodes _ (keymapEntry_mem_of_valid hvalid)⟩

end Sys2Proof.Machine

/-! ## Selection and dispatch

Which operation each format selects (R77, R79), that every operation is performed under the same guard, and that none
writes a parameter or an input (R5). -/

namespace Sys2Proof.Machine

/-- A format selects one of its own operations. -/
theorem formatOf_selection (f : Format) (s : State) : formatOf (selection f s) = f :=
  formatOf_of_decode (decode_selectorWord f s)

/-- In one format only its selection is selected, and only when the format is offered. -/
theorem selected_iff_of_format {f : Format} {i : Instr} (s : State) (hf : formatOf i = f) :
    selected i s = true ↔ offered f s = true ∧ i = selection f s := by
  subst hf
  rw [selected_iff]
  exact and_congr_right fun _ => eq_comm

/-- A format selects a row exactly when it is offered. -/
theorem exists_selected_iff (f : Format) (s : State) :
    (∃ i, formatOf i = f ∧ selected i s = true) ↔ offered f s = true := by
  constructor
  · rintro ⟨i, hf, hi⟩
    exact ((selected_iff_of_format s hf).mp hi).1
  · intro ho
    have hf := formatOf_selection f s
    exact ⟨selection f s, hf, (selected_iff_of_format s hf).mpr ⟨ho, rfl⟩⟩

/-- A format selects at most one row (R77). -/
theorem selected_unique {f : Format} {i j : Instr} {s : State} (hi : formatOf i = f) (hj : formatOf j = f)
    (hsi : selected i s = true) (hsj : selected j s = true) : i = j :=
  ((selected_iff_of_format s hi).mp hsi).2.trans ((selected_iff_of_format s hj).mp hsj).2.symm

/-- In a reset cycle format `RST` alone is offered (R79). -/
theorem offered_of_rst {s : State} (hrst : s.pins.rst = true) (f : Format) : offered f s = true ↔ f = .rst := by
  cases f <;> simp [offered, hrst]

/-- Settles O32: a format selects one row exactly when it is offered, and R79 says when that is. -/
theorem eachFormatSelectsExactlyOneRow : Obligations.EachFormatSelectsExactlyOneRow := by
  intro s _
  constructor
  · intro hrst
    refine ⟨?units, ?sym, ?res, ?kmap, fun f i j => selected_unique⟩
    case units =>
      intro f hf
      have ho : offered f s = true := by
        simp only [List.mem_cons, List.not_mem_nil, or_false] at hf
        rcases hf with rfl | rfl | rfl | rfl | rfl | rfl <;> simp [offered, hrst]
      obtain ⟨i, hi, hsel⟩ := (exists_selected_iff f s).mpr ho
      exact ⟨i, ⟨hi, hsel⟩, fun j ⟨hj, hsj⟩ => selected_unique hj hi hsj hsel⟩
    case sym => rw [exists_selected_iff]; simp [offered, hrst]
    case res => rw [exists_selected_iff]; simp [offered, hrst]
    case kmap => rw [exists_selected_iff]; simp [offered, hrst]
  · intro hrst i
    rw [selected_iff, offered_of_rst hrst]
    constructor
    · rintro ⟨hf, hi⟩
      rw [← hi, hf, selection_rst_of_rst hrst]
    · rintro rfl
      exact ⟨rfl, selection_rst_of_rst hrst⟩

/-- The lowest bit of an input byte is the `RST` selector word of its cycle (R77, R83). -/
theorem and_one_eq_wordOfBits (iv : Word) : iv &&& 1 = wordOfBits [(inputsOfByte iv).rst] := by
  refine BitVec.eq_of_getLsbD_eq fun k hk => ?_
  rw [getLsbD_wordOfBits _ k hk, BitVec.getLsbD_and]
  cases k <;> simp [inputsOfByte]

/-- A step performs the operation that the sampled byte's `RST` word decodes to. -/
theorem step_of_decode {s : State} {iv : Word} {i : Instr} (hpins : (latchInputs s).pins = inputsOfByte iv)
    (h : decode .rst (iv &&& 1) = .op i) : step s = exec i (latchInputs s) := by
  rw [and_one_eq_wordOfBits, ← hpins] at h
  rw [step, show selectorWord .rst (latchInputs s) = wordOfBits [(latchInputs s).pins.rst] from rfl, h]

/-- Settles O29: the sampled byte is the one lined up, or the host's free byte where none is. -/
theorem stepRunsTheDecodedCycle : Obligations.StepRunsTheDecodedCycle := by
  constructor
  · intro s iv rest i hstim hdec
    have hlatch := latchInputs_cons hstim
    rw [step_of_decode (by rw [hlatch]) hdec, hlatch]
  · intro s i hstim hdec
    have hlatch := latchInputs_nil hstim
    rw [step_of_decode (by rw [hlatch]) hdec, hlatch]

/-- The operation a format's word selects is performed. -/
theorem performSelected_eq (f : Format) (s : State) : performSelected f s = exec (selection f s) s := by
  rw [performSelected, decode_selectorWord]

/-- The six units of a cycle each perform the operation their selector word selects (R79). -/
theorem units_eq_performSelected :
    performSelected .deb = debUnit ∧ performSelected .dec = decUnit ∧ performSelected .prod = prodUnit ∧
      performSelected .drn = drnUnit ∧ performSelected .fifo = fifoUnit ∧ performSelected .tb = tbUnit := by
  refine ⟨?_, ?_, ?_, ?_, ?_, ?_⟩ <;> funext s <;> rw [performSelected_eq]
  · rw [debUnit, decode_selectorWord]; simp only [selection]; split_ifs <;> rfl
  · rw [decUnit, decode_selectorWord]; simp only [selection]; split_ifs <;> rfl
  · rw [prodUnit, decode_selectorWord]; simp only [selection]; split_ifs <;> rfl
  · rw [drnUnit, decode_selectorWord]; simp only [selection]; split_ifs <;> rfl
  · rw [fifoUnit, decode_selectorWord]; simp only [selection]; split_ifs <;> rfl
  · rw [tbUnit, decode_selectorWord]; simp only [selection]; split_ifs <;> rfl

/-- Settles O30: in a state of R33 `CYC_RUN` runs the units, and each unit is its selection. -/
theorem cycleComposesTheSelectedOperations : Obligations.CycleComposesTheSelectedOperations := by
  intro s hrun hdomain
  obtain ⟨hlegal, hrst⟩ := hrun
  obtain ⟨hdeb, hdec, hprod, hdrn, hfifo, htb⟩ := units_eq_performSelected
  have hsel : selection .rst s = .cycRun := by simp [selection, hrst]
  have hin : inDomain s = true := decide_eq_true hdomain
  rw [hdeb, hdec, hprod, hdrn, hfifo, htb]
  change execCycRun s = _
  rw [execCycRun, perform_selection _ hlegal rfl hsel, hin, require_true]
  rfl

/-- The guard refuses an illegal configuration before anything else (R6). -/
theorem perform_of_illegal {i : Instr} {s : State} (k : State → Answer) (h : s.cfg.legal = false) :
    perform i s k = .refused .illegalConfig := by
  simp [perform, h]

/-- Settles O57: every operation stands under the guard of `perform`. -/
theorem illegalConfigurationIsRefused : Obligations.IllegalConfigurationIsRefused := by
  intro i s hzero
  have hillegal : s.cfg.legal = false := by
    rcases hzero with h | h <;> simp [Config.legal, h]
  cases i <;> unfold exec <;> exact perform_of_illegal _ hillegal

/-! ### What no operation writes -/

/-- What an operation is given and must not write: the parameters, the sampled inputs, and the model's own stimulus
queue and cycle number (R5, R70). -/
def givens (s : State) : Config × Inputs × List Word × Nat := (s.cfg, s.pins, s.stim, s.cycle)

/-- The answer `a`, if it goes on, ends with the givens of `s`. -/
def KeepsGivens (s : State) (a : Answer) : Prop := ∀ t, a = .next t → givens t = givens s

/-- Going on with a state of the same givens keeps them. -/
theorem KeepsGivens.next {s t : State} (h : givens t = givens s) : KeepsGivens s (.next t) := by
  rintro u ⟨⟩
  exact h

/-- A refusal has no next state. -/
theorem KeepsGivens.refused (s : State) (r : Refusal) : KeepsGivens s (.refused r) := by
  rintro t ⟨⟩

/-- A sequence keeps the givens when each part does. -/
theorem KeepsGivens.andThen {s : State} {a : Answer} {k : State → Answer} (ha : KeepsGivens s a)
    (hk : ∀ t, KeepsGivens t (k t)) : KeepsGivens s (andThen a k) := by
  intro t h
  obtain ⟨u, hu, ht⟩ := andThen_eq_next.mp h
  exact (hk u t ht).trans (ha u hu)

/-- The guard of an operation keeps the givens when what it guards does. -/
theorem KeepsGivens.perform {s : State} {i : Instr} {k : State → Answer} (hk : KeepsGivens s (k s)) :
    KeepsGivens s (perform i s k) := by
  intro t h
  obtain ⟨-, -, ht⟩ := perform_eq_next.mp h
  exact hk t ht

/-- A precondition keeps the givens when what it guards does. -/
theorem KeepsGivens.require {s : State} {ok : Bool} {k : State → Answer} (hk : KeepsGivens s (k s)) :
    KeepsGivens s (require ok s k) := by
  intro t h
  obtain ⟨-, ht⟩ := require_eq_next.mp h
  exact hk t ht

/-- The rows of format `SYM` keep the givens. -/
theorem KeepsGivens.execSym (s : State) : KeepsGivens s (execSymAppend s) ∧ KeepsGivens s (execSymEvict s) := by
  constructor <;> refine .perform ?_ <;> split
  · exact .require (.next rfl)
  · exact .refused _ _
  · exact .next rfl
  · exact .refused _ _

/-- The rows of format `RES` keep the givens. -/
theorem KeepsGivens.execRes (s : State) : KeepsGivens s (execResMatch s) ∧ KeepsGivens s (execResNomatch s) := by
  refine ⟨.perform ?_, .perform (.next rfl)⟩
  split
  · exact .next rfl
  · exact .refused _ _

/-- The rows of format `KMAP` keep the givens. -/
theorem KeepsGivens.execKmap (s : State) : KeepsGivens s (execKmapHit s) ∧ KeepsGivens s (execKmapMiss s) := by
  refine ⟨.perform ?_, .perform (.next rfl)⟩
  split
  · exact .next rfl
  · exact .refused _ _

/-- Offering a symbol and performing the selected row keeps the givens. -/
theorem KeepsGivens.pushSym (x : Symbol) (s : State) : KeepsGivens s (pushSym x s) := by
  obtain ⟨happend, hevict⟩ := KeepsGivens.execSym (offerSymbol x s)
  unfold Machine.pushSym
  dsimp only
  split
  · exact happend
  · exact hevict
  · exact .refused _ _

/-- Offering a word and performing the selected row keeps the givens. -/
theorem KeepsGivens.resolveBuffer (w : SymWord) (s : State) : KeepsGivens s (resolveBuffer w s) := by
  obtain ⟨hmatch, hnomatch⟩ := KeepsGivens.execRes (offerWord w s)
  unfold Machine.resolveBuffer
  dsimp only
  split
  · exact hmatch
  · exact hnomatch
  · exact .refused _ _

/-- Looking a character up keeps the givens. -/
theorem KeepsGivens.lookUp (c : Char8) (s : State) : KeepsGivens s (lookUp c s) := by
  obtain ⟨hhit, hmiss⟩ := KeepsGivens.execKmap (offerChar c s)
  unfold Machine.lookUp
  dsimp only
  split
  · exact hhit
  · exact hmiss
  · exact .refused _ _

/-- Recording a mark keeps the givens. -/
theorem KeepsGivens.recordMark (x : Symbol) (s : State) : KeepsGivens s (recordMark x s) :=
  .andThen (.pushSym x s) fun _ => .next rfl

/-- A break keeps the givens. -/
theorem KeepsGivens.doBreak (s : State) : KeepsGivens s (doBreak s) :=
  .andThen (.pushSym .brk s) fun s1 => .andThen (.resolveBuffer _ s1) fun _ => .next rfl

/-- Every operation but `CYC_RUN` keeps the givens: it makes its writes, after the procedure it
calls if it calls one. -/
theorem keepsGivens_exec_of_ne_cycRun {i : Instr} (s : State) (hi : i ≠ .cycRun) : KeepsGivens s (exec i s) := by
  cases i <;> unfold exec
  case cycRun => exact absurd rfl hi
  case symAppend => exact (KeepsGivens.execSym s).1
  case symEvict => exact (KeepsGivens.execSym s).2
  case resMatch => exact (KeepsGivens.execRes s).1
  case resNomatch => exact (KeepsGivens.execRes s).2
  case kmapHit => exact (KeepsGivens.execKmap s).1
  case kmapMiss => exact (KeepsGivens.execKmap s).2
  case decMarkEndDit | decMarkEndDah => exact .perform (.andThen (.recordMark _ s) fun _ => .next rfl)
  case decBeginBreak | decIdleBreak => exact .perform (.andThen (.doBreak s) fun _ => .next rfl)
  case prodEnq | prodStall =>
    refine .perform ?_
    split
    · exact .next rfl
    · exact .refused _ _
  case drnPopPress =>
    refine .perform (.andThen (.lookUp _ (requestPop s)) fun s1 => ?_)
    split
    · exact .next rfl
    · exact .refused _ _
  case drnPopSkip => exact .perform (.andThen (.lookUp _ (requestPop s)) fun _ => .next rfl)
  case fifoPush | fifoPushPop =>
    refine .perform ?_
    split
    · exact .require (.next rfl)
    · exact .refused _ _
  case fifoPop => exact .perform (.require (.next rfl))
  all_goals exact .perform (.next rfl)

/-- A format's selected operation keeps the givens, if it is a unit's and so not `CYC_RUN`. -/
theorem KeepsGivens.performSelected {f : Format} (s : State) (hf : f ≠ .rst) : KeepsGivens s (performSelected f s) := by
  rw [performSelected_eq]
  refine keepsGivens_exec_of_ne_cycRun s fun h => hf ?_
  rw [← formatOf_selection f s, h]
  rfl

/-- The units of a cycle one after another keep the givens. -/
theorem KeepsGivens.runUnits (s : State) : KeepsGivens s (runUnits s) := by
  obtain ⟨hdeb, hdec, hprod, hdrn, hfifo, htb⟩ := units_eq_performSelected
  unfold Machine.runUnits
  rw [← hdeb, ← hdec, ← hprod, ← hdrn, ← hfifo, ← htb]
  exact .andThen (.performSelected s (by decide)) fun s1 => .andThen (.performSelected s1 (by decide)) fun s2 =>
    .andThen (.performSelected s2 (by decide)) fun s3 => .andThen (.performSelected s3 (by decide)) fun s4 =>
      .andThen (.performSelected s4 (by decide)) fun s5 => .performSelected s5 (by decide)

/-- Settles O55: no write of an operation is to the givens, and `CYC_RUN` is made of such operations. -/
theorem operationsKeepTheConfiguration : Obligations.OperationsKeepTheConfiguration := by
  intro i s t h
  have hkeeps : KeepsGivens s (exec i s) := by
    by_cases hi : i = .cycRun
    · subst hi
      unfold exec
      exact .perform (.require (KeepsGivens.runUnits (beginCycle s)))
    · exact keepsGivens_exec_of_ne_cycRun s hi
  simpa only [givens, Prod.mk.injEq] using hkeeps t h

end Sys2Proof.Machine

/-! ## The operations taken alone

The rows of `SYM`, `PROD`, `DRN` and `FIFO` whose effect the sections above do not give, each under its selecting bits;
and the FIFO rows as operations on the queue (R57). -/

namespace Sys2Proof.Machine

/-! ### The symbol rows -/

/-- Format `SYM` selects a row when a symbol is offered (R79). -/
theorem offered_sym {s : State} {x : Symbol} (hrun : Running s) (hx : s.wires.symIn = some x) :
    offered .sym s = true := by
  simp [offered, hrun.2, hx]

/-- The row of format `SYM` by the room in the buffer (R121, R122). -/
theorem selection_sym (s : State) : selection .sym s = if s.symIdx = 6 then .symEvict else .symAppend := by
  simp [selection, bufFull]

/-- Settles O11: a free slot selects the append, whose index R33 (a) bounds. -/
theorem symAppendFillsTheNextSlot : Obligations.SymAppendFillsTheNextSlot := by
  intro s x hroom hrun hx
  have hfree : s.symIdx ≠ 6 := fun h => by simp [h] at hroom
  have hlt : s.symIdx < 6 := BitVec.lt_def.mpr hroom
  have hsel : selection .sym s = .symAppend := by rw [selection_sym, if_neg hfree]
  have hbuf : appendSym s.symBuf s.symIdx x = (s.symBuf.set s.symIdx.toNat x hroom, s.symIdx + 1) := by
    rw [← pushedSyms_room x hroom, pushedSyms, if_neg hfree, dif_pos hroom]
  change execSymAppend s = _
  rw [execSymAppend, perform_selection _ hrun.1 (offered_sym hrun hx) hsel, hx]
  simp only [decide_eq_true hlt, require_true, hbuf]
  rfl

/-- Settles O12: six filled slots select the eviction. -/
theorem symEvictDropsTheOldest : Obligations.SymEvictDropsTheOldest := by
  intro s x hrun hfull hx
  have hsel : selection .sym s = .symEvict := by rw [selection_sym, if_pos hfull]
  change execSymEvict s = _
  rw [execSymEvict, perform_selection _ hrun.1 (offered_sym hrun hx) hsel, hx]
  rfl

/-! ### The producer -/

/-- Settles O15: the completion finds room in the FIFO. -/
theorem producerPushesCompletedEvent : Obligations.ProducerPushesCompletedEvent := by
  intro s c hrun ha hdone hroom
  have hsel : selection .prod s = .prodEnq := by rw [selection_prod_of_done ha hdone, if_neg hroom]
  change execProdEnq s = _
  rw [execProdEnq, perform_unit _ hrun hsel, hdone]
  rfl

/-- Settles O17: the suspended producer finds room in the FIFO. -/
theorem producerPushesHeldEventAndResumes : Obligations.ProducerPushesHeldEventAndResumes := by
  intro s hrun hpend hroom
  have hsel : selection .prod s = .prodPendPush := by rw [selection_prod_of_pending hpend, if_neg hroom]
  exact perform_unit (fun s => .next (resumeProducer (requestPush s.pendEv s))) hrun hsel

/-! ### The drain -/

/-- The condition bit `kv` of a FIFO that is not empty: the head's character is valid (R77, R182). -/
theorem headValid_of_ne {s : State} (hne : s.fifoCnt ≠ 0) :
    headValid s = (keymapEntry s.cfg.keymap (eventChar (fifoHead s))).valid := by
  have hempty : fifoEmpty s = false := beq_eq_false_iff_ne.mpr hne
  simp [headValid, hempty]

/-- A drain tick in `IDLE` with an event in the FIFO selects by the head's character (R182, R183). -/
theorem selection_drn_of_pop {s : State} (hidle : s.dstate = .idle) (htick : s.pins.drainTick = true)
    (hne : s.fifoCnt ≠ 0) :
    selection .drn s =
      if (keymapEntry s.cfg.keymap (eventChar (fifoHead s))).valid then .drnPopPress else .drnPopSkip := by
  rw [selection_drn_of_idle hidle, if_pos htick, if_neg hne, headValid_of_ne hne]

/-- Requesting the pop and looking the head's character up (R161, R162, R182). -/
theorem lookUp_requestPop {s : State} (hrun : Running s) :
    lookUp (eventChar (fifoHead s)) (requestPop s) = .next { s with wires := { s.wires with
      pop := some (fifoHead s)
      lookup := some (eventChar (fifoHead s))
      code := scanCode s.cfg.keymap (eventChar (fifoHead s)) } } :=
  lookUp_eq _ (requestPop s) hrun.1 hrun.2

/-- Settles O19: the head has a scan code. -/
theorem drainPressesTheHead : Obligations.DrainPressesTheHead := by
  intro s hrun hidle htick hne hvalid
  have hsel : selection .drn s = .drnPopPress := by
    rw [selection_drn_of_pop hidle htick hne]; exact if_pos hvalid
  have hcode : scanCode s.cfg.keymap (eventChar (fifoHead s)) =
      some (keymapEntry s.cfg.keymap (eventChar (fifoHead s))).code := if_pos hvalid
  change execDrnPopPress s = _
  rw [execDrnPopPress, perform_unit _ hrun hsel, lookUp_requestPop hrun, andThen_next, hcode]
  rfl

/-- Settles O20: the head has no scan code. -/
theorem drainDropsUnsupportedHead : Obligations.DrainDropsUnsupportedHead := by
  intro s hrun hidle htick hne hinvalid
  have hmiss : ¬ (keymapEntry s.cfg.keymap (eventChar (fifoHead s))).valid = true := Bool.eq_false_iff.mp hinvalid
  have hsel : selection .drn s = .drnPopSkip := by
    rw [selection_drn_of_pop hidle htick hne, if_neg hmiss]
  have hcode : scanCode s.cfg.keymap (eventChar (fifoHead s)) = none := if_neg hmiss
  change execDrnPopSkip s = _
  rw [execDrnPopSkip, perform_unit _ hrun hsel, lookUp_requestPop hrun, andThen_next, hcode]
  rfl

/-! ### The FIFO -/

/-- A pop alone lowers the count by one (R173). -/
theorem adjustCount_pop (s : State) : adjustCount false true s = { s with fifoCnt := s.fifoCnt - 1 } := by
  simp [adjustCount]

/-- A push and a pop keep the count (R173). -/
theorem adjustCount_both (s : State) : adjustCount true true s = s := by
  simp [adjustCount]

/-- Neither keeps the count (R173). -/
theorem adjustCount_none (s : State) : adjustCount false false s = s := by
  simp [adjustCount]

/-- A count that is not 0 is above 0. -/
theorem fifoCnt_pos_of_ne {c : BitVec 6} (h : c ≠ 0) : 0 < c := by bv_omega

/-- Settles O24: a pop alone, from a FIFO that holds an event. -/
theorem fifoPopRemovesTheHead : Obligations.FifoPopRemovesTheHead := by
  intro s e hrun hpush hpop hne
  have hsel : selection .fifo s = .fifoPop := by rw [selection_fifo, hpush, hpop]; rfl
  change execFifoPop s = _
  rw [execFifoPop, perform_unit _ hrun hsel]
  simp only [decide_eq_true (fifoCnt_pos_of_ne hne), require_true, adjustCount_pop]
  rfl

/-- A push and a pop in one cycle store the event at the tail and drop the head (R173). -/
theorem exec_fifoPushPop {s : State} {e p : Event} (hrun : Running s) (hpush : s.wires.push = some e)
    (hpop : s.wires.pop = some p) (hsome : 0 < s.fifoCnt.toNat) (hroom : s.fifoCnt.toNat < 32) :
    exec .fifoPushPop s = .next (dropHead (storeTail e s)) := by
  have hsel : selection .fifo s = .fifoPushPop := by rw [selection_fifo, hpush, hpop]; rfl
  have hpos : 0 < s.fifoCnt := BitVec.lt_def.mpr hsome
  have hlt : s.fifoCnt < 32 := BitVec.lt_def.mpr hroom
  change execFifoPushPop s = _
  rw [execFifoPushPop, perform_unit _ hrun hsel]
  simp only [hpush, decide_eq_true hpos, decide_eq_true hlt, Bool.and_self, require_true, adjustCount_both]

/-- Settles O25: the storage after the push is the written one, and a write changes its own entry alone. -/
theorem fifoNoneAndPushPop : Obligations.FifoNoneAndPushPop := by
  intro s hrun
  constructor
  · intro hpush hpop
    have hsel : selection .fifo s = .fifoNone := by rw [selection_fifo, hpush, hpop]; rfl
    change execFifoNone s = _
    rw [execFifoNone, perform_unit _ hrun hsel, adjustCount_none]
  · intro e p hpush hpop hsome hroom
    refine ⟨_, exec_fifoPushPop hrun hpush hpop hsome hroom, rfl, ?_, ?_⟩
    · exact fifoRead_fifoWrite_same s.fifoMem s.fifoWr e
    · intro i hi
      exact fifoRead_fifoWrite_other s.fifoMem e hi.symm

/-- What `FIFO_PUSH` can answer with a next state. -/
theorem execFifoPush_eq_next {s t : State} {e : Event} (hpush : s.wires.push = some e) (h : execFifoPush s = .next t) :
    s.fifoCnt.toNat < 32 ∧ t = adjustCount true false (storeTail e s) := by
  obtain ⟨-, -, hmatch⟩ := perform_eq_next.mp h
  simp only [hpush] at hmatch
  obtain ⟨hlt, ht⟩ := require_eq_next.mp hmatch
  exact ⟨BitVec.lt_def.mp (of_decide_eq_true hlt), (Host.Outcome.next.inj ht).symm⟩

/-- What `FIFO_POP` can answer with a next state. -/
theorem execFifoPop_eq_next {s t : State} (h : execFifoPop s = .next t) :
    s.fifoCnt ≠ 0 ∧ t = adjustCount false true (dropHead s) := by
  obtain ⟨-, -, hreq⟩ := perform_eq_next.mp h
  obtain ⟨hpos, ht⟩ := require_eq_next.mp hreq
  exact ⟨(BitVec.ne_of_lt (of_decide_eq_true hpos)).symm, (Host.Outcome.next.inj ht).symm⟩

/-- What `FIFO_PUSH_POP` can answer with a next state. -/
theorem execFifoPushPop_eq_next {s t : State} {e : Event} (hpush : s.wires.push = some e)
    (h : execFifoPushPop s = .next t) :
    s.fifoCnt ≠ 0 ∧ s.fifoCnt.toNat < 32 ∧ t = dropHead (storeTail e s) := by
  obtain ⟨-, -, hmatch⟩ := perform_eq_next.mp h
  simp only [hpush] at hmatch
  obtain ⟨hok, ht⟩ := require_eq_next.mp hmatch
  obtain ⟨hpos, hlt⟩ := (Bool.and_eq_true _ _).mp hok
  rw [adjustCount_both] at ht
  exact ⟨(BitVec.ne_of_lt (of_decide_eq_true hpos)).symm, BitVec.lt_def.mp (of_decide_eq_true hlt),
    (Host.Outcome.next.inj ht).symm⟩

/-- A push and a pop in one cycle take the oldest event and append the new one (R57): the queue is not empty, so the
event popped is not the one pushed. -/
theorem queued_dropHead_storeTail {s : State} (e : Event) (hok : FifoOk s.fifoRd s.fifoWr s.fifoCnt)
    (hne : s.fifoCnt ≠ 0) (hroom : s.fifoCnt.toNat < 32) :
    queued s ++ [e] = fifoHead s :: queued (dropHead (storeTail e s)) := by
  have hok' : FifoOk (s.fifoRd + 1) s.fifoWr (s.fifoCnt - 1) := by
    obtain ⟨-, hwr⟩ := hok
    constructor
    · bv_omega
    · rw [hwr]; bv_omega
  have hroom' : (s.fifoCnt - 1).toNat < 32 := by bv_omega
  have hcnt : s.fifoCnt - 1 + 1 = s.fifoCnt := by bv_omega
  have hpushed := queued_storeTail (s := { dropHead s with fifoCnt := s.fifoCnt - 1 }) e hok' hroom'
  rw [queued_dropHead hne, adjustCount_pop, List.cons_append, dropHead_fifoCnt, ← hpushed, adjustCount_push]
  exact congrArg _ (queued_congr rfl rfl hcnt)

/-- Settles O27: what each row can answer, and what its writes make of the queue. -/
theorem fifoOperationsActOnAQueue : Obligations.FifoOperationsActOnAQueue := by
  intro s _ hok
  refine ⟨?push, ?pop, ?both⟩
  case push =>
    intro t e hpush h
    obtain ⟨hroom, rfl⟩ := execFifoPush_eq_next hpush h
    exact queued_storeTail e hok hroom
  case pop =>
    intro t h
    obtain ⟨hne, rfl⟩ := execFifoPop_eq_next h
    exact queued_dropHead hne
  case both =>
    intro t e hpush h
    obtain ⟨hne, hroom, rfl⟩ := execFifoPushPop_eq_next hpush h
    exact queued_dropHead_storeTail e hok hne hroom

end Sys2Proof.Machine

/-! ## What a step shows

A running step makes the update of R210 (`RunsTo`), so each statement about one step is a fact about `cycleSpec` and its
outputs; statements about runs go by induction on the cycles. -/

namespace Sys2Proof.Machine

/-- The inputs a running cycle leaves are those it started with. -/
theorem RunsTo.pins_eq {s t : State} (h : RunsTo s t) : t.pins = s.pins := by rw [h.update]; rfl

/-- The outputs of a running cycle are those of R210. -/
theorem RunsTo.out_eq {s t : State} (h : RunsTo s t) : t.out = specOut s := by rw [h.update]; rfl

/-- Everything a step can do: a reset cycle or a running cycle, on the sampled inputs. -/
theorem step_eq_next {s t : State} (h : step s = .next t) :
    t = resetRegisters (resetSeed (latchInputs s)) (beginCycle (latchInputs s)) ∨ RunsTo (latchInputs s) t := by
  rw [step_eq_exec] at h
  split at h
  next => exact .inl (execCycReset_eq_next h).2
  next hrst => exact .inr (.of_execCycRun (by simpa using hrst) h)

/-! ### The outputs -/

/-- A field whose strobe is 0 is 0x00 (R71). -/
structure FieldsFollowStrobes (o : Outputs) : Prop where
  report : o.repValid = false → o.repCode = 0x00 ∧ o.repMod = 0x00
  char : o.charValid = false → o.char = 0x00
  exclusive : ¬ (o.noMatch = true ∧ o.charValid = true)

/-- With every strobe 0 every field is 0x00 (R212). -/
theorem fieldsFollowStrobes_quiet (level : Bool) (cnt : BitVec 6) (stall busy : Bool) :
    FieldsFollowStrobes (Outputs.quiet level cnt stall busy) where
  report _ := ⟨rfl, rfl⟩
  char _ := rfl
  exclusive h := Bool.false_ne_true h.1

/-- A break that resolves to no character completes none (R134, R135). -/
theorem specDone_eq_none_of_noMatch {s : State} (h : (specBreak s && (resolveWord (specWord s)).isNone) = true) :
    specDone s = none := by
  obtain ⟨hbreak, hnone⟩ := (Bool.and_eq_true _ _).mp h
  rw [specDone, if_pos hbreak]
  exact Option.isNone_iff_eq_none.mp hnone

/-- The outputs of R210 obey R71. -/
theorem fieldsFollowStrobes_specOut (s : State) : FieldsFollowStrobes (specOut s) where
  report h := by
    obtain ⟨hcode, -⟩ := (Bool.or_eq_false_iff).mp h
    have hnone : specCode s = none := by simpa using hcode
    simp [specOut, hnone]
  char h := by
    have hnone : specDone s = none := by simpa [specOut] using h
    simp [specOut, hnone]
  exclusive := by
    rintro ⟨hmatch, hchar⟩
    have hnone := specDone_eq_none_of_noMatch hmatch
    simp [specOut, hnone] at hchar

/-- Settles O51: a reset cycle shows the quiet outputs, a running cycle those of R210, and both show the level outputs
of the start-of-cycle state. -/
theorem outputsFollowTheirStrobes : Obligations.OutputsFollowTheirStrobes := by
  intro s t h
  rcases step_eq_next h with rfl | hrun
  · obtain ⟨hreport, hchar, hexclusive⟩ := fieldsFollowStrobes_quiet s.settled s.fifoCnt (stalled s) (busy s)
    simp only [resetRegisters_out, beginCycle_out, stalled, busy, latchInputs_settled, latchInputs_fifoCnt,
      latchInputs_pendValid, latchInputs_dstate]
    exact ⟨rfl, rfl, rfl, beq_iff_eq, hreport, hchar, hexclusive, fun _ => ⟨rfl, rfl, rfl, rfl⟩⟩
  · obtain ⟨hreport, hchar, hexclusive⟩ := fieldsFollowStrobes_specOut (latchInputs s)
    rw [hrun.pins_eq, hrun.rst, hrun.out_eq]
    exact ⟨latchInputs_settled s, latchInputs_fifoCnt s, latchInputs_pendValid s, by simp [specOut], hreport, hchar,
      hexclusive, fun h => by cases h⟩

/-! ### The suspended producer -/

/-- A cycle without an accepted tick leaves the filter and the decoder as they are (R105, R124). -/
theorem cycleSpec_of_not_acc {s : State} (h : specAcc s = false) :
    (cycleSpec s).debSr = s.debSr ∧ (cycleSpec s).settled = s.settled ∧ (cycleSpec s).decPrev = s.decPrev ∧
      (cycleSpec s).tLast = s.tLast ∧ (cycleSpec s).symBuf = s.symBuf ∧ (cycleSpec s).symIdx = s.symIdx := by
  have hshift : specShift s = false := by simp [specShift, h]
  have hlevel := specLevel_of_not_shift hshift
  have hend : specMarkEnd s = false := by simp [specMarkEnd, h]
  have hbreak : specBreak s = false := by simp [specBreak, h]
  simp [cycleSpec, h, hshift, hlevel, hend, hbreak]

/-- A cycle without an accepted tick raises no strobe of the decoder (R124). -/
theorem specOut_of_not_acc {s : State} (h : specAcc s = false) :
    (specOut s).charValid = false ∧ (specOut s).noMatch = false := by
  have hbreak : specBreak s = false := by simp [specBreak, h]
  simp [specOut, specDone, hbreak]

/-- A suspended producer keeps its event, and waits exactly while the FIFO is full (R177, R178). -/
theorem cycleSpec_of_pending {s : State} (h : s.pendValid = true) :
    (cycleSpec s).pendEv = s.pendEv ∧ ((cycleSpec s).pendValid = true ↔ s.fifoCnt = 32) := by
  have hdone : specDone s = none := specDone_of_not_acc (by simp [acc, h])
  simp [cycleSpec, h, hdone]

/-- Settles O45: a suspended producer accepts no tick (R176), and the millisecond count does not depend on it. -/
theorem suspendedProducerIsFrozen : Obligations.SuspendedProducerIsFrozen := by
  intro s t _ hpend h hr
  have hrun := RunsTo.of_step h hr
  have hpend' : (latchInputs s).pendValid = true := (latchInputs_pendValid s).trans hpend
  have hacc : specAcc (latchInputs s) = false := by simp [specAcc, hpend]
  obtain ⟨hsr, hsettled, hprev, hlast, hbuf, hidx⟩ := cycleSpec_of_not_acc hacc
  obtain ⟨hchar, hmatch⟩ := specOut_of_not_acc hacc
  obtain ⟨hev, hvalid⟩ := cycleSpec_of_pending hpend'
  have hms : (cycleSpec (latchInputs s)).msCount =
      if (latchInputs s).pins.msTick then s.msCount + 1 else s.msCount := by simp [cycleSpec]
  rw [hrun.pins_eq, hrun.out_eq, hrun.update]
  exact ⟨by simpa using hsr, by simpa using hsettled, by simpa using hprev, by simpa using hlast, by simpa using hbuf,
    by simpa using hidx, hchar, hmatch, hms, by simpa using hev, by simpa using hvalid⟩

/-! ### Presses and releases -/

/-- Without a report the drain FSM stays where it is (R193). -/
theorem cycleSpec_dstate_of_no_report {s : State} (h : (specOut s).repValid = false) :
    (cycleSpec s).dstate = s.dstate := by
  obtain ⟨hcode, hrelease⟩ := (Bool.or_eq_false_iff).mp h
  have hnone : specCode s = none := by simpa using hcode
  simp [cycleSpec, hnone, hrelease]

/-- In `HOLD` nothing is popped (R184 to R186, R188). -/
theorem specPop_of_hold {s : State} (h : s.dstate = .hold) : specPop s = none := by simp [specPop, h]

/-- In `HOLD` no character is looked up. -/
theorem specCode_of_hold {s : State} (h : s.dstate = .hold) : specCode s = none := by simp [specCode, specPop_of_hold h]

/-- In `HOLD` a report is emitted exactly when no strobe is left (R186). -/
theorem specOut_repValid_of_hold {s : State} (h : s.dstate = .hold) :
    (specOut s).repValid = true ↔ s.holdCnt = 0 := by
  simp [specOut, specCode_of_hold h, specRelease, h]

/-- A report from `HOLD` is the release (R186). -/
theorem release_of_hold {s : State} (h : s.dstate = .hold) (hz : s.holdCnt = 0) :
    (specOut s).repCode = 0x00 ∧ (specOut s).repMod = 0x00 ∧ (cycleSpec s).dstate = .idle := by
  simp [specOut, cycleSpec, specCode_of_hold h, specRelease, h, hz]

/-- A report from `IDLE` is the press of the popped event, which has a scan code, and starts the hold (R182, R189). -/
theorem press_of_idle {s : State} (h : s.dstate = .idle) (hrep : (specOut s).repValid = true) :
    (cycleSpec s).dstate = .hold ∧ (cycleSpec s).holdCnt = s.cfg.holdMs ∧ ∃ e, specPop s = some e ∧
      (specOut s).repCode = (keymapEntry s.cfg.keymap (eventChar e)).code ∧
      (specOut s).repMod = if eventShift e then s.cfg.shiftMod else 0x00 := by
  have hrelease : specRelease s = false := by simp [specRelease, h]
  obtain ⟨code, hcode⟩ : ∃ code, specCode s = some code := by
    simpa [specOut, hrelease, Option.isSome_iff_exists] using hrep
  obtain ⟨e, hpop, hscan⟩ := Option.bind_eq_some_iff.mp hcode
  have hentry : (keymapEntry s.cfg.keymap (eventChar e)).code = code := by
    simp only [scanCode, Option.ite_none_right_eq_some] at hscan
    exact Option.some.inj hscan.2
  refine ⟨by simp [cycleSpec, hcode], by simp [cycleSpec, hcode], e, hpop, ?_, ?_⟩
  · simp [specOut, hcode, hentry]
  · simp [specOut, hcode, hpop, eventShift]

/-- Settles O48: the three cases of the drain FSM's report. -/
theorem reportsAlternatePressAndRelease : Obligations.ReportsAlternatePressAndRelease := by
  intro s t _ h hr
  have hrun := RunsTo.of_step h hr
  have hdstate : t.dstate = (cycleSpec (latchInputs s)).dstate := by rw [hrun.update]
  have hhold : t.holdCnt = (cycleSpec (latchInputs s)).holdCnt := by rw [hrun.update]
  rw [hdstate, hhold, hrun.pop, hrun.out_eq, ← latchInputs_dstate s, ← latchInputs_holdCnt s, ← latchInputs_cfg s]
  refine ⟨cycleSpec_dstate_of_no_report, fun hrep hidle => press_of_idle hidle hrep, fun hrep hhold => ?_⟩
  have hz := (specOut_repValid_of_hold hhold).mp hrep
  obtain ⟨hcode, hmod, hnext⟩ := release_of_hold hhold hz
  exact ⟨hnext, hz, hcode, hmod, specPop_of_hold hhold⟩

/-- A cycle of a hold with strobes left emits no report and counts the millisecond tick (R184, R185). -/
theorem hold_counts {s : State} (h : s.dstate = .hold) (hne : s.holdCnt ≠ 0) :
    (specOut s).repValid = false ∧ (cycleSpec s).dstate = .hold ∧
      (cycleSpec s).holdCnt.toNat + (if s.pins.msTick then 1 else 0) = s.holdCnt.toNat := by
  have hrep : (specOut s).repValid = false := Bool.eq_false_iff.mpr fun hrep =>
    hne ((specOut_repValid_of_hold h).mp hrep)
  refine ⟨hrep, (cycleSpec_dstate_of_no_report hrep).trans h, ?_⟩
  have hcode := specCode_of_hold h
  cases hm : s.pins.msTick with
  | false => simp [cycleSpec, hcode, hm]
  | true =>
    have hcnt : (cycleSpec s).holdCnt = s.holdCnt - 1 := by
      have hnz : ¬ s.holdCnt = 0#16 := hne
      simp [cycleSpec, hcode, h, hm, hnz]
    rw [hcnt, if_pos rfl]
    bv_omega

/-- The same of a step. -/
theorem hold_counts_step {s t : State} (hhold : s.dstate = .hold) (hne : s.holdCnt ≠ 0) (h : step s = .next t)
    (hr : t.pins.rst = false) :
    t.out.repValid = false ∧ t.dstate = .hold ∧
      t.holdCnt.toNat + (if t.pins.msTick then 1 else 0) = s.holdCnt.toNat := by
  have hrun := RunsTo.of_step h hr
  obtain ⟨hrep, hdstate, hcnt⟩ := hold_counts ((latchInputs_dstate s).trans hhold)
    (by rwa [latchInputs_holdCnt])
  rw [latchInputs_holdCnt] at hcnt
  rw [hrun.pins_eq, hrun.out_eq, hrun.update]
  exact ⟨hrep, hdstate, hcnt⟩

/-- Over a run the hold goes on and counts its ticks, as long as a strobe is left before the last cycle (R193). -/
theorem hold_lasts : ∀ (n : Nat) (s : State) (ts : List State), s.dstate = .hold → cyclesFrom n s = some ts →
    (∀ t ∈ ts, t.pins.rst = false) → ts.dropLast.countP (fun t => t.pins.msTick) < s.holdCnt.toNat →
    (∀ t ∈ ts, t.out.repValid = false ∧ t.dstate = .hold) ∧
      (lastOf s ts).holdCnt.toNat + ts.countP (fun t => t.pins.msTick) = s.holdCnt.toNat
  | 0, s, ts, _, hrun, _, _ => by
    obtain rfl : [] = ts := Option.some.inj hrun
    exact ⟨fun _ h => (List.not_mem_nil h).elim, rfl⟩
  | n + 1, s, ts, hhold, hrun, hr, hleft => by
    obtain ⟨t, rest, hfirst, hrest, rfl⟩ := cyclesFrom_succ hrun
    obtain ⟨hrt, hrr⟩ := List.forall_mem_cons.mp hr
    have hne : s.holdCnt ≠ 0 := by rintro h; simp [h] at hleft
    obtain ⟨hrep, hdstate, hcnt⟩ := hold_counts_step hhold hne hfirst hrt
    rw [lastOf_cons, List.countP_cons, ← Nat.add_assoc, List.forall_mem_cons]
    cases rest with
    | nil => exact ⟨⟨⟨hrep, hdstate⟩, fun _ h => (List.not_mem_nil h).elim⟩, hcnt⟩
    | cons u rest =>
      rw [List.dropLast_cons_cons, List.countP_cons] at hleft
      obtain ⟨hall, hsum⟩ := hold_lasts n t _ hdstate hrest hrr (by omega)
      exact ⟨⟨⟨hrep, hdstate⟩, hall⟩, by rw [hsum, hcnt]⟩

/-- Settles O49: the hold over a run, and the release of a hold with no strobe left. -/
theorem holdLastsItsMilliseconds : Obligations.HoldLastsItsMilliseconds := by
  constructor
  · intro n s ts _
    exact hold_lasts n s ts
  · intro s t _ hhold hz h hr
    have hrun := RunsTo.of_step h hr
    have hhold' := (latchInputs_dstate s).trans hhold
    have hz' := (latchInputs_holdCnt s).trans hz
    obtain ⟨hcode, hmod, hnext⟩ := release_of_hold hhold' hz'
    rw [hrun.out_eq, hrun.update]
    exact ⟨(specOut_repValid_of_hold hhold').mpr hz', hcode, hmod, hnext⟩

/-! ### Fewer than sixteen samples -/

/-- The register's oldest samples, those past the newest `c`, are `b`, and so is the settled level (R107). -/
structure OldestSamples (b : Bool) (c : Nat) (s : State) : Prop where
  bits : ∀ i < 16, c ≤ i → s.debSr.getLsbD i = b
  level : s.settled = b

/-- In a unanimous register that agrees with the settled level every sample is old. -/
theorem OldestSamples.zero {s : State} (h : s.debSr = replicated s.settled) : OldestSamples s.settled 0 s where
  bits i hi _ := by rw [h]; exact getLsbD_replicated _ ⟨i, hi⟩
  level := rfl

/-- The filter's part of the state alone decides which samples are oldest. -/
theorem OldestSamples.congr {b : Bool} {c : Nat} {s t : State} (h : OldestSamples b c s) (hsr : t.debSr = s.debSr)
    (hsettled : t.settled = s.settled) : OldestSamples b c t where
  bits i hi hc := by rw [hsr]; exact h.bits i hi hc
  level := by rw [hsettled]; exact h.level

/-- One sample more leaves one old sample less; while one is left, the register is not unanimous for another value, so
the level holds (R101 to R103). -/
theorem OldestSamples.shift {b : Bool} {c : Nat} {s : State} (h : OldestSamples b c s) (hshift : specShift s = true)
    (hc : c + 1 < 16) : OldestSamples b (c + 1) (cycleSpec s) := by
  have hsr : (cycleSpec s).debSr = specSr s := by simp [cycleSpec, hshift]
  have hbits : ∀ i < 16, c + 1 ≤ i → (specSr s).getLsbD i = b
    | i + 1, hi, hci => (getLsbD_specSr_succ s hi).trans (h.bits i (by omega) (by omega))
  have hunanimous : ∀ v, specSr s = replicated v → v = b := fun v hv => by
    rw [← hbits 15 (by decide) (by omega), hv]
    exact (getLsbD_replicated v 15).symm
  constructor
  · rwa [hsr]
  · change specLevel s = b
    rw [specLevel_of_shift hshift]
    split
    next hones => exact hunanimous true hones
    next =>
      split
      next hzeros => exact hunanimous false hzeros
      next => exact h.level

/-- A step without a reset makes the sample it takes, if any, a newest one. -/
theorem OldestSamples.after_step {b : Bool} {c : Nat} {s t : State} (h : OldestSamples b c s) (hstep : step s = .next t)
    (hr : t.pins.rst = false) (hc : c + (if tookSample t then 1 else 0) < 16) :
    OldestSamples b (c + if tookSample t then 1 else 0) t := by
  have hrun := RunsTo.of_step hstep hr
  have hlatched : OldestSamples b c (latchInputs s) := h.congr (by simp) (by simp)
  have hcycle : OldestSamples b (c + if tookSample t then 1 else 0) (cycleSpec (latchInputs s)) := by
    cases htook : tookSample t with
    | true =>
      rw [htook] at hc
      exact hlatched.shift (hrun.tookSample_eq.symm.trans htook) hc
    | false =>
      have hshift := hrun.tookSample_eq.symm.trans htook
      exact hlatched.congr (by simp [cycleSpec, hshift]) (specLevel_of_not_shift hshift)
  exact hcycle.congr (by rw [hrun.update]) (by rw [hrun.update])

/-- Over a run with fewer samples than there are old ones left, the level holds. -/
theorem OldestSamples.level_holds {b : Bool} : ∀ (n : Nat) {c : Nat} {s : State} {ts : List State},
    OldestSamples b c s → cyclesFrom n s = some ts → (∀ t ∈ ts, t.pins.rst = false) →
    c + ts.countP tookSample < 16 → ∀ t ∈ ts, t.settled = b
  | 0, c, s, ts, _, hrun, _, _ => by
    obtain rfl : [] = ts := Option.some.inj hrun
    exact fun _ h => (List.not_mem_nil h).elim
  | n + 1, c, s, ts, h, hrun, hr, hc => by
    obtain ⟨t, rest, hfirst, hrest, rfl⟩ := cyclesFrom_succ hrun
    obtain ⟨hrt, hrr⟩ := List.forall_mem_cons.mp hr
    rw [List.countP_cons] at hc
    have hnext := h.after_step hfirst hrt (by omega)
    exact List.forall_mem_cons.mpr ⟨hnext.level, level_holds n hnext hrest hrr (by omega)⟩

/-- Settles O41, by counting down the old samples over the run. -/
theorem fewerThanSixteenSamplesKeepTheLevel : Obligations.FewerThanSixteenSamplesKeepTheLevel := by
  intro n s ts _ hunanimous hrun hr hcount
  exact OldestSamples.level_holds n (.zero hunanimous) hrun hr (by omega)

end Sys2Proof.Machine

/-! ## What no output shows

Two cycles that differ only in a value that is not read make the same update of R210. For each such value: which `let`
values of R210 could read it and why these agree; the rest of `cycleSpec` then agrees by definition. -/

namespace Sys2Proof.Machine

/-! ### The ports and wires of the cycle before -/

/-- Sampling replaces the inputs and keeps the other ports and the wires for the start of the cycle to replace. -/
theorem latchInputs_ports (s : State) (p : Inputs) (o : Outputs) (w : Wires) :
    latchInputs { s with pins := p, out := o, wires := w } = { latchInputs s with out := o, wires := w } := by
  cases hstim : s.stim <;> simp [latchInputs, hstim]

/-- Settles O56: a cycle of either kind begins by replacing the outputs and the wires (`beginCycle`). -/
theorem stepIgnoresThePreviousOutputs : Obligations.StepIgnoresThePreviousOutputs := by
  intro s p o w
  rw [step_eq_exec, step_eq_exec, latchInputs_ports]
  rfl

/-! ### The drain tick in `HOLD` -/

/-- The cycle with another drain tick. -/
def withDrainTick (b : Bool) (s : State) : State := { s with pins := { s.pins with drainTick := b } }

/-- In `HOLD` the pop is `none` at either drain tick, and nothing but the pop reads the drain tick. -/
theorem cycleSpec_withDrainTick {s : State} (b : Bool) (h : s.dstate = .hold) :
    cycleSpec (withDrainTick b s) = withDrainTick b (cycleSpec s) := by
  have hnone : specPop s = none := specPop_of_hold h
  have hnone' : specPop (withDrainTick b s) = none := specPop_of_hold h
  simp only [cycleSpec, specOut, specCode, hnone, hnone']
  rfl

/-- Settles O50: the cycle in `HOLD` is the same at either drain tick, and neither pops. -/
theorem drainTickInHoldHasNoEffect : Obligations.DrainTickInHoldHasNoEffect := by
  intro s b hrunning hdomain hhold
  obtain ⟨w, hrun, -, -, -, hpop⟩ := cycleIsTheSimultaneousStep s hrunning hdomain
  obtain ⟨w', hrun', -, -, -, hpop'⟩ := cycleIsTheSimultaneousStep (withDrainTick b s) hrunning hdomain
  rw [cycleSpec_withDrainTick b hhold] at hrun'
  exact ⟨_, w', hrun, hpop.trans (specPop_of_hold hhold), hpop'.trans (specPop_of_hold hhold), hrun'⟩

/-! ### Storage outside the queue -/

/-- The state with another FIFO storage. -/
def withStorage (m : Vector Event 32) (s : State) : State := { s with fifoMem := m }

/-- The pop reads the head of the queue and nothing else of the storage (R172, R182). -/
theorem specPop_withStorage {s : State} {m : Vector Event 32} (h : queued (withStorage m s) = queued s) :
    specPop (withStorage m s) = specPop s := by
  by_cases hne : s.fifoCnt = 0
  · simp [specPop, withStorage, hne]
  · rw [queued_dropHead hne, queued_dropHead (s := withStorage m s) hne] at h
    have hhead : fifoRead m s.fifoRd = fifoRead s.fifoMem s.fifoRd := List.head_eq_of_cons_eq h
    simp only [specPop, withStorage, hhead]

/-- Nothing but the pop and the storage itself reads the storage. -/
theorem cycleSpec_withStorage {s : State} {m : Vector Event 32} (h : queued (withStorage m s) = queued s) :
    cycleSpec (withStorage m s) = withStorage (cycleSpec (withStorage m s)).fifoMem (cycleSpec s) := by
  have hpop := specPop_withStorage h
  simp only [cycleSpec, specOut, specCode, hpop]
  rfl

/-- The queues stay equal: the cycle makes the same push and the same pop (R57). -/
theorem queued_cycleSpec_withStorage {s : State} {m : Vector Event 32} (h : queued (withStorage m s) = queued s)
    (hok : FifoOk s.fifoRd s.fifoWr s.fifoCnt) : queued (cycleSpec (withStorage m s)) = queued (cycleSpec s) := by
  have hpush : specPush (withStorage m s) = specPush s := rfl
  have hconserved := queued_cycleSpec (s := withStorage m s) hok
  rw [h, hpush, specPop_withStorage h, queued_cycleSpec hok] at hconserved
  exact (List.append_cancel_left hconserved).symm

/-- Settles O52: the storage enters the cycle through its queue alone. -/
theorem staleStorageIsNotRead : Obligations.StaleStorageIsNotRead := by
  intro s m hrunning hdomain hqueue
  obtain ⟨w, hrun, -, -, -, hpop⟩ := cycleIsTheSimultaneousStep s hrunning hdomain
  obtain ⟨w', hrun', -, -, -, hpop'⟩ := cycleIsTheSimultaneousStep (withStorage m s) hrunning hdomain
  obtain ⟨-, -, hok, -⟩ := hdomain
  refine ⟨_, _, hrun, hrun', ?_, ?_, queued_cycleSpec_withStorage hqueue hok⟩
  · rw [cycleSpec_withStorage hqueue]
    rfl
  · exact hpop'.trans ((specPop_withStorage hqueue).trans hpop.symm)

/-! ### The held event while nothing is held -/

/-- The state with another held event. -/
def withPending (e : Event) (s : State) : State := { s with pendEv := e }

/-- While nothing is held the push does not read `pend_ev` (R174). -/
theorem specPush_withPending {s : State} (e : Event) (h : s.pendValid = false) :
    specPush (withPending e s) = specPush s := by
  have hdone : specDone (withPending e s) = specDone s := rfl
  have hvalid : (withPending e s).pendValid = false := h
  simp only [specPush, hdone, hvalid, h]
  rfl

/-- Nothing but the push and the register itself reads `pend_ev`. -/
theorem cycleSpec_withPending {s : State} (e : Event) (h : s.pendValid = false) :
    cycleSpec (withPending e s) = withPending (cycleSpec (withPending e s)).pendEv (cycleSpec s) := by
  have hpush := specPush_withPending e h
  simp only [cycleSpec, hpush]
  rfl

/-- A stall writes the register whatever it held (R175). -/
theorem pendEv_of_stall {s : State} (h : s.pendValid = false) (hstall : (cycleSpec s).pendValid = true) :
    ∃ c, specDone s = some c ∧ (cycleSpec s).pendEv = eventOf (shiftBit s) c := by
  have hdone : (specDone s).isSome = true ∧ s.fifoCnt = 32#6 := by simpa [cycleSpec, h] using hstall
  obtain ⟨hsome, hfull⟩ := hdone
  obtain ⟨c, hc⟩ := Option.isSome_iff_exists.mp hsome
  exact ⟨c, hc, by simp [cycleSpec, shiftBit, hc, hfull]⟩

/-- Settles O53: while nothing is held, `pend_ev` enters nothing but its own next value, and a stall replaces that. -/
theorem stalePendingEventIsNotRead : Obligations.StalePendingEventIsNotRead := by
  intro s e hrunning hdomain hfree
  obtain ⟨w, hrun, -, -, hpush, -⟩ := cycleIsTheSimultaneousStep s hrunning hdomain
  obtain ⟨w', hrun', -, -, hpush', -⟩ := cycleIsTheSimultaneousStep (withPending e s) hrunning hdomain
  refine ⟨_, _, hrun, hrun', ?_, ?_, fun hstall => ?_⟩
  · rw [cycleSpec_withPending e hfree]
    rfl
  · exact hpush'.trans ((specPush_withPending e hfree).trans hpush.symm)
  · obtain ⟨c, hc, hev⟩ := pendEv_of_stall hfree hstall
    obtain ⟨c', hc', hev'⟩ := pendEv_of_stall (s := withPending e s) hfree hstall
    obtain rfl : c = c' := Option.some.inj (hc.symm.trans hc')
    exact hev'.trans hev.symm

/-! ### The time of the last edge on an idle line -/

/-- The state with another time of the last edge. -/
def withEdge (x : Millis) (s : State) : State := { s with tLast := x }

/-- With the line idle no mark ends, and with the buffer empty no break is processed (R125 to R130). -/
theorem no_decoder_event {s : State} (hidle : s.decPrev = false) (hempty : s.symIdx = 0) :
    specMarkEnd s = false ∧ specBreak s = false := by
  simp [specMarkEnd, specBreak, hidle, hempty]

/-- The mark ends and the breaks are the only readers of `t_last`. -/
theorem cycleSpec_withEdge {s : State} (x : Millis) (hidle : s.decPrev = false) (hempty : s.symIdx = 0) :
    cycleSpec (withEdge x s) = withEdge (cycleSpec (withEdge x s)).tLast (cycleSpec s) := by
  have hnone := no_decoder_event hidle hempty
  have hnone' := no_decoder_event (s := withEdge x s) hidle hempty
  simp only [cycleSpec, specOut, specPush, specDone, hnone, hnone']
  rfl

/-- A mark begin writes the register whatever it held (R127 to R129). -/
theorem tLast_of_markBegin {s : State} (hidle : s.decPrev = false) (hbegin : (cycleSpec s).decPrev = true) :
    (cycleSpec s).tLast = s.msCount := by
  have hrise : specAcc s = true ∧ specLevel s = true := by simpa [cycleSpec, hidle] using hbegin
  simp [cycleSpec, hidle, hrise]

/-- Settles O54: with the line idle and the buffer empty `t_last` enters nothing but its own next value, and a mark
begin replaces that. -/
theorem idleTimestampIsNotObservable : Obligations.IdleTimestampIsNotObservable := by
  intro s x hrunning hdomain hidle hempty
  obtain ⟨w, hrun, -⟩ := cycleIsTheSimultaneousStep s hrunning hdomain
  obtain ⟨w', hrun', -⟩ := cycleIsTheSimultaneousStep (withEdge x s) hrunning hdomain
  refine ⟨_, _, hrun, hrun', ?_, fun hbegin => ?_⟩
  · rw [cycleSpec_withEdge x hidle hempty]
    rfl
  · exact (tLast_of_markBegin (s := withEdge x s) hidle hbegin).trans (tLast_of_markBegin hidle hbegin).symm

end Sys2Proof.Machine

/-! ## The decoder over runs of marks

The buffer as a list (R137): it holds the newest six of the symbols pushed since it was last empty, in order. -/

namespace Sys2Proof.Machine

/-! ### The thresholds -/

/-- Settles O42: integer division by `DIT_MS` and multiplication by it are adjoint. -/
theorem thresholdsAreProducts : Obligations.ThresholdsAreProducts := by
  intro s hne
  have hpos : 0 < s.cfg.ditMs.toNat := Nat.pos_of_ne_zero fun h => hne (BitVec.eq_of_toNat_eq h)
  rw [shortMark_iff, longGap_iff, specUnits, BitVec.le_def, BitVec.le_def, BitVec.toNat_udiv]
  exact ⟨Nat.lt_succ_iff.symm.trans (Nat.div_lt_iff_lt_mul hpos), Nat.le_div_iff_mul_le hpos⟩

/-! ### The buffer as a list -/

/-- The buffer whose slots hold the symbols of a list, in order, and are `EMPTY` after them (R27). -/
def bufferOf (l : List Symbol) : Vector Symbol 6 := Vector.ofFn fun k : Fin 6 => l.getD k.val .empty

/-- The newest six symbols of a list. -/
def newestSix (l : List Symbol) : List Symbol := l.drop (l.length - 6)

/-- Slot `k` holds entry `k`. -/
theorem bufferOf_getElem (l : List Symbol) (k : Nat) (hk : k < 6) : (bufferOf l)[k] = l.getD k .empty := by
  simp [bufferOf]

/-- The packed pattern of R76 is the word of the buffer that holds the marks and the `BREAK`. -/
theorem wordOfMarks_eq (ms : List Symbol) : wordOfMarks ms = packWord (bufferOf (ms ++ [.brk])) := rfl

/-- At most six symbols are their own newest six. -/
theorem newestSix_of_length_le {l : List Symbol} (h : l.length ≤ 6) : newestSix l = l := by
  simp [newestSix, Nat.sub_eq_zero_of_le h]

/-- The newest six are at most six. -/
theorem length_newestSix_le (l : List Symbol) : (newestSix l).length ≤ 6 := by
  rw [newestSix, List.length_drop]; omega

/-- With one symbol more, only the newest six of the others matter. -/
theorem newestSix_append (l : List Symbol) (x : Symbol) : newestSix (newestSix l ++ [x]) = newestSix (l ++ [x]) := by
  have hle : l.length - 6 ≤ l.length := Nat.sub_le _ _
  simp only [newestSix, List.length_append, List.length_drop, List.length_singleton]
  rw [← List.drop_append_of_le_length hle, List.drop_drop]
  congr 1
  omega

/-- With a `BREAK` at the end the newest six are the last five marks and the `BREAK` (R137). -/
theorem newestSix_append_singleton (l : List Symbol) (x : Symbol) :
    newestSix (l ++ [x]) = l.drop (l.length - 5) ++ [x] := by
  rw [newestSix, List.length_append, List.length_singleton, List.drop_append_of_le_length (by omega)]
  congr 2

/-- Pushing onto a buffer of at most six symbols leaves the newest six of them and the new one (R121, R122). -/
theorem pushedSyms_bufferOf {l : List Symbol} (x : Symbol) (h : l.length ≤ 6) :
    pushedSyms (bufferOf l) (BitVec.ofNat 3 l.length) x =
      (bufferOf (newestSix (l ++ [x])), BitVec.ofNat 3 (newestSix (l ++ [x])).length) := by
  rcases Nat.lt_or_eq_of_le h with hroom | hfull
  · have hidx : (BitVec.ofNat 3 l.length).toNat = l.length := by
      rw [BitVec.toNat_ofNat]; omega
    rw [pushedSyms_room x (hidx.trans_lt hroom), newestSix_of_length_le (by simp; omega)]
    refine Prod.ext (Vector.ext fun k hk => ?_) ?_
    · rw [appendSym_getElem _ _ _ k hk, hidx, bufferOf_getElem _ k hk, bufferOf_getElem _ k hk]
      rcases Nat.lt_trichotomy k l.length with hlt | rfl | hgt
      · rw [if_neg (by omega), List.getD_append _ _ _ _ hlt]
      · rw [if_pos rfl, List.getD_append_right _ _ _ _ le_rfl]; simp
      · rw [if_neg (by omega), List.getD_eq_default _ _ (by omega), List.getD_eq_default _ _ (by simp; omega)]
    · rw [List.length_append, List.length_singleton, BitVec.ofNat_add]
      rfl
  · obtain ⟨a, b, c, d, e, f, rfl⟩ : ∃ a b c d e f, l = [a, b, c, d, e, f] := by
      match l, hfull with
      | [a, b, c, d, e, f], _ => exact ⟨a, b, c, d, e, f, rfl⟩
    rfl

/-! ### Recording marks and a break -/

/-- The buffer registers hold the newest six of the symbols `l` (R27, R28). -/
structure Holds (l : List Symbol) (s : State) : Prop where
  running : Running s
  buf : s.symBuf = bufferOf (newestSix l)
  idx : s.symIdx = BitVec.ofNat 3 (newestSix l).length

/-- The index of a buffer that holds a list is at most 6 (R33 (a)). -/
theorem Holds.idx_le {l : List Symbol} {s : State} (h : Holds l s) : s.symIdx.toNat ≤ 6 := by
  have hle := length_newestSix_le l
  rw [h.idx, BitVec.toNat_ofNat]
  omega

/-- What `push_sym` yields from a buffer that holds a list. -/
theorem Holds.pushedSyms {l : List Symbol} {s : State} (h : Holds l s) (x : Symbol) :
    pushedSyms s.symBuf s.symIdx x =
      (bufferOf (newestSix (l ++ [x])), BitVec.ofNat 3 (newestSix (l ++ [x])).length) := by
  rw [h.buf, h.idx, pushedSyms_bufferOf x (length_newestSix_le l), newestSix_append]

/-- Recording a mark appends it to the list. -/
theorem Holds.recordMark {l : List Symbol} {s : State} (h : Holds l s) (x : Symbol) :
    ∃ t, recordMark x s = .next t ∧ Holds (l ++ [x]) t := by
  have hpushed := h.pushedSyms x
  refine ⟨_, recordMark_eq x s h.running.1 h.running.2 h.idx_le, h.running, ?_, ?_⟩
  · exact congrArg Prod.fst hpushed
  · exact congrArg Prod.snd hpushed

/-- Recording a run of marks appends them all. -/
theorem Holds.recordMarks : ∀ (ms : List Symbol) {l : List Symbol} {s : State}, Holds l s →
    ∃ t, recordMarks ms s = .next t ∧ Holds (l ++ ms) t
  | [], l, s, h => ⟨s, rfl, by rwa [List.append_nil]⟩
  | x :: ms, l, s, h => by
    obtain ⟨t, hfirst, ht⟩ := h.recordMark x
    obtain ⟨u, hrest, hu⟩ := Holds.recordMarks ms ht
    refine ⟨u, ?_, by rwa [List.append_assoc] at hu⟩
    rw [Machine.recordMarks, hfirst, andThen_next, hrest]

/-- The word a break resolves is the pattern of the last five marks (R137). -/
theorem Holds.specWord {l : List Symbol} {s : State} (h : Holds l s) :
    specWord s = wordOfMarks (l.drop (l.length - 5)) := by
  rw [Machine.specWord, h.pushedSyms .brk, newestSix_append_singleton, wordOfMarks_eq]

/-- A word that resolves to nothing raises `NOMATCH` (R135). -/
theorem resolvedOut_noMatch {o : Outputs} {r : Option Char8} (h : r = none) : (resolvedOut o r).noMatch = true := by
  rw [h]
  rfl

/-- Settles O43: the run of marks is held, and the break resolves and clears what is held. That the run
is not empty and made of marks is not needed: any symbols are held and resolved alike. -/
theorem breakResolvesTheLastFiveMarks : Obligations.BreakResolvesTheLastFiveMarks := by
  intro s ms hrun hbuf hidx _ _
  have hempty : Holds [] s := ⟨hrun, hbuf, hidx⟩
  obtain ⟨t, hmarks, hheld⟩ := hempty.recordMarks ms
  rw [List.nil_append] at hheld
  have hbreak := doBreak_eq t hheld.running.1 hheld.running.2 hheld.idx_le
  have hword : packWord (pushedSyms t.symBuf t.symIdx .brk).1 = wordOfMarks (ms.drop (ms.length - 5)) :=
    hheld.specWord
  rw [hword] at hbreak
  exact ⟨t, _, hmarks, hbreak, rfl, resolvedOut_noMatch, rfl, rfl⟩

/-! ### Keying a character -/

/-- The decoder between two of its ticks: it saw the level `level` last, its buffer holds the marks `l` (of the
configuration `c`), and if a mark or a gap is being measured, its edge is now. -/
structure Keyed (c : Config) (level : Bool) (l : List Symbol) (s : State) : Prop where
  cfg : s.cfg = c
  free : s.pendValid = false
  prev : s.decPrev = level
  buf : s.symBuf = bufferOf l
  idx : s.symIdx = BitVec.ofNat 3 l.length
  edge : level = true ∨ l ≠ [] → s.tLast = s.msCount

/-- The state in which the decoder runs on a tick (R120), as `decoderTick` gives it to the comparator. -/
def atTick (dt : Millis) (lvl : Bool) (s : State) : State :=
  { s with
    msCount := s.msCount + dt
    pins := { s.pins with rst := false, sampleTick := true }
    wires := { Wires.clear with level := lvl } }

/-- The decoder's tick is the comparator's operation of that state. -/
theorem decoderTick_eq (dt : Millis) (lvl : Bool) (s : State) : decoderTick dt lvl s = decUnit (atTick dt lvl s) := rfl

@[simp] theorem atTick_cfg (dt : Millis) (b : Bool) (s : State) : (atTick dt b s).cfg = s.cfg := rfl
@[simp] theorem atTick_decPrev (dt : Millis) (b : Bool) (s : State) : (atTick dt b s).decPrev = s.decPrev := rfl
@[simp] theorem atTick_tLast (dt : Millis) (b : Bool) (s : State) : (atTick dt b s).tLast = s.tLast := rfl
@[simp] theorem atTick_symBuf (dt : Millis) (b : Bool) (s : State) : (atTick dt b s).symBuf = s.symBuf := rfl
@[simp] theorem atTick_symIdx (dt : Millis) (b : Bool) (s : State) : (atTick dt b s).symIdx = s.symIdx := rfl
@[simp] theorem atTick_msCount (dt : Millis) (b : Bool) (s : State) : (atTick dt b s).msCount = s.msCount + dt := rfl
@[simp] theorem atTick_level (dt : Millis) (b : Bool) (s : State) : (atTick dt b s).wires.level = b := rfl

/-- A break is processed on an accepted tick that finds the line idle, a long silence and marks (R128, R130). -/
theorem specBreak_iff (s : State) :
    specBreak s = true ↔ acc s = true ∧ s.decPrev = false ∧ s.cfg.breakUnits ≤ specUnits s ∧ s.symIdx ≠ 0 := by
  simp [specBreak, show specAcc s = acc s from rfl, and_assoc]

/-- An edge that is now is `dt` milliseconds ago at the tick (R120). -/
theorem specUnits_atTick {s : State} (dt : Millis) (lvl : Bool) (h : s.tLast = s.msCount) :
    specUnits (atTick dt lvl s) = dt / s.cfg.ditMs := by
  have helapsed : s.msCount + dt - s.msCount = dt := by bv_omega
  simp [specUnits, h, helapsed]

/-- A tick is accepted while the producer is not suspended (R176). -/
theorem Keyed.acc_atTick {c : Config} {level : Bool} {l : List Symbol} {s : State} (h : Keyed c level l s) (dt : Millis)
    (lvl : Bool) : acc (atTick dt lvl s) = true := by
  simp [acc, atTick, h.free]

/-- The index counts the marks. -/
theorem Keyed.idx_toNat {c : Config} {level : Bool} {l : List Symbol} {s : State} (h : Keyed c level l s)
    (hl : l.length ≤ 5) : s.symIdx.toNat = l.length := by
  rw [h.idx, BitVec.toNat_ofNat]
  omega

/-- A tick processes a break exactly when marks wait for one and the silence is long enough (R128, R130). -/
theorem Keyed.specBreak_atTick {c : Config} {l : List Symbol} {s : State} (h : Keyed c false l s) (hl : l.length ≤ 5)
    (dt : Millis) (lvl : Bool) :
    specBreak (atTick dt lvl s) = true ↔ l ≠ [] ∧ c.breakUnits ≤ dt / c.ditMs := by
  have hidx : s.symIdx = 0 ↔ l = [] := by
    rw [← BitVec.toNat_inj, h.idx_toNat hl]
    exact List.length_eq_zero_iff
  rw [specBreak_iff, atTick_symIdx, ne_eq, hidx, atTick_decPrev, h.prev, atTick_cfg, ← h.cfg]
  constructor
  · rintro ⟨-, -, hlong, hne⟩
    exact ⟨hne, by rwa [specUnits_atTick dt lvl (h.edge (.inr hne))] at hlong⟩
  · rintro ⟨hne, hlong⟩
    exact ⟨h.acc_atTick dt lvl, rfl, by rwa [specUnits_atTick dt lvl (h.edge (.inr hne))], hne⟩

/-- A mark begins after a gap too short for a break, or with an empty buffer: no mark is lost (R127, R129). -/
theorem Keyed.markBegin {c : Config} {l : List Symbol} {s : State} (h : Keyed c false l s) (hc : c.legal = true)
    (hl : l.length ≤ 5) {gap : Millis} (hgap : l ≠ [] → gap / c.ditMs < c.breakUnits) :
    ∃ t, decoderTick gap true s = .next t ∧ Keyed c true l t := by
  have hacc := h.acc_atTick gap true
  have hle : s.symIdx.toNat ≤ 6 := by rw [h.idx_toNat hl]; omega
  have hnobreak : ¬ specBreak (atTick gap true s) = true := by
    rw [h.specBreak_atTick hl]
    rintro ⟨hne, hlong⟩
    exact BitVec.not_le.mpr (hgap hne) hlong
  obtain ⟨rfl, hfree, hprev, hbuf, hidx, -⟩ := h
  obtain ⟨w, hrun, -⟩ := decUnit_eq (atTick gap true s) hc rfl hle rfl
  refine ⟨_, (decoderTick_eq _ _ s).trans hrun, rfl, hfree, ?_, ?_, ?_, fun _ => ?_⟩ <;>
    simp [hacc, hnobreak, hprev, hbuf, hidx]

/-- A mark ends and is recorded by its length (R125, R126). -/
theorem Keyed.markEnd {c : Config} {l : List Symbol} {s : State} (h : Keyed c true l s) (hc : c.legal = true)
    (hl : l.length ≤ 4) (mark : Millis) :
    ∃ t, decoderTick mark false s = .next t ∧ Keyed c false (l ++ [markOf c mark]) t := by
  have hacc := h.acc_atTick mark false
  have hle : s.symIdx.toNat ≤ 6 := by rw [h.idx_toNat (by omega)]; omega
  obtain ⟨rfl, hfree, hprev, hbuf, hidx, hedge⟩ := h
  have hsym : markSymbol (atTick mark false s) = markOf s.cfg mark := by
    rw [markSymbol, specUnits_atTick mark false (hedge (.inl rfl))]
    rfl
  have hpushed := pushedSyms_bufferOf (markOf s.cfg mark) (show l.length ≤ 6 by omega)
  rw [newestSix_of_length_le (by simp; omega), ← hbuf, ← hidx] at hpushed
  obtain ⟨w, hrun, -⟩ := decUnit_eq (atTick mark false s) hc rfl hle rfl
  refine ⟨_, (decoderTick_eq _ _ s).trans hrun, rfl, hfree, ?_, ?_, ?_, fun _ => ?_⟩ <;>
    simp [hacc, hprev, hsym, hpushed]

/-- Keying at most five marks with short gaps between them records each by its length. -/
theorem Keyed.keyMarks {c : Config} (hc : c.legal = true) : ∀ (ks : List (Millis × Millis)) {l : List Symbol}
    {s : State}, Keyed c false l s → l.length + ks.length ≤ 5 →
    (l ≠ [] → ∀ k ∈ ks.head?, k.1 / c.ditMs < c.breakUnits) → (∀ k ∈ ks.tail, k.1 / c.ditMs < c.breakUnits) →
    ∃ t, keyMarks ks s = .next t ∧ Keyed c false (l ++ ks.map fun k => markOf c k.2) t
  | [], l, s, h, _, _, _ => ⟨s, rfl, by rwa [List.map_nil, List.append_nil]⟩
  | (gap, mark) :: ks, l, s, h, hlen, hfirst, hrest => by
    rw [List.length_cons] at hlen
    obtain ⟨t, hbegin, ht⟩ := h.markBegin hc (by omega) fun hl => hfirst hl (gap, mark) rfl
    obtain ⟨u, hend, hu⟩ := ht.markEnd hc (by omega) mark
    have hlen' : (l ++ [markOf c mark]).length + ks.length ≤ 5 := by
      rw [List.length_append, List.length_singleton]; omega
    obtain ⟨v, hkeyed, hv⟩ := Keyed.keyMarks hc ks hu hlen'
      (fun _ k hk => hrest k (List.mem_of_mem_head? hk)) (fun k hk => hrest k (List.mem_of_mem_tail hk))
    refine ⟨v, ?_, by simpa using hv⟩
    simp only [Machine.keyMarks, hbegin, hend, hkeyed, andThen_next]

/-- The idle break after some marks resolves their pattern and clears the buffer (R130). -/
theorem Keyed.idleBreak {c : Config} {l : List Symbol} {s : State} (h : Keyed c false l s) (hc : c.legal = true)
    (hne : l ≠ []) (hl : l.length ≤ 5) {silence : Millis} (hlong : c.breakUnits ≤ silence / c.ditMs) :
    ∃ t, decoderTick silence false s = .next t ∧ t.wires.done = resolveWord (wordOfMarks l) ∧
      t.symBuf = emptyBuf ∧ t.symIdx = 0 := by
  have hle : s.symIdx.toNat ≤ 6 := by rw [h.idx_toNat hl]; omega
  have hbreak := (h.specBreak_atTick hl silence false).mpr ⟨hne, hlong⟩
  obtain ⟨rfl, -, hprev, hbuf, hidx, -⟩ := h
  have hword : specWord (atTick silence false s) = wordOfMarks l := by
    have hpushed := pushedSyms_bufferOf .brk (show l.length ≤ 6 by omega)
    rw [newestSix_of_length_le (by simp; omega), ← hbuf, ← hidx] at hpushed
    rw [specWord, atTick_symBuf, atTick_symIdx, hpushed, wordOfMarks_eq]
  obtain ⟨w, hrun, -, -, -, hdone⟩ := decUnit_eq (atTick silence false s) hc rfl hle rfl
  rw [if_pos hbreak, hword] at hdone
  refine ⟨_, (decoderTick_eq _ _ s).trans hrun, hdone, ?_, ?_⟩ <;> simp [hbreak, hprev]

/-- Settles O44: the marks are recorded one by one, and the idle break resolves their pattern, which is the entry's. -/
theorem keyedCharacterCompletesItself : Obligations.KeyedCharacterCompletesItself := by
  intro s ks silence e hlegal hfree hprev hbuf hidx he hne hlen hword hgaps hlong
  have hstart : Keyed s.cfg false [] s := ⟨rfl, hfree, hprev, hbuf, hidx, fun h => by simp at h⟩
  obtain ⟨t, hkeyed, ht⟩ := hstart.keyMarks hlegal ks (by simpa using hlen) (fun h => absurd rfl h) hgaps
  rw [List.nil_append] at ht
  obtain ⟨u, hbreak, hdone, hclear⟩ := ht.idleBreak hlegal (by simpa using hne) (by simpa using hlen) hlong
  rw [hword, resolveWord_of_mem e he] at hdone
  exact ⟨t, u, hkeyed, hbreak, hdone, hclear⟩

end Sys2Proof.Machine
